-- ==== Sys2Proof/Word.lean ====
section
/-! DEFINITION. The word types of the OtD soft-UART and the two line levels (spec/00_scope.md R11, R13, R14). -/

namespace Sys2Proof

/-- A command word, a command result, the overflow counter: 16 bits (R11). -/
abbrev Word := BitVec 16

/-- A data byte, the sample accumulator, DLY, FAULT: 8 bits (R11, 10_state.md R30). -/
abbrev Byte := BitVec 8

/-- A line level (R14): `L` is space (logical low), `H` is mark (logical high). -/
inductive Level where
  | L
  | H
deriving DecidableEq, Repr, Inhabited

end Sys2Proof
end

