-- ==== Sys2Proof/Config.lean ====
section
/-! DEFINITION. The implementation parameters of spec/00_scope.md R9 and R10, their defaults, the constants of R12,
and the free values: opaque constants without a body, of which nothing can be proved. -/

namespace Sys2Proof

/-- OVERFLOW_POLICY (R10, 92_eei_decisions.md D9). -/
inductive OverflowPolicy where
  | dropOldest
  | dropNewest
  | legacyFault
deriving DecidableEq, Repr

/-- MASKED_EDGE_POLICY (R10, D14). -/
inductive MaskedEdgePolicy where
  | drop
  | latch
  | draw
deriving DecidableEq, Repr

/-- WIRING (R10, D16). -/
inductive Wiring where
  | separate
  | shared
deriving DecidableEq, Repr

/-- RX_START_OFFSET_Q, written o, in 1..3 ticks (R10, D12). -/
inductive StartOffset where
  | one
  | two
  | three
deriving DecidableEq, Repr

/-- INT_BITS (R10, D23). -/
inductive IntBits where
  | b8
  | b16
  | b32
  | b64
deriving DecidableEq, Repr

/-- FLOAT_FMT, "an IEEE-754 binary format" (R10, D24), by the widths of its exponent and fraction fields: R10 names no
list of formats, so any widths are admitted, every binary{k} among them. PRESUMED layout, DESIGN CHOICE of the range
(log 20). -/
structure FloatFmt where
  /-- Width of the exponent field. -/
  expBits : Nat
  /-- Width of the fraction field, the leading bit not counted. -/
  fracBits : Nat
deriving DecidableEq, Repr

/-- binary16. PRESUMED: IEEE-754 (log 20). -/
def FloatFmt.binary16 : FloatFmt := ⟨5, 10⟩
/-- binary32, the default of R10. PRESUMED: IEEE-754 (log 20). -/
def FloatFmt.binary32 : FloatFmt := ⟨8, 23⟩
/-- binary64. PRESUMED: IEEE-754 (log 20). -/
def FloatFmt.binary64 : FloatFmt := ⟨11, 52⟩

/-- round(4·log2 k), as the integer part of half of log2 of 2·k^8. -/
def FloatFmt.roundedFourLog2 (k : Nat) : Nat := (2 * k ^ 8).log2 / 2

/-- binary{k} for k = 128, 160, 192, …: the exponent field has round(4·log2 k) − 13 bits. PRESUMED: IEEE-754 (log 20). -/
def FloatFmt.wide (k : Nat) : FloatFmt :=
  ⟨FloatFmt.roundedFourLog2 k - 13, k - 1 - (FloatFmt.roundedFourLog2 k - 13)⟩

/-- The parameters given at construction and immutable afterwards (R9, R10). -/
structure Params where
  /-- CLK_HZ, clock frequency in Hz. -/
  clkHz : Nat
  /-- BAUD, bits per second. -/
  baud : Nat
  overflow : OverflowPolicy
  startOffset : StartOffset
  /-- RX_TAIL_Q, ticks. -/
  rxTailQ : Nat
  /-- ISR_LAT_MAX, ticks. -/
  isrLatMax : Nat
  maskedEdge : MaskedEdgePolicy
  wiring : Wiring
  intBits : IntBits
  floatFmt : FloatFmt
deriving DecidableEq, Repr

/-- The defaults of R10. CLK_HZ and BAUD have none (R9, OPEN): the values here are the launch premise L0 of
95_test_vectors.md. DESIGN CHOICE, unsafe (log 4). -/
def Params.default : Params where
  clkHz := 8000000
  baud := 19200
  overflow := .dropOldest
  startOffset := .two
  rxTailQ := 2
  isrLatMax := 0
  maskedEdge := .draw
  wiring := .separate
  intBits := .b16
  floatFmt := .binary32

/-! The free values below are constants of the model: two states that draw at the same argument draw alike. That the draws
of two instances or of two runs are equal is DESIGN CHOICE, unsafe (log 6, log 7): the spec has them independent. -/

namespace Config

/-- C, the ring buffer's capacity (R12). -/
abbrev capacity : Nat := 64
/-- K_OVH, the delay formula's offset (R12). -/
abbrev kOvh : Nat := 39
/-- K_DIV, the delay formula's divisor (R12). -/
abbrev kDiv : Nat := 12
/-- DLY_MIN (R12). -/
abbrev dlyMin : Nat := 1
/-- DLY_MAX (R12). -/
abbrev dlyMax : Nat := 255
/-- Quarter steps, that is ticks, per bit (R12). -/
abbrev ticksPerBit : Nat := 4
/-- RX data samples per byte, and data bits per frame (R12). -/
abbrev dataBits : Nat := 8

/-- FREE VALUE. RB[i] after reset: "unspecified: each byte is a draw" (10_state.md R50; log 7). One constant for all
instances and runs: DESIGN CHOICE (log 7). -/
opaque rbResetByte : Nat → Byte

/-- FREE VALUE. The level ENV presents on RX at a tick that `State.rxIn` does not list (60_exceptions.md R330; log 5).
One constant for all instances and runs: DESIGN CHOICE (log 5). -/
opaque rxBeyond : Nat → Level

/-- FREE VALUE. The draw p of MASKED_EDGE_POLICY = draw, for the n-th draw of the run (42_receiver.md R201; log 6).
One constant for all instances and runs: DESIGN CHOICE (log 6). -/
opaque maskedEdgeDraw : Nat → Bool

/-- FREE VALUE. Whether RXISR is entered at a B4 evaluation that may but need not enter, for the n-th draw of the run
(10_state.md R53; log 6). One constant for all instances and runs: DESIGN CHOICE (log 6). -/
opaque entryDraw : Nat → Bool

/-- FREE VALUE. At a tie of round5, whether the larger magnitude is taken, for the operand's format and bits
(41_transmitter.md R186; log 18). -/
opaque round5Tie : FloatFmt → Nat → Bool

/-- FREE VALUE. fmt_nonfinite, the text of a NaN or an infinity, "a configuration field the model does not interpret"
(41_transmitter.md R186; log 18). -/
opaque fmtNonfinite : FloatFmt → Nat → List Byte

end Config

end Sys2Proof
end

