-- ==== Sys2Proof/Syntax.lean ====
section
/-! DEFINITION. The commands of the block, one constructor per row of spec/opcode_table.json (spec/30_encoding.md R103). -/

namespace Sys2Proof

/-- A command of MAIN. -/
inductive Instr where
  /-- INIT, `initializeLine()` (40_timing_primitive.md R143). -/
  | init
  /-- WAITQ, `waitQuarterBit()` (R146). -/
  | waitq
  /-- EI (44_interrupt_control.md R280). -/
  | ei
  /-- DI (R281). -/
  | di
  /-- TXB b, `transmitByte(b)` (41_transmitter.md R170). -/
  | txb (b : Byte)
  /-- RDNB, `readByte(blocking=false)` (43_ring_buffer.md R250). -/
  | rdnb
  /-- RDB, `readByte(blocking=true)` (R252). -/
  | rdb
  /-- RDOVF (R262). -/
  | rdovf
deriving DecidableEq, Repr

end Sys2Proof
end

