-- ==== Sys2Proof/WellFormed.lean ====
section
/-! DEFINITION. Well-formedness. A command's only operand is TXB's byte, which its type bounds (spec/30_encoding.md R102),
so every `Instr` is well formed. The checks that can fail are on the parameters (spec/10_state.md R48). -/

namespace Sys2Proof

/-- Every command is well formed: the operand of TXB is any byte, the others have none (R102). -/
def Instr.wf : Instr → Bool
  | .init => true
  | .waitq => true
  | .ei => true
  | .di => true
  | .txb _ => true
  | .rdnb => true
  | .rdb => true
  | .rdovf => true

/-- An exponent field that tells zero, finite and non-finite values apart, and a fraction field (log 20). -/
def FloatFmt.wf (f : FloatFmt) : Bool := decide (2 ≤ f.expBits) && decide (1 ≤ f.fracBits)

/-- CLK_HZ is legal when it is above 0 (R48), FLOAT_FMT when it has its fields. The other parameters' domains are their
types (R10); BAUD = 0 is allowed, and makes INIT fail (40_timing_primitive.md R143). -/
def Params.wf (p : Params) : Bool := decide (0 < p.clkHz) && p.floatFmt.wf

/-- The widths of INT_BITS (R10). -/
def IntBits.width : IntBits → Nat
  | .b8 => 8
  | .b16 => 16
  | .b32 => 32
  | .b64 => 64

/-- A TXINT operand fits INT_BITS bits (41_transmitter.md R183). -/
def IntBits.fits (n : IntBits) (v : Int) : Bool :=
  decide (-(2 ^ (n.width - 1) : Int) ≤ v ∧ v ≤ 2 ^ (n.width - 1) - 1)

/-- A TXFLT operand, given as a bit pattern, fits its format (R185). -/
def FloatFmt.fits (f : FloatFmt) (x : Nat) : Bool := decide (x < 2 ^ (1 + f.expBits + f.fracBits))

end Sys2Proof
end

