-- ==== Sys2Proof/Decode.lean ====
section
/-! DEFINITION. Format C, the 16-bit command word: decoder, encoder, the opcode rows, and the word as bytes
(spec/30_encoding.md R101 to R107, spec/20_memory.md R73). -/

namespace Sys2Proof

/-- CMD[15:8] (R101). -/
def opField (w : Word) : Byte := w.extractLsb' 8 8

/-- CMD[7:0] (R101). -/
def argField (w : Word) : Byte := w.extractLsb' 0 8

/-- {op, arg}: the word with the given OP and ARG (R101, R13). -/
def mkWord (op arg : Byte) : Word := op ++ arg

/-- What a word decodes to (R105). -/
inductive Decoded where
  | cmd (i : Instr)
  | illegal
deriving DecidableEq, Repr

/-- A command that takes no operand is legal only with ARG = 0 (R102, R105). -/
def noOperand (arg : Byte) (i : Instr) : Decoded := if arg = 0x00#8 then .cmd i else .illegal

/-- `decode`, total on every word (R105). -/
def decodeWord (w : Word) : Decoded :=
  if opField w = 0x01#8 then noOperand (argField w) .init
  else if opField w = 0x02#8 then noOperand (argField w) .waitq
  else if opField w = 0x03#8 then noOperand (argField w) .ei
  else if opField w = 0x04#8 then noOperand (argField w) .di
  else if opField w = 0x10#8 then .cmd (.txb (argField w))
  else if opField w = 0x20#8 then
    if argField w = 0x00#8 then .cmd .rdnb else if argField w = 0x01#8 then .cmd .rdb else .illegal
  else if opField w = 0x21#8 then noOperand (argField w) .rdovf
  else .illegal

/-- The word of a command (R103). -/
def encode : Instr → Word
  | .init => mkWord 0x01#8 0x00#8
  | .waitq => mkWord 0x02#8 0x00#8
  | .ei => mkWord 0x03#8 0x00#8
  | .di => mkWord 0x04#8 0x00#8
  | .txb b => mkWord 0x10#8 b
  | .rdnb => mkWord 0x20#8 0x00#8
  | .rdb => mkWord 0x20#8 0x01#8
  | .rdovf => mkWord 0x21#8 0x00#8

/-- A row of the opcode table (R103): the words it selects are those with (w & mask) = pattern. -/
structure OpRow where
  mnemonic : String
  pattern : Word
  mask : Word
deriving DecidableEq, Repr

/-- "A word w selects a row iff `(w & mask) = match`" (R103). -/
def OpRow.selects (row : OpRow) (w : Word) : Bool := decide (w &&& row.mask = row.pattern)

/-- The row each command stands in (R103). -/
def Instr.row : Instr → OpRow
  | .init => ⟨"INIT", 0x0100#16, 0xFFFF#16⟩
  | .waitq => ⟨"WAITQ", 0x0200#16, 0xFFFF#16⟩
  | .ei => ⟨"EI", 0x0300#16, 0xFFFF#16⟩
  | .di => ⟨"DI", 0x0400#16, 0xFFFF#16⟩
  | .txb _ => ⟨"TXB", 0x1000#16, 0xFF00#16⟩
  | .rdnb => ⟨"RDNB", 0x2000#16, 0xFFFF#16⟩
  | .rdb => ⟨"RDB", 0x2001#16, 0xFFFF#16⟩
  | .rdovf => ⟨"RDOVF", 0x2100#16, 0xFFFF#16⟩

/-- The table of R103, in its order. -/
def opcodeRows : List OpRow :=
  [Instr.init.row, Instr.waitq.row, Instr.ei.row, Instr.di.row, (Instr.txb 0x00#8).row, Instr.rdnb.row, Instr.rdb.row,
    Instr.rdovf.row]

/-- What a list of bytes decodes to: a command and the rest, an illegal word and the rest, or too few bytes for a word. -/
inductive ByteDecoded where
  | cmd (i : Instr) (rest : List Byte)
  | illegal (w : Word) (rest : List Byte)
  | truncated
deriving DecidableEq, Repr

/-- A word stored as bytes has OP first, ARG second (20_memory.md R73, 92_eei_decisions.md D28). -/
def wordBytes (w : Word) : List Byte := [opField w, argField w]

/-- The command at the head of a stored stream: always one whole word (R107, R73). -/
def decodeBytes : List Byte → ByteDecoded
  | op :: arg :: rest =>
    match decodeWord (mkWord op arg) with
    | .cmd i => .cmd i rest
    | .illegal => .illegal (mkWord op arg) rest
  | _ => .truncated

/-- A command as bytes, OP first (R73). -/
def encodeBytes (i : Instr) : List Byte := wordBytes (encode i)

/-- A stored stream read as words; `none` if a byte is left over (R73, R74). -/
def wordsOfBytes : List Byte → Option (List Word)
  | [] => some []
  | op :: arg :: rest => (wordsOfBytes rest).map (mkWord op arg :: ·)
  | [_] => none

/-- The word whose low `nbits` bits are w's, the bits above them 0. -/
def tableWord (nbits w : Nat) : Word := BitVec.ofNat 16 (w % 2 ^ nbits)

/-- The instruction the decoder reads from the bytes of a table word (bit 0 the word's least significant bit), laid out OP
first; `none` where it is illegal. -/
def decodeTableWord (nbits w : Nat) : Option Instr :=
  match decodeBytes (wordBytes (tableWord nbits w)) with
  | .cmd i _ => some i
  | .illegal _ _ => none
  | .truncated => none

end Sys2Proof
end

