-- ==== Sys2Proof/Machine/State.lean ====
section
/-! DEFINITION. The state of one block instance (spec/10_state.md R30 to R50), the reasons for which an observation stops,
and the state after reset. -/

namespace Sys2Proof.Machine

/-- LINE (R34, R48): encodings 0, 1, 2. -/
inductive LineStatus where
  | uninit
  | ready
  | failed
deriving DecidableEq, Repr

/-- TXS, the transmitter's sequencer (R38). -/
inductive TxSeq where
  | idle
  /-- A TXB that started at boundary `ts`; `c` is the complement register, `sie` the IE saved at entry. -/
  | busy (ts : Nat) (c : Byte) (sie : Bool)
deriving DecidableEq, Repr

/-- RXS (R43). -/
inductive RxState where
  | idle
  | sampling
deriving DecidableEq, Repr

/-- MS, the main-context sequencer (R44). -/
inductive MainSeq where
  | atCmd
  | inWaitq (te : Nat)
  | inTxb
  | inRdb (te : Nat)
  | done
deriving DecidableEq, Repr

/-- The causes of a fault of the block (60_exceptions.md R301). Raising one is a NEXT state with its code in FAULT. -/
inductive FaultCode where
  | illegalOp
  | notInit
  | reInit
  | rbOverflow
deriving DecidableEq, Repr

/-- RB: the bytes written since reset, by index, indices strictly rising (R40, 20_memory.md R70). A byte not listed still
holds its reset draw (R50; log 7). -/
abbrev Memory := List Host.Cell

/-- Indices rise strictly from `lo` and lie below C = 64. -/
def Memory.wfFrom (lo : Nat) : Memory → Bool
  | [] => true
  | (a, _) :: m => decide (lo ≤ a) && decide (a < Config.capacity) && Memory.wfFrom (a + 1) m

/-- The canonical form of RB. -/
def Memory.wf (m : Memory) : Bool := Memory.wfFrom 0 m

/-- The state of the block, and ENV's choices, which are fixed at launch. -/
structure State where
  /-- The parameters (00_scope.md R9, R10): ENV's choice at launch (60_exceptions.md R330). -/
  params : Params
  /-- The command stream (R32, 20_memory.md R71): ENV's choice at launch. -/
  stream : List Word
  /-- The level ENV presents at tick 0, 1, 2, … (00_scope.md R15); under WIRING = shared, the remote device's (D16). -/
  rxIn : List Level
  /-- The current tick boundary. -/
  now : Nat
  line : LineStatus
  /-- DLY (R33). -/
  dly : Byte
  /-- IE (R35). -/
  ie : Bool
  /-- ARMED (R36). -/
  armed : Bool
  /-- PEND (R37). -/
  pend : Bool
  /-- TXL (R38); `none` is undriven. -/
  txl : Option Level
  /-- TXS (R38). -/
  txs : TxSeq
  /-- The history of TXL (R54): the levels of the past ticks, newest first. -/
  txHist : List (Option Level)
  /-- RXS (R43). -/
  rxs : RxState
  /-- T0 (R43). -/
  t0 : Nat
  /-- ACC (R43). -/
  acc : Byte
  /-- RX_SIE (R43). -/
  rxSie : Bool
  /-- t_r of the latency rule (R53). -/
  tr : Option Nat
  /-- RB (R40). -/
  rb : Memory
  /-- W (R40). -/
  w : BitVec 6
  /-- R (R40). -/
  r : BitVec 6
  /-- OCC (R40). -/
  occ : BitVec 7
  /-- OVF_CNT (R41). -/
  ovfCnt : Word
  /-- FAULT (R42). -/
  fault : Byte
  /-- MS (R44). -/
  ms : MainSeq
  /-- CP (R32). -/
  cp : Nat
  /-- OUT (R45), in order. -/
  out : List Word
  /-- The model's own counter of the draws made so far (log 6). -/
  draws : Nat
deriving DecidableEq, Repr

/-- Why an observation of a run faults. `step` answers none of these: a fault of the block is a next state with FAULT
written (60_exceptions.md R302). -/
inductive Fault where
  /-- Raised by `observe` on a state with FAULT ≠ 0: "A state with FAULT ≠ 0 is never an observation point" (R54). Safe. -/
  | blockHalted (code : Byte)
deriving DecidableEq, Repr

/-- Why the model gives no meaning. `step` answers none of these. -/
inductive Refusal where
  /-- Raised by an arm of `exec` whose command has no meaning yet; no arm is left so. Safe. -/
  | notModelled (mnemonic : String)
  /-- Raised by `readTx`: "An observation that reads tx while it is none is refused" (92_eei_decisions.md D32). Safe. -/
  | txUndriven
  /-- Raised by `readTx` on a tick that has not passed yet. Safe. -/
  | txNotYet
  /-- Raised by `observe` on a state that is no observation point, and by `observeRun` on a run that has not reached one
  (R54). Safe. -/
  | notAtObservationPoint
deriving DecidableEq, Repr

/-- The state after reset for given choices of ENV (R50, 60_exceptions.md R330). T0, ACC and RX_SIE are unspecified there:
0, 0x00 and 0 are a DESIGN CHOICE, unsafe (log 8). -/
def State.launch (params : Params) (stream : List Word) (rxIn : List Level) : State where
  params := params
  stream := stream
  rxIn := rxIn
  now := 0
  line := .uninit
  dly := 0x00#8
  ie := false
  armed := false
  pend := false
  txl := none
  txs := .idle
  txHist := []
  rxs := .idle
  t0 := 0
  acc := 0x00#8
  rxSie := false
  tr := none
  rb := []
  w := 0#6
  r := 0#6
  occ := 0#7
  ovfCnt := 0x0000#16
  fault := 0x00#8
  ms := if stream = [] then .done else .atCmd
  cp := 0
  out := []
  draws := 0

/-- The machine right after reset, with nothing placed: the default parameters, an empty stream and no RX level fixed
(R50). An empty stream is a DESIGN CHOICE (log 3), so MS = DONE. -/
def State.reset : State := State.launch Params.default [] []

end Sys2Proof.Machine
end

