-- ==== Sys2Proof/Machine/Operands.lean ====
section
/-! DEFINITION. The forms in which values enter and leave the block: levels and bits, the RX level of a tick, the frame of
Format W, and the 16-bit results (spec/00_scope.md R13 to R16, spec/30_encoding.md R109 to R112). -/

namespace Sys2Proof.Machine

/-- `lvl(bit)`: 1 is H, 0 is L (00_scope.md R14). -/
def lvl (b : Bool) : Level := if b then .H else .L

/-- `bit(lvl)`, the inverse (R14); a sample of H is 1 (92_eei_decisions.md D26). -/
def bit : Level → Bool
  | .L => false
  | .H => true

/-- RX_START_OFFSET_Q in ticks (R10). -/
def offsetTicks : StartOffset → Nat
  | .one => 1
  | .two => 2
  | .three => 3

/-- Ticks from T0 to the end of an episode: o + 32 + RX_TAIL_Q (42_receiver.md R204). -/
def episodeTicks (p : Params) : Nat :=
  offsetTicks p.startOffset + Config.ticksPerBit * Config.dataBits + p.rxTailQ

/-- The level ENV (under WIRING = shared, the remote device) presents at tick t (R15, R330). -/
def envLevel (s : State) (t : Nat) : Level :=
  match s.rxIn[t]? with
  | some l => l
  | none => Config.rxBeyond t

/-- The level on RX when the block drives `tx` and the environment presents `remote`: separate wires carry the
environment's level; on a shared wire a driven L wins (92_eei_decisions.md D16). TX undriven leaves the remote level:
DESIGN CHOICE (log 11). -/
def wired (wiring : Wiring) (tx : Option Level) (remote : Level) : Level :=
  match wiring with
  | .separate => remote
  | .shared => if tx = some .L then .L else remote

/-- `sample()`: rx(t) at the current boundary t = now (R16). Under WIRING = shared, where B5 of this boundary then starts a
TXB, D16 has rx(t) = L, but the reads of B1 (a sample), B3 and B4 (the pin re-check) come before that drive and see the
wire as TXL is then: DESIGN CHOICE (log 10). -/
def rxNow (s : State) : Level := wired s.params.wiring s.txl (envLevel s s.now)

/-- The level the block drove in the tick before the current boundary. -/
def txBefore (s : State) : Option Level := s.txHist.head?.getD none

/-- rx(t − 1) at the current boundary t = now (R15). -/
def rxBefore (s : State) : Level := wired s.params.wiring (txBefore s) (envLevel s (s.now - 1))

/-- edge(t) at t = now: t ≥ 1 and rx(t − 1) = H and rx(t) = L (R15). -/
def edgeNow (s : State) : Bool := decide (1 ≤ s.now) && decide (rxBefore s = .H) && decide (rxNow s = .L)

/-- `frame(b, k)`: the level of tick k of the frame of b, for k < 40 (30_encoding.md R112). -/
def frame (b : Byte) (k : Nat) : Level :=
  if k < 4 then .L else if k < 36 then lvl (b.getLsbD (k / 4 - 1)) else .H

/-- tx(t) for a tick that has passed (R15, R54), read from the history. -/
def txAt (s : State) (t : Nat) : Option Level := if t < s.now then (s.txHist[s.now - 1 - t]?).getD none else none

/-- `zext_16(b)`: the result of a read (R109). -/
def byteResult (b : Byte) : Word := b.zeroExtend 16

/-- The sentinel −1 (R109, 92_eei_decisions.md D11). -/
def sentinel : Word := 0xFFFF#16

/-- INIT's success (R109). -/
def initOk : Word := 0x0000#16

/-- E_CFG_RANGE, INIT's failure (R109). -/
def eCfgRange : Word := 0x0001#16

end Sys2Proof.Machine
end

