-- ==== Sys2Proof/Machine/Flags.lean ====
section
/-! DEFINITION. The status computations: LINE's encoding, FAULT's codes, the saturating counter, the delay count and its
validity, and what an edge does to PEND (spec/10_state.md R39, R48, spec/40_timing_primitive.md R142, spec/42_receiver.md
R201). The block has no condition codes. -/

namespace Sys2Proof.Machine

/-- LINE's two-bit encoding (R34, R48). -/
def LineStatus.code : LineStatus → BitVec 2
  | .uninit => 0#2
  | .ready => 1#2
  | .failed => 2#2

/-- The codes of 60_exceptions.md R301. -/
def FaultCode.code : FaultCode → Byte
  | .illegalOp => 0x01#8
  | .notInit => 0x02#8
  | .reInit => 0x03#8
  | .rbOverflow => 0x04#8

/-- `sat16(x + 1)` (00_scope.md R13, 10_state.md R41). -/
def satInc (c : Word) : Word := if c = 0xFFFF#16 then c else c + 1#16

/-- The delay count of a valid configuration, `none` of an invalid one (R142, R143, 92_eei_decisions.md D4). -/
def delayCount (clkHz baud : Nat) : Option Byte :=
  let q := clkHz / baud
  let n := (q - Config.kOvh) / Config.kDiv
  if 0 < baud ∧ Config.kOvh ≤ q ∧ Config.dlyMin ≤ n ∧ n ≤ Config.dlyMax then some (BitVec.ofNat 8 n) else none

/-- What a falling edge does to PEND (R201): IE = 1 sets it, a masked edge follows MASKED_EDGE_POLICY. -/
def pendOnEdge (s : State) : State :=
  if s.ie then { s with pend := true }
  else
    match s.params.maskedEdge with
    | .drop => s
    | .latch => { s with pend := true }
    | .draw => { s with pend := s.pend || Config.maskedEdgeDraw s.draws, draws := s.draws + 1 }

end Sys2Proof.Machine
end

