-- ==== Sys2Proof/Machine/Ops.lean ====
section
/-! DEFINITION. The shared operations: RB, results, raising a fault, completing a command, driving TX, PUSH and pop, and
interrupt entry and return (spec/00_scope.md R16, spec/43_ring_buffer.md R240 to R250, spec/60_exceptions.md R302, R310,
R311). -/

namespace Sys2Proof.Machine

/-- RB[i]; a byte not written since reset is its reset draw (10_state.md R50). -/
def Memory.read : Memory → Nat → Byte
  | [], i => Config.rbResetByte i
  | (a, v) :: m, i => if i = a then v else Memory.read m i

/-- RB[i] <- v, keeping the indices in order. -/
def Memory.write : Memory → Nat → Byte → Memory
  | [], i, v => [(i, v)]
  | (a, x) :: m, i, v =>
    if i < a then (i, v) :: (a, x) :: m else if i = a then (a, v) :: m else (a, x) :: Memory.write m i v

/-- `MemRead(i, 1)` (00_scope.md R16). -/
def memRead (s : State) (i : BitVec 6) : Byte := s.rb.read i.toNat

/-- `MemWrite(i, 1, v)` (R16). -/
def memWrite (i : BitVec 6) (v : Byte) (s : State) : State := { s with rb := s.rb.write i.toNat v }

/-- `result(v)`: append v to OUT (R16, 10_state.md R45). -/
def result (v : Word) (s : State) : State := { s with out := s.out ++ [v] }

/-- `drive(l)` (R16). -/
def drive (l : Level) (s : State) : State := { s with txl := some l }

/-- `raise Fault(code)`: the first code is kept, and nothing else changes (60_exceptions.md R302). -/
def raiseFault (c : FaultCode) (s : State) : State := if s.fault = 0x00#8 then { s with fault := c.code } else s

/-- A fault ends ARMED: it stays 1 "until reset or a fault" (92_eei_decisions.md D37, the ruling that 10_state.md R36 cites;
R36 itself says "until reset"). DEDUCED (log 12). The raising has no other effect than FAULT (60_exceptions.md R302), so the
boundary does this. -/
def disarmAfterFault (s : State) : State := if s.fault = 0x00#8 then s else { s with armed := false }

/-- "Complete the command": CP <- CP + 1 and MS <- AT_CMD (10_state.md R52). -/
def complete (s : State) : State := { s with cp := s.cp + 1, ms := .atCmd }

/-- Run a meaning only on a READY line; otherwise F_NOT_INIT and no other effect (40_timing_primitive.md R147). -/
def requireReady (s : State) (k : State → Host.Outcome State Fault Refusal) : Host.Outcome State Fault Refusal :=
  if s.line = .ready then k s else .next (raiseFault .notInit s)

/-- PUSH(b), one atomic transition (43_ring_buffer.md R240, R241). An OCC above 64, which no run reaches, counts as full
(log 15). -/
def push (b : Byte) (s : State) : State :=
  if s.occ < 64#7 then { memWrite s.w b s with w := s.w + 1#6, occ := s.occ + 1#7 }
  else
    match s.params.overflow with
    | .dropOldest => { memWrite s.w b s with w := s.w + 1#6, r := s.r + 1#6, ovfCnt := satInc s.ovfCnt }
    | .dropNewest => { s with ovfCnt := satInc s.ovfCnt }
    | .legacyFault => raiseFault .rbOverflow s

/-- The byte-returning path of a read: the byte at R is the result, R advances, OCC goes down (R250, R252). -/
def popResult (s : State) : State :=
  result (byteResult (memRead s s.r)) { s with r := s.r + 1#6, occ := s.occ - 1#7 }

/-- Interrupt entry, what every entry does: IE is saved in RX_SIE and cleared, PEND is cleared (60_exceptions.md R310,
42_receiver.md R205). The entry ends the wait of R53, so t_r is forgotten. -/
def takeInterrupt (s : State) : State := { s with pend := false, rxSie := s.ie, ie := false, tr := none }

/-- Return from the interrupt: IE <- RX_SIE and RXS <- IDLE (60_exceptions.md R311). -/
def returnInterrupt (s : State) : State := { s with ie := s.rxSie, rxs := .idle }

/-- Sequence: go on from a next state, keep a stop. -/
def andThen (o : Host.Outcome State Fault Refusal) (k : State → Host.Outcome State Fault Refusal) :
    Host.Outcome State Fault Refusal :=
  match o with
  | .next s => k s
  | .fault r => .fault r
  | .refused r => .refused r

end Sys2Proof.Machine
end

