-- ==== Sys2Proof/Machine/Buffer.lean ====
section
/-! DEFINITION. The consumer's commands RDNB, RDB and RDOVF, and the unread bytes as a queue (spec/43_ring_buffer.md). -/

namespace Sys2Proof.Machine

/-- RDNB (R250): the sentinel on an empty buffer, else a pop, in zero ticks. -/
def execRdnb (s : State) : Host.Outcome State Fault Refusal :=
  requireReady s fun s =>
    if s.occ = 0#7 then .next (complete (result sentinel s)) else .next (complete (popResult s))

/-- A poll of RDB (R252): a pop that completes at once, else MS <- IN_RDB(t + 1). -/
def pollRdb (s : State) : Host.Outcome State Fault Refusal :=
  if s.occ = 0#7 then .next { s with ms := .inRdb (s.now + 1) } else .next (complete (popResult s))

/-- MS = IN_RDB(te): this evaluation is a re-poll (R252). -/
def inPoll (s : State) : Bool :=
  match s.ms with
  | .inRdb _ => true
  | .atCmd => false
  | .inWaitq _ => false
  | .inTxb => false
  | .done => false

/-- RDB (R252): LINE is checked at the first evaluation only. -/
def execRdb (s : State) : Host.Outcome State Fault Refusal :=
  if inPoll s then pollRdb s else requireReady s pollRdb

/-- RDOVF (R262). -/
def execRdovf (s : State) : Host.Outcome State Fault Refusal :=
  requireReady s fun s => .next (complete (result s.ovfCnt s))

/-- The n bytes of RB from index i on, wrapping mod 64. -/
def bytesFrom (m : Memory) (i : BitVec 6) : Nat → List Byte
  | 0 => []
  | n + 1 => m.read i.toNat :: bytesFrom m (i + 1#6) n

/-- The unread bytes, oldest first: indices R, R + 1, …, R + OCC − 1 mod 64 (20_memory.md R77, R80). -/
def unread (s : State) : List Byte := bytesFrom s.rb s.r s.occ.toNat

end Sys2Proof.Machine
end

