-- ==== Sys2Proof/Machine/Interrupt.lean ====
section
/-! DEFINITION. EI and DI (spec/44_interrupt_control.md R280, R281). -/

namespace Sys2Proof.Machine

/-- EI: IE <- 1, legal in every LINE state (R280). B4 is evaluated again after it, in `mainLoop`. -/
def execEi (s : State) : Host.Outcome State Fault Refusal := .next (complete { s with ie := true })

/-- DI: IE <- 0 (R281). -/
def execDi (s : State) : Host.Outcome State Fault Refusal := .next (complete { s with ie := false })

end Sys2Proof.Machine
end

