-- ==== Sys2Proof/Machine/Line.lean ====
section
/-! DEFINITION. INIT and WAITQ, the boundary action of WAITQ, and the calibration figures (spec/40_timing_primitive.md). -/

namespace Sys2Proof.Machine

/-- INIT on a line that is not READY, with a valid delay count (R143). -/
def initSucceed (n : Byte) (s : State) : State :=
  complete (result initOk (drive .H { s with
    dly := n, line := .ready, armed := true, pend := false, w := 0#6, r := 0#6, occ := 0#7, ovfCnt := 0x0000#16 }))

/-- INIT with an invalid configuration (R143): TXL and ARMED unchanged. -/
def initFail (s : State) : State := complete (result eCfgRange { s with dly := 0x00#8, line := .failed })

/-- INIT (R143): F_REINIT when READY, otherwise success or E_CFG_RANGE, in zero ticks. -/
def execInit (s : State) : Host.Outcome State Fault Refusal :=
  if s.line = .ready then .next (raiseFault .reInit s)
  else
    match delayCount s.params.clkHz s.params.baud with
    | some n => .next (initSucceed n s)
    | none => .next (initFail s)

/-- WAITQ, its part in B5 at boundary t: MS <- IN_WAITQ(t + 1) (R146). -/
def execWaitq (s : State) : Host.Outcome State Fault Refusal :=
  requireReady s fun s => .next { s with ms := .inWaitq (s.now + 1) }

/-- WAITQ, its part in B2: complete at t = te (R146, 10_state.md R52). -/
def waitqBoundary (te : Nat) (s : State) : State := if s.now = te then complete s else s

/-- Clock cycles of one realised bit period, 12·DLY + 39 (R150, informative). -/
def bitCycles (dly : Byte) : Nat := Config.kDiv * dly.toNat + Config.kOvh

/-- One tick in seconds, τ = (12·DLY + 39) / (4·CLK_HZ) (R150, informative). -/
def tickSeconds (p : Params) (dly : Byte) : Rat := (bitCycles dly : Rat) / (4 * p.clkHz)

/-- e = q − (12·DLY + 39), the calibration's residual in cycles (R151, informative). -/
def residualCycles (p : Params) (dly : Byte) : Int := (p.clkHz / p.baud : Nat) - (bitCycles dly : Int)

/-- The window of R152 for a foreign transmitter, 8/(8 + o/4) ≤ P/T < 9/(8 + o/4), with P/T = bitCycles·BAUD/CLK_HZ and
cleared of denominators (informative). -/
def inBaudWindow (p : Params) (dly : Byte) : Bool :=
  let x := (32 + offsetTicks p.startOffset) * bitCycles dly * p.baud
  decide (32 * p.clkHz ≤ x ∧ x < 36 * p.clkHz)

end Sys2Proof.Machine
end

