-- ==== Sys2Proof/Machine/Receive.lean ====
section
/-! DEFINITION. The receiver RXISR: sampling and completion (B1), edge detection (B3), entry (B4), and the byte eight
samples make (spec/42_receiver.md, spec/10_state.md R52, R53). -/

namespace Sys2Proof.Machine

/-- t = T0 + o + 4·i for some i in 1..8 (R207). -/
def isSampleStep (s : State) : Bool :=
  let base := s.t0 + offsetTicks s.params.startOffset
  decide (base + 4 ≤ s.now) && decide (s.now ≤ base + 32) && decide ((s.now - base) % 4 = 0)

/-- ACC <- (ACC >> 1) | (bit << 7) (R207). -/
def shiftIn (acc : Byte) (b : Bool) : Byte := (acc >>> 1) ||| (if b then 0x80#8 else 0x00#8)

/-- Sampling (R207). -/
def sampleStep (s : State) : State :=
  if isSampleStep s then { s with acc := shiftIn s.acc (bit (rxNow s)) } else s

/-- Completion (R209): PUSH, then return. A push that faults has no other effect, so RXS stays SAMPLING and IE stays 0
(60_exceptions.md R302; 95_test_vectors.md V-RB7). -/
def completeReception (s : State) : State :=
  let s' := push s.acc s
  if s'.fault = 0x00#8 then returnInterrupt s' else s'

/-- B1, receiver progress (10_state.md R52). With RX_TAIL_Q = 0 the eighth sample and the completion fall in one B1: the
sample comes first, and stays in ACC even if the PUSH then faults. DESIGN CHOICE (log 14). -/
def receiverProgress (s : State) : State :=
  if s.fault = 0x00#8 ∧ s.rxs = .sampling then
    let s' := sampleStep s
    if s'.now = s'.t0 + episodeTicks s'.params then completeReception s' else s'
  else s

/-- B3, edge detection, at every boundary with ARMED = 1 (R201). -/
def detectEdge (s : State) : State := if s.armed && edgeNow s then pendOnEdge s else s

/-- RXISR entry at boundary t (R205): a line that is not L is a spurious trigger and returns at once (R206). -/
def enterReceiver (s : State) : State :=
  let s' := takeInterrupt s
  if rxNow s' = .L then { s' with rxs := .sampling, t0 := s'.now, acc := 0x00#8 } else returnInterrupt s'

/-- RXS = IDLE and PEND = 1 and IE = 1, the condition of R53 and R203. -/
def entryReady (s : State) : Bool := decide (s.rxs = .idle) && s.pend && s.ie

/-- t_r at this B4 evaluation, where the condition holds: the boundary since which it has held (R53). -/
def waitStart (s : State) : Nat := s.tr.getD s.now

/-- R53 forces the entry: the boundary is at or past t_r + ISR_LAT_MAX. -/
def entryForced (s : State) : Bool := decide (waitStart s + s.params.isrLatMax ≤ s.now)

/-- B4, interrupt entry (10_state.md R52, R53): forced, or left to a draw; where the condition fails, t_r is forgotten. -/
def interruptEntry (s : State) : State :=
  if s.fault ≠ 0x00#8 then s
  else if entryReady s then
    if entryForced s then enterReceiver s
    else
      let s' := { s with tr := some (waitStart s), draws := s.draws + 1 }
      if Config.entryDraw s.draws then enterReceiver s' else s'
  else { s with tr := none }

/-- The byte that eight levels, first sample first, make (R208). -/
def byteOfSamples (sample : Nat → Level) : Byte :=
  (List.range Config.dataBits).foldl (fun acc k => shiftIn acc (bit (sample k))) 0x00#8

end Sys2Proof.Machine
end

