-- ==== Sys2Proof/Machine/Transmit.lean ====
section
/-! DEFINITION. TXB: the entry in B5 and the boundary actions in B2 (spec/41_transmitter.md R170 to R172). -/

namespace Sys2Proof.Machine

/-- TXB b, its entry at boundary ts (R170): the atomic section begins, the line goes to L. -/
def execTxb (b : Byte) (s : State) : Host.Outcome State Fault Refusal :=
  requireReady s fun s =>
    .next (drive .L { s with ie := false, txs := .busy s.now (~~~b) s.ie, ms := .inTxb })

/-- t = ts + 4·j for some j in 1..8 (R172). -/
def isDataStep (ts t : Nat) : Bool := decide (ts + 4 ≤ t) && decide (t ≤ ts + 32) && decide ((t - ts) % 4 = 0)

/-- Steps 2 to 9 (R172): the low bit of c is the carry, c shifts right, the line carries the carry's complement. -/
def txDataStep (ts : Nat) (c : Byte) (sie : Bool) (s : State) : State :=
  drive (lvl (!c.getLsbD 0)) { s with txs := .busy ts (c >>> 1) sie }

/-- The transmitter's action at boundary t = now of a TXB that started at ts (R172). -/
def txBoundary (s : State) : State :=
  match s.txs with
  | .idle => s
  | .busy ts c sie =>
    if isDataStep ts s.now then txDataStep ts c sie s
    else if s.now = ts + 36 then drive .H s
    else if s.now = ts + 40 then complete { s with ie := sie, txs := .idle }
    else s

end Sys2Proof.Machine
end

