-- ==== Sys2Proof/Machine/Dispatch.lean ====
section
/-! DEFINITION. One arm per command: its meaning in B5 (spec/10_state.md R52). -/

namespace Sys2Proof.Machine

def exec (i : Instr) (s : State) : Host.Outcome State Fault Refusal :=
  match i with
  | .init => Sys2Proof.Machine.execInit s
  | .waitq => Sys2Proof.Machine.execWaitq s
  | .ei => Sys2Proof.Machine.execEi s
  | .di => Sys2Proof.Machine.execDi s
  | .txb b => Sys2Proof.Machine.execTxb b s
  | .rdnb => Sys2Proof.Machine.execRdnb s
  | .rdb => Sys2Proof.Machine.execRdb s
  | .rdovf => Sys2Proof.Machine.execRdovf s

end Sys2Proof.Machine
end

