-- ==== Sys2Proof/Machine/Boundary.lean ====
section
/-! DEFINITION. One tick boundary, steps B1 to B6 (spec/10_state.md R52): B1, B3 and B4 are in Receive.lean. -/

namespace Sys2Proof.Machine

/-- B2, main timed progress (R52). -/
def mainProgress (s : State) : State :=
  if s.fault ≠ 0x00#8 then s
  else
    match s.ms with
    | .inWaitq te => waitqBoundary te s
    | .inTxb => txBoundary s
    | .inRdb _ => s
    | .atCmd => s
    | .done => s

/-- B1 and B2: the state at which B3 looks at the line, with ARMED as a fault of B1 leaves it. -/
def beforeEdge (s : State) : State := disarmAfterFault (mainProgress (receiverProgress s))

/-- B1 to B4: the state in which B5 begins. -/
def beforeMain (s : State) : State := interruptEntry (detectEdge (beforeEdge s))

/-- The command word at CP (R32). -/
def fetch (s : State) : Option Word := s.stream[s.cp]?

/-- Fetch, decode and execute the command at CP (R52 B5): past the end MS <- DONE, an illegal word raises F_ILLEGAL_OP
(30_encoding.md R105). -/
def fetchExec (s : State) : Host.Outcome State Fault Refusal :=
  match fetch s with
  | none => .next { s with ms := .done }
  | some w =>
    match decodeWord w with
    | .cmd i => exec i s
    | .illegal => .next (raiseFault .illegalOp s)

/-- B5 may run: FAULT = 0 and RXS = IDLE (R52). -/
def mainRuns (s : State) : Bool := decide (s.fault = 0x00#8) && decide (s.rxs = .idle)

/-- The command completed in zero time: no fault, and MS is AT_CMD again (R52). -/
def completedNow (s : State) : Bool := decide (s.fault = 0x00#8) && decide (s.ms = .atCmd)

/-- B5's loop (R52), for at most `fuel` evaluations: a command, or the re-poll of an RDB; after one that completed in zero
time B4 is evaluated again and the loop goes on; otherwise it stops. -/
def mainLoop : Nat → State → Host.Outcome State Fault Refusal
  | 0, s => .next s
  | fuel + 1, s =>
    if mainRuns s then
      match s.ms with
      | .atCmd =>
        andThen (fetchExec s) fun s' =>
          if completedNow s' then mainLoop fuel (interruptEntry s') else .next s'
      | .inRdb te =>
        if te ≤ s.now then
          andThen (exec .rdb s) fun s' =>
            if completedNow s' then mainLoop fuel (interruptEntry s') else .next s'
        else .next s
      | .inWaitq _ => .next s
      | .inTxb => .next s
      | .done => .next s
    else .next s

/-- Evaluations after which the loop has always stopped: every one that goes on advances CP (log 1). -/
def mainFuel (s : State) : Nat := s.stream.length - s.cp + 2

/-- Under WIRING = shared, the falling edge that B5 itself made by starting a TXB: edge(t) holds and did not in B3. It
meets the IE = 0 of the atomic section (42_receiver.md R217). ARMED is B3's (92_eei_decisions.md D37). DEDUCED (log 10). -/
def ownEdge (atB3 s : State) : State := if atB3.armed && !edgeNow atB3 && edgeNow s then pendOnEdge s else s

/-- B6: now <- t + 1; the level driven in [t, t + 1) joins the history (R52, R54). -/
def tick (s : State) : State := { s with now := s.now + 1, txHist := s.txl :: s.txHist }

/-- What follows B5, with ARMED as a fault of B5 leaves it. -/
def afterMain (atB3 s : State) : State := tick (disarmAfterFault (ownEdge atB3 s))

/-- A boundary of a block that has not halted: B1 to B6 (R52). -/
def liveBoundary (s : State) : Host.Outcome State Fault Refusal :=
  andThen (mainLoop (mainFuel (beforeMain s)) (beforeMain s)) fun s' => .next (afterMain (beforeEdge s) s')

/-- A boundary of a halted block: with FAULT ≠ 0, B1, B2, B4 and B5 do nothing, so B3 and B6 are left (R42, R52), and B3 does
nothing either, since the fault has ended ARMED (D37; log 12). That `liveBoundary` does the same there is `liveBoundary_halted` in Laws. -/
def haltedBoundary (s : State) : State := tick (detectEdge (disarmAfterFault s))

/-- One boundary, the machine's transition (R51, R52). -/
def boundary (s : State) : Host.Outcome State Fault Refusal :=
  if s.fault = 0x00#8 then liveBoundary s else .next (haltedBoundary s)

/-- The stream with `w` as its last word, at CP; the commands before it stay. -/
def streamWith (s : State) (w : Word) : List Word :=
  s.stream.take s.cp ++ List.replicate (s.cp - s.stream.length) 0x0000#16 ++ [w]

/-- MAIN about to fetch `w`, with nothing that would keep B5 of this boundary from fetching it: no fault, no reception, no
transmission, no pending edge, and, if the line falls at this very boundary, the comparator off (log 3). -/
def placeCommand (s : State) (w : Word) : State :=
  let s' := { s with
    stream := streamWith s w, ms := .atCmd, fault := 0x00#8, rxs := .idle, txs := .idle, pend := false, tr := none }
  { s' with armed := s'.armed && !edgeNow s' }

end Sys2Proof.Machine
end

