-- ==== Sys2Proof/Machine/Step.lean ====
section
/-! DEFINITION. One step of the machine is one tick boundary (spec/10_state.md R51); a command placed where the next step
fetches. -/

namespace Sys2Proof.Machine

/-- One transition: the six steps of R52 at boundary now. -/
def step (s : State) : Host.Outcome State Fault Refusal := boundary s

/-- s with the command word w placed where step fetches next; it stands for ENV's launch of a stream (log 3). -/
def State.withFetchWord (s : State) (nbits w : Nat) : State := placeCommand s (tableWord nbits w)

end Sys2Proof.Machine
end

