-- ==== Sys2Proof/Machine/Helpers.lean ====
section
/-! DEFINITION. The write helpers, pseudo-commands that ENV expands into commands before issue (spec/30_encoding.md R114,
spec/41_transmitter.md R180 to R186). Character codes are ASCII (spec/93_implementation_defined.md I5). -/

namespace Sys2Proof.Machine

/-- A pseudo-command (R114). A string is its bytes; the end of the list stands for a terminator (log 19). A float is its
bit pattern in FLOAT_FMT (log 20). -/
inductive Pseudo where
  | write (b : Byte)
  | txStr (s : List Byte)
  | txInt (v : Int)
  | txFlt (x : Nat)
  | txLine (s : List Byte)
deriving DecidableEq, Repr

/-- The operand lies in the pseudo-command's domain (R183, R185). -/
def Pseudo.wf (p : Params) : Pseudo → Bool
  | .write _ => true
  | .txStr _ => true
  | .txInt v => p.intBits.fits v
  | .txFlt x => p.floatFmt.fits x
  | .txLine _ => true

/-- TXSTR s: one TXB per byte, up to the first 0x00 (R181). -/
def strCommands (s : List Byte) : List Instr := (s.takeWhile (fun c => decide (c ≠ 0x00#8))).map Instr.txb

/-- The ASCII code of a decimal digit, 0x30 + d (R184). -/
def digitCode (d : Nat) : Byte := BitVec.ofNat 8 (0x30 + d % 10)

/-- The decimal digits of n, most significant first, for n < 10^fuel (R184). -/
def digitsFuel : Nat → Nat → List Byte
  | 0, _ => []
  | fuel + 1, n => if n < 10 then [digitCode n] else digitsFuel fuel (n / 10) ++ [digitCode n]

/-- The decimal digits of n, no leading zeros, "0" if n = 0 (R184, R186). -/
def digits (n : Nat) : List Byte := digitsFuel (n.log2 + 1) n

/-- `dec(v)` (R184). -/
def dec (v : Int) : List Byte := (if v < 0 then [0x2D#8] else []) ++ digits v.natAbs

/-- The sign bit of a float's bit pattern. PRESUMED: IEEE-754 (log 20). -/
def signBit (f : FloatFmt) (x : Nat) : Bool := decide (x / 2 ^ (f.expBits + f.fracBits) % 2 = 1)

/-- The exponent field. PRESUMED: IEEE-754 (log 20). -/
def expField (f : FloatFmt) (x : Nat) : Nat := x / 2 ^ f.fracBits % 2 ^ f.expBits

/-- The fraction field. PRESUMED: IEEE-754 (log 20). -/
def fracField (f : FloatFmt) (x : Nat) : Nat := x % 2 ^ f.fracBits

/-- Neither a NaN nor an infinity. PRESUMED: IEEE-754 (log 20). -/
def isFinite (f : FloatFmt) (x : Nat) : Bool := decide (expField f x ≠ 2 ^ f.expBits - 1)

/-- The significand, the leading bit included. PRESUMED: IEEE-754 (log 20). -/
def significand (f : FloatFmt) (x : Nat) : Nat :=
  if expField f x = 0 then fracField f x else 2 ^ f.fracBits + fracField f x

/-- The exponent e of a finite value significand · 2^e, plus the offset `scaleBias`. PRESUMED: IEEE-754 (log 20). -/
def biasedScale (f : FloatFmt) (x : Nat) : Nat := max (expField f x) 1

/-- The bias plus the fraction's width. PRESUMED: IEEE-754 (log 20). -/
def scaleBias (f : FloatFmt) : Nat := 2 ^ (f.expBits - 1) - 1 + f.fracBits

/-- |x|·10^5 of a finite x, as numerator and denominator. -/
def scaledMagnitude (f : FloatFmt) (x : Nat) : Nat × Nat :=
  if scaleBias f ≤ biasedScale f x then (significand f x * 10 ^ 5 * 2 ^ (biasedScale f x - scaleBias f), 1)
  else (significand f x * 10 ^ 5, 2 ^ (scaleBias f - biasedScale f x))

/-- The relation round5 on magnitudes: | |x|·10^5 − a | ≤ 1/2 (R186, 92_eei_decisions.md D24). -/
def Round5 (f : FloatFmt) (x a : Nat) : Prop :=
  (2 * ((scaledMagnitude f x).1 : Int) - 2 * (a * (scaledMagnitude f x).2 : Nat)).natAbs ≤ (scaledMagnitude f x).2

/-- A magnitude that round5 admits; at a tie the free value chooses (R186; log 18). -/
def round5 (f : FloatFmt) (x : Nat) : Nat :=
  let n := (scaledMagnitude f x).1
  let d := (scaledMagnitude f x).2
  if 2 * (n % d) < d then n / d
  else if 2 * (n % d) = d then (if Config.round5Tie f x then n / d + 1 else n / d)
  else n / d + 1

/-- Exactly five digits, with leading zeros (R186). -/
def digits5 (n : Nat) : List Byte :=
  [digitCode (n / 10000), digitCode (n / 1000), digitCode (n / 100), digitCode (n / 10), digitCode n]

/-- `fmt10_5` of a finite x whose rounded magnitude is a (R186): the sign bit gives the '-', right-justified to 10. -/
def fmtFinite (neg : Bool) (a : Nat) : List Byte :=
  let body := (if neg then [0x2D#8] else []) ++ digits (a / 100000) ++ [0x2E#8] ++ digits5 (a % 100000)
  List.replicate (10 - body.length) 0x20#8 ++ body

/-- `fmt10_5(x)` (R186). -/
def fmt10_5 (f : FloatFmt) (x : Nat) : List Byte :=
  if isFinite f x then fmtFinite (signBit f x) (round5 f x) else Config.fmtNonfinite f x

/-- The commands a pseudo-command expands into (R114). -/
def Pseudo.expand (p : Params) : Pseudo → List Instr
  | .write b => [.txb b]
  | .txStr s => strCommands s
  | .txInt v => strCommands (dec v)
  | .txFlt x => strCommands (fmt10_5 p.floatFmt x)
  | .txLine s => strCommands s ++ [.txb 0x0A#8]

/-- Every expansion the spec admits: round5 is a relation, so at a tie a TXFLT has two (R186). -/
def Pseudo.Expands (p : Params) : Pseudo → List Instr → Prop
  | .write b, cs => cs = [.txb b]
  | .txStr s, cs => cs = strCommands s
  | .txInt v, cs => cs = strCommands (dec v)
  | .txFlt x, cs =>
    if isFinite p.floatFmt x then
      ∃ a, Round5 p.floatFmt x a ∧ cs = strCommands (fmtFinite (signBit p.floatFmt x) a)
    else cs = strCommands (Config.fmtNonfinite p.floatFmt x)
  | .txLine s, cs => cs = strCommands s ++ [.txb 0x0A#8]

end Sys2Proof.Machine
end

