-- ==== Sys2Proof/Machine/Assembler.lean ====
section
/-! DEFINITION. The assembler syntax of spec/30_encoding.md R113, with the pseudo-commands of the assembler level (R100,
R114): one line of text to its command words. What the rules leave open (blanks, the letters of a label, `;` inside a
literal, the lines of pseudo-commands, which words `.word` may write) is a DESIGN CHOICE (log 21). -/

namespace Sys2Proof.Machine

/-- A blank: space, tab or carriage return. -/
def isBlank (c : Char) : Bool := c = ' ' || c = '\t' || c = '\r'

/-- A line without its comment: `;` starts one, but not inside the literal `';'` nor inside a string (R113; log 21). The
Bool says whether the text begins inside a string. -/
def dropComment : Bool → List Char → List Char
  | false, '\'' :: c :: '\'' :: rest => '\'' :: c :: '\'' :: dropComment false rest
  | false, ';' :: _ => []
  | inString, c :: rest => c :: dropComment (if c = '"' then !inString else inString) rest
  | _, [] => []

/-- The text without blanks at both ends. -/
def trim (cs : List Char) : List Char := ((cs.dropWhile isBlank).reverse.dropWhile isBlank).reverse

/-- Characters of a mnemonic or of a label's name. -/
def isNameChar (c : Char) : Bool := c.isAlphanum || c = '_' || c = '.'

/-- A hexadecimal digit's value. -/
def hexValue (c : Char) : Option Nat :=
  if c.isDigit then some (c.toNat - '0'.toNat)
  else if 'a' ≤ c ∧ c ≤ 'f' then some (c.toNat - 'a'.toNat + 10)
  else if 'A' ≤ c ∧ c ≤ 'F' then some (c.toNat - 'A'.toNat + 10)
  else none

/-- A number in the given base, one digit at least. -/
def numberIn (base : Nat) (cs : List Char) : Option Nat :=
  if cs = [] then none
  else cs.foldl (fun acc c => acc.bind fun n =>
    match hexValue c with
    | some d => if d < base then some (n * base + d) else none
    | none => none) (some 0)

/-- A decimal or `0x` hexadecimal number (R113). -/
def number : List Char → Option Nat
  | '0' :: 'x' :: rest => numberIn 16 rest
  | cs => numberIn 10 cs

/-- The ASCII code of a character (R113). -/
def asciiCode (c : Char) : Option Byte := if c.toNat < 128 then some (BitVec.ofNat 8 c.toNat) else none

/-- TXB's operand: a number 0..255 or a character literal standing for its ASCII code (R113). -/
def byteOperand : List Char → Option Byte
  | ['\'', c, '\''] => asciiCode c
  | cs => (number cs).bind fun n => if n < 256 then some (BitVec.ofNat 8 n) else none

/-- The codes of a string's characters up to its closing quote, with which the text ends. R114 gives no escapes, and
95_test_vectors.md V-STR3 writes "A\0B" for a string with a NUL: `\0` is the byte 0x00, and a backslash before anything else
stands for itself. DESIGN CHOICE (log 21). -/
def stringBody : List Char → Option (List Byte)
  | [] => none
  | '\\' :: '0' :: rest => (stringBody rest).map (0x00#8 :: ·)
  | c :: rest =>
    if c = '"' then (if rest = [] then some [] else none)
    else (asciiCode c).bind fun b => (stringBody rest).map (b :: ·)

/-- The operand of TXSTR and TXLINE, a string in double quotes (R114). -/
def stringOperand : List Char → Option (List Byte)
  | '"' :: rest => stringBody rest
  | _ => none

/-- The operand of TXINT, a number with an optional minus sign. DESIGN CHOICE (log 21). -/
def intOperand : List Char → Option Int
  | '-' :: rest => (number rest).map fun n => -(n : Int)
  | cs => (number cs).map fun n => (n : Int)

/-- `.word`'s operand, 0xhhhh (R113). -/
def wordOperand : List Char → Option Word
  | ['0', 'x', a, b, c, d] => (numberIn 16 [a, b, c, d]).map (BitVec.ofNat 16)
  | _ => none

/-- The word of a mnemonic, in lower case, and its operand (R113). R113 gives `.word` for a word that does not decode and
is silent on the others: `.word` writes any word here, DESIGN CHOICE (log 21). -/
def assembleCommand (mnemonic operand : List Char) : Option Word :=
  if mnemonic = ['t', 'x', 'b'] then (byteOperand operand).map fun b => encode (.txb b)
  else if mnemonic = ['.', 'w', 'o', 'r', 'd'] then wordOperand operand
  else if operand ≠ [] then none
  else if mnemonic = ['i', 'n', 'i', 't'] then some (encode .init)
  else if mnemonic = ['w', 'a', 'i', 't', 'q'] then some (encode .waitq)
  else if mnemonic = ['e', 'i'] then some (encode .ei)
  else if mnemonic = ['d', 'i'] then some (encode .di)
  else if mnemonic = ['r', 'd', 'n', 'b'] then some (encode .rdnb)
  else if mnemonic = ['r', 'd', 'b'] then some (encode .rdb)
  else if mnemonic = ['r', 'd', 'o', 'v', 'f'] then some (encode .rdovf)
  else none

/-- The pseudo-command of a mnemonic, in lower case, and its operand (R114); a float is given by its bit pattern. R113
speaks of one mnemonic of R103, R100 and 95_test_vectors.md P4 of pseudo-commands in assembler text: they are accepted
here, DESIGN CHOICE (log 21). -/
def assemblePseudo (mnemonic operand : List Char) : Option Pseudo :=
  if mnemonic = ['w', 'r', 'i', 't', 'e'] then (byteOperand operand).map .write
  else if mnemonic = ['t', 'x', 's', 't', 'r'] then (stringOperand operand).map .txStr
  else if mnemonic = ['t', 'x', 'i', 'n', 't'] then (intOperand operand).map .txInt
  else if mnemonic = ['t', 'x', 'f', 'l', 't'] then (number operand).map .txFlt
  else if mnemonic = ['t', 'x', 'l', 'i', 'n', 'e'] then (stringOperand operand).map .txLine
  else none

/-- The words of a mnemonic, in lower case, and its operand: one for a command, those of the expansion for a
pseudo-command whose operand is in its domain (R113, R114). -/
def assembleStatement (p : Params) (mnemonic operand : List Char) : Option (List Word) :=
  match assembleCommand mnemonic operand with
  | some w => some [w]
  | none => (assemblePseudo mnemonic operand).bind fun q => if q.wf p then some ((q.expand p).map encode) else none

/-- What stands after a label, or the whole text if it begins with none: a label is a name followed by `:` and has no
effect (R113). -/
def dropLabel (cs : List Char) : List Char :=
  match cs.takeWhile isNameChar, cs.dropWhile isNameChar with
  | _ :: _, ':' :: rest => trim rest
  | _, _ => cs

/-- The words of one line: none for an empty line, those of its command or pseudo-command otherwise; `none` where the line
is not of the syntax (R113, R114; log 21). -/
def assembleLine (p : Params) (line : List Char) : Option (List Word) :=
  let text := dropLabel (trim (dropComment false line))
  if text = [] then some []
  else assembleStatement p ((text.takeWhile isNameChar).map Char.toLower) (trim (text.dropWhile isNameChar))

/-- The words of a program, line by line. -/
def assemble (p : Params) : List (List Char) → Option (List Word)
  | [] => some []
  | line :: rest => (assembleLine p line).bind fun ws => (assemble p rest).map (ws ++ ·)

end Sys2Proof.Machine
end

