-- ==== Sys2Proof/Safety.lean ====
section
/-! DEFINITION. Runs, the observation of a run (spec/10_state.md R54), the invariant every step keeps, and the words in
which claims are stated. -/

namespace Sys2Proof.Machine

/-- n boundaries, stopping at a fault or a refusal. -/
def runSteps : Nat → State → Host.Outcome State Fault Refusal
  | 0, s => .next s
  | n + 1, s => andThen (step s) (runSteps n)

/-- The first n words of an infinite stream f. -/
def streamPrefix (f : Nat → Word) (n : Nat) : List Word := (List.range n).map f

/-- u is the state after n boundaries of the launch with the infinite stream f (60_exceptions.md R330: "any finite or
infinite list of words"): the run on a finite prefix of f reaches it with MAIN not past the prefix's end. The field that
would hold f is left empty (log 2). -/
def ReachesOnInfiniteStream (p : Params) (f : Nat → Word) (rx : List Level) (n : Nat) (u : State) : Prop :=
  ∃ len t, runSteps n (State.launch p (streamPrefix f len) rx) = .next t ∧ t.ms ≠ .done ∧ u = { t with stream := [] }

/-- MS = DONE and RXS = IDLE and PEND = 0 and FAULT = 0 (R54). -/
def atObservationPoint (s : State) : Bool :=
  decide (s.ms = .done) && decide (s.rxs = .idle) && !s.pend && decide (s.fault = 0x00#8)

/-- What the observation reads (R54). -/
structure Observation where
  out : List Word
  /-- tx(0), tx(1), …, the history of TXL. -/
  tx : List (Option Level)
  rb : List Byte
  w : BitVec 6
  r : BitVec 6
  occ : BitVec 7
  ovfCnt : Word
deriving DecidableEq, Repr

/-- What the observation reads in a state that meets R54's condition; a faulted state is never an observation point. That
the run's observation is the FIRST such state after a boundary is `observeRun`'s. -/
def observe (s : State) : Host.Outcome Observation Fault Refusal :=
  if s.fault ≠ 0x00#8 then .fault (.blockHalted s.fault)
  else if atObservationPoint s then
    .next { out := s.out, tx := s.txHist.reverse, rb := (List.range Config.capacity).map s.rb.read, w := s.w, r := s.r,
            occ := s.occ, ovfCnt := s.ovfCnt }
  else .refused .notAtObservationPoint

/-- The observation of the run from s, within n boundaries (R54): at "the first boundary, after B5", that meets the
condition, so at least one boundary runs. A halted run has none (R54), and one that has not got there within n is refused. -/
def observeRun : Nat → State → Host.Outcome Observation Fault Refusal
  | 0, _ => .refused .notAtObservationPoint
  | n + 1, s =>
    match step s with
    | .next t => if t.fault = 0x00#8 && !atObservationPoint t then observeRun n t else observe t
    | .fault r => .fault r
    | .refused r => .refused r

/-- ENV reads tx(t): refused while TX is undriven (92_eei_decisions.md D32) and before the tick has passed. -/
def readTx (s : State) (t : Nat) : Host.Outcome Level Fault Refusal :=
  if t < s.now then
    match txAt s t with
    | some l => .next l
    | none => .refused .txUndriven
  else .refused .txNotYet

/-- B5 of this boundary begins with the command i: nothing is entered in B4, MAIN is at a command, and its word decodes to
i. -/
def StartsCommand (s : State) (i : Instr) : Prop :=
  mainRuns (beforeMain s) = true ∧ (beforeMain s).ms = .atCmd ∧
    ∃ w, fetch (beforeMain s) = some w ∧ decodeWord w = .cmd i

/-- A TXB of b starts at the boundary s.now, whether B5 begins with it or reaches it after commands that took no time: the
boundary ends in s1 with TXS = busy(s.now, ~b, sie), where sie is the IE saved at entry (41_transmitter.md R170). -/
def TxbStarts (s s1 : State) (b : Byte) (sie : Bool) : Prop :=
  step s = .next s1 ∧ s1.txs = .busy s.now (~~~b) sie ∧
    ((∀ c i, s.txs ≠ .busy s.now c i) ∨ StartsCommand s (.txb b) ∧ (beforeMain s).line = .ready)

/-- The index equation and the bound of R49. -/
def RingOk (s : State) : Prop := s.occ.toNat ≤ 64 ∧ s.w.toNat = (s.r.toNat + s.occ.toNat) % 64

/-- The legal values of the status fields (R48), and what INIT leaves (40_timing_primitive.md R143): DLY in 1..255 and TX
driven exactly when LINE = READY, the comparator armed exactly when LINE = READY and no fault is recorded (D37; log 12),
PEND only when armed or halted. -/
def StatusOk (s : State) : Prop :=
  (s.line = .ready ↔ s.dly ≠ 0x00#8) ∧ (s.armed = true ↔ s.line = .ready ∧ s.fault = 0x00#8) ∧
    (s.txl ≠ none ↔ s.line = .ready) ∧ (s.fault = 0x00#8 → s.pend = true → s.armed = true) ∧ s.fault.toNat ≤ 4

/-- A transmission: MS = IN_TXB exactly while TXS is busy, and then IE = 0 (41_transmitter.md R171), the line is READY, no
fault is recorded, and the boundary lies in (ts, ts + 40]. -/
def TxOk (s : State) : Prop :=
  match s.txs with
  | .idle => s.ms ≠ .inTxb
  | .busy ts _ _ =>
    s.ms = .inTxb ∧ s.ie = false ∧ s.line = .ready ∧ s.fault = 0x00#8 ∧ ts < s.now ∧ s.now ≤ ts + 40

/-- MS = IN_WAITQ(te) for some te (R44). -/
def isWaiting (s : State) : Bool :=
  match s.ms with
  | .inWaitq _ => true
  | .atCmd => false
  | .inTxb => false
  | .inRdb _ => false
  | .done => false

/-- A reception: IE = 0 and RX_SIE = 1 (42_receiver.md R205), MAIN is between two commands (R203), and, unless the block
has halted, the boundary lies in (T0, T0 + o + 32 + RX_TAIL_Q]. -/
def RxOk (s : State) : Prop :=
  s.rxs = .sampling →
    s.ie = false ∧ s.rxSie = true ∧ s.txs = .idle ∧ isWaiting s = false ∧ s.t0 < s.now ∧
      (s.fault = 0x00#8 → s.armed = true ∧ s.now ≤ s.t0 + episodeTicks s.params)

/-- MAIN's sequencer (R44): what each value of MS says of CP, LINE and the time. -/
def MainOk (s : State) : Prop :=
  match s.ms with
  | .atCmd => s.cp ≤ s.stream.length
  | .inWaitq te => s.cp < s.stream.length ∧ s.line = .ready ∧ s.fault = 0x00#8 ∧ te = s.now
  | .inTxb => s.cp < s.stream.length
  | .inRdb te => s.cp < s.stream.length ∧ s.line = .ready ∧ te ≤ s.now
  | .done => s.cp = s.stream.length

/-- t_r is a boundary that has passed (R53), and the history of TXL has one level per tick (R54). -/
def TimeOk (s : State) : Prop := (∀ t, s.tr = some t → t < s.now) ∧ s.txHist.length = s.now

/-- The invariant of the block, between two boundaries. -/
def Inv (s : State) : Prop :=
  s.rb.wf = true ∧ RingOk s ∧ StatusOk s ∧ TxOk s ∧ RxOk s ∧ MainOk s ∧ TimeOk s

/-- The level of the receiver's (k + 1)-th sample, at T0 + o + 4·(k + 1) (42_receiver.md R207, R208), while TX keeps the level
it has now. -/
def sampleLevel (s : State) (k : Nat) : Level :=
  wired s.params.wiring s.txl (envLevel s (s.t0 + offsetTicks s.params.startOffset + 4 * (k + 1)))

/-- The number a list of ASCII decimal digits stands for (41_transmitter.md R184). -/
def decimalValue (ds : List Byte) : Nat := ds.foldl (fun acc c => acc * 10 + (c.toNat - 0x30)) 0

/-- What no command and no step of the block writes: the parameters, the stream and ENV's levels (00_scope.md R9,
20_memory.md R71, R83). -/
def SameLaunch (s t : State) : Prop := t.params = s.params ∧ t.stream = s.stream ∧ t.rxIn = s.rxIn

/-- Every byte of RB reads as before. -/
def SameRb (s t : State) : Prop := ∀ i : BitVec 6, memRead t i = memRead s i

/-- The receiver's state (10_state.md R43, R53) is as before. -/
def SameReceiver (s t : State) : Prop :=
  t.rxs = s.rxs ∧ t.t0 = s.t0 ∧ t.acc = s.acc ∧ t.rxSie = s.rxSie ∧ t.tr = s.tr

/-- The ring buffer's indices, occupancy and counter are as before. -/
def SameRing (s t : State) : Prop := t.w = s.w ∧ t.r = s.r ∧ t.occ = s.occ ∧ t.ovfCnt = s.ovfCnt

/-- The line status that only INIT writes (R48) is as before. -/
def SameLine (s t : State) : Prop := t.line = s.line ∧ t.dly = s.dly ∧ t.armed = s.armed

end Sys2Proof.Machine
end

