-- ==== Sys2Proof/Certificates/Slice0/Obligations.lean ====
section
/-! DEFINITION. The statements for the provers, from the numbered rules of spec/. -/

open Sys2Proof Sys2Proof.Machine

/-- Each word of R115, written out, decodes to the command it stands for, and the assembler writes each example line of
R115 as that word; 0x0000, 0x0101, 0x2002, 0x2080, 0x2101, 0x1100 and 0xFFFF are illegal. (States R115.) -/
def Obligations.CommandWordsDecode : Prop :=
  decodeWord 0x0100#16 = .cmd .init ∧ decodeWord 0x0300#16 = .cmd .ei ∧ decodeWord 0x1041#16 = .cmd (.txb 0x41#8) ∧
  decodeWord 0x1000#16 = .cmd (.txb 0x00#8) ∧ decodeWord 0x10FF#16 = .cmd (.txb 0xFF#8) ∧
  decodeWord 0x2000#16 = .cmd .rdnb ∧ decodeWord 0x2001#16 = .cmd .rdb ∧ decodeWord 0x2100#16 = .cmd .rdovf ∧
  decodeWord 0x0200#16 = .cmd .waitq ∧ decodeWord 0x0400#16 = .cmd .di ∧
  assembleLine Params.default ['I', 'N', 'I', 'T'] = some [0x0100#16] ∧
  assembleLine Params.default ['E', 'I'] = some [0x0300#16] ∧
  assembleLine Params.default ['T', 'X', 'B', ' ', '0', 'x', '4', '1'] = some [0x1041#16] ∧
  assembleLine Params.default ['T', 'X', 'B', ' ', '\'', 'A', '\''] = some [0x1041#16] ∧
  assembleLine Params.default ['T', 'X', 'B', ' ', '0'] = some [0x1000#16] ∧
  assembleLine Params.default ['T', 'X', 'B', ' ', '0', 'x', 'F', 'F'] = some [0x10FF#16] ∧
  assembleLine Params.default ['R', 'D', 'N', 'B'] = some [0x2000#16] ∧
  assembleLine Params.default ['R', 'D', 'B'] = some [0x2001#16] ∧
  assembleLine Params.default ['R', 'D', 'O', 'V', 'F'] = some [0x2100#16] ∧
  assembleLine Params.default ['W', 'A', 'I', 'T', 'Q'] = some [0x0200#16] ∧
  assembleLine Params.default ['D', 'I'] = some [0x0400#16] ∧
  decodeWord 0x0000#16 = .illegal ∧ decodeWord 0x0101#16 = .illegal ∧ decodeWord 0x2002#16 = .illegal ∧
  decodeWord 0x2080#16 = .illegal ∧ decodeWord 0x2101#16 = .illegal ∧ decodeWord 0x1100#16 = .illegal ∧
  decodeWord 0xFFFF#16 = .illegal

/-- For every word w and every command i: w decodes to i if and only if w is encode i; and the bytes of encode i, OP
first, followed by any bytes, decode to i and leave those bytes. (Derived from spec/30_encoding.md section 2,
spec/20_memory.md section 2.) -/
def Obligations.DecodeInvertsEncode : Prop :=
  (∀ (w : Word) (i : Instr), decodeWord w = .cmd i ↔ w = encode i) ∧
  ∀ (i : Instr) (rest : List Byte), decodeBytes (encodeBytes i ++ rest) = .cmd i rest

/-- The rows are those of R103; a word selects a row if and only if it decodes to a command of that row; two rows that
select one word are the same row. (States R103.) -/
def Obligations.RowsSelectTheDecodedCommand : Prop :=
  opcodeRows =
    [⟨"INIT", 0x0100#16, 0xFFFF#16⟩, ⟨"WAITQ", 0x0200#16, 0xFFFF#16⟩, ⟨"EI", 0x0300#16, 0xFFFF#16⟩,
      ⟨"DI", 0x0400#16, 0xFFFF#16⟩, ⟨"TXB", 0x1000#16, 0xFF00#16⟩, ⟨"RDNB", 0x2000#16, 0xFFFF#16⟩,
      ⟨"RDB", 0x2001#16, 0xFFFF#16⟩, ⟨"RDOVF", 0x2100#16, 0xFFFF#16⟩] ∧
  (∀ w : Word, ∀ row ∈ opcodeRows, w &&& row.mask = row.pattern ↔ ∃ i, decodeWord w = .cmd i ∧ i.row = row) ∧
  ∀ w : Word, ∀ row ∈ opcodeRows, ∀ row' ∈ opcodeRows,
    w &&& row.mask = row.pattern → w &&& row'.mask = row'.pattern → row = row'

/-- The set of 16-bit words that do not decode to Illegal has 263 members. (Derived from spec/30_encoding.md section 2
(R106).) -/
def Obligations.LegalWordsAre263 : Prop :=
  {w : Word | decodeWord w ≠ .illegal}.ncard = 263

/-- Each command is decoded from exactly the OP and ARG that R105 lists. Executing an illegal word, wherever in B5 it is
reached, writes FAULT = 0x01 (if it was 0) and nothing else; when B5 begins at one, the boundary ends with everything
but time and TX's history as B1 to B4 left it (CP and OUT among it); of ARMED after the boundary this says nothing.
(States R105.) -/
def Obligations.DecodingAndTheIllegalFault : Prop :=
  (∀ w : Word,
    (decodeWord w = .cmd .init ↔ opField w = 0x01#8 ∧ argField w = 0x00#8) ∧
    (decodeWord w = .cmd .waitq ↔ opField w = 0x02#8 ∧ argField w = 0x00#8) ∧
    (decodeWord w = .cmd .ei ↔ opField w = 0x03#8 ∧ argField w = 0x00#8) ∧
    (decodeWord w = .cmd .di ↔ opField w = 0x04#8 ∧ argField w = 0x00#8) ∧
    (∀ b, decodeWord w = .cmd (.txb b) ↔ opField w = 0x10#8 ∧ argField w = b) ∧
    (decodeWord w = .cmd .rdnb ↔ opField w = 0x20#8 ∧ argField w = 0x00#8) ∧
    (decodeWord w = .cmd .rdb ↔ opField w = 0x20#8 ∧ argField w = 0x01#8) ∧
    (decodeWord w = .cmd .rdovf ↔ opField w = 0x21#8 ∧ argField w = 0x00#8)) ∧
  (∀ (u : State) (w : Word), fetch u = some w → decodeWord w = .illegal →
    fetchExec u = .next { u with fault := if u.fault = 0x00#8 then 0x01#8 else u.fault }) ∧
  ∀ (s : State) (w : Word), mainRuns (beforeMain s) = true → (beforeMain s).ms = .atCmd →
    fetch (beforeMain s) = some w → decodeWord w = .illegal →
    fetchExec (beforeMain s) = .next { beforeMain s with fault := 0x01#8 } ∧
    ∃ t, step s = .next t ∧ t = { beforeMain s with
      fault := 0x01#8, now := (beforeMain s).now + 1, txHist := (beforeMain s).txl :: (beforeMain s).txHist,
      armed := t.armed }

/-- If B5 begins with command i, step is exec i on the state after B1 to B4, then, if it completed in zero time, B4 again
and the rest of B5's loop, then the edge rule and B6; and from every state with FAULT = 0 a step is B5's loop and
these. At every evaluation of the loop where MAIN runs: past the end of the stream MS <- DONE; a word that decodes to
i is exec i, then B4 and the loop again if it completed in zero time; an illegal word raises FAULT = 0x01 and ends the
loop; a due re-poll of RDB is exec RDB, and goes on likewise; a re-poll not yet due, a WAITQ, a TXB and DONE end the
loop, as does a state where MAIN may not run. (Not R52's words: the bound on the loop is log 1; that afterMain treats
after B5 an edge that the block's own start bit makes on a shared wire is log 10, DEDUCED; what it leaves of ARMED
after a fault is log 12.) (Derived from spec/10_state.md section 6 (R52), spec/10_state.md section 2 (R32),
spec/92_eei_decisions.md (D38).) -/
def Obligations.StepRunsDecodedCommand : Prop :=
  (∀ (s : State) (i : Instr), StartsCommand s i →
    step s = andThen (exec i (beforeMain s)) fun t =>
      andThen (if completedNow t then mainLoop (mainFuel (beforeMain s) - 1) (interruptEntry t) else .next t) fun u =>
        .next (afterMain (beforeEdge s) u)) ∧
  (∀ s : State, s.fault = 0x00#8 →
    step s = andThen (mainLoop (mainFuel (beforeMain s)) (beforeMain s)) fun u => .next (afterMain (beforeEdge s) u)) ∧
  (∀ (n : Nat) (u : State), mainRuns u = true → u.ms = .atCmd →
    (u.stream.length ≤ u.cp → mainLoop (n + 1) u = .next { u with ms := .done }) ∧
    (∀ w i, fetch u = some w → decodeWord w = .cmd i →
      mainLoop (n + 1) u = andThen (exec i u) fun t =>
        if completedNow t then mainLoop n (interruptEntry t) else .next t) ∧
    (∀ w, fetch u = some w → decodeWord w = .illegal → mainLoop (n + 1) u = .next { u with fault := 0x01#8 })) ∧
  (∀ (n te : Nat) (u : State), mainRuns u = true → u.ms = .inRdb te → te ≤ u.now →
    mainLoop (n + 1) u = andThen (exec .rdb u) fun t =>
      if completedNow t then mainLoop n (interruptEntry t) else .next t) ∧
  ∀ (n : Nat) (u : State),
    mainRuns u = false ∨ u.ms = .inTxb ∨ u.ms = .done ∨ isWaiting u = true ∨ (∃ te, u.ms = .inRdb te ∧ u.now < te) →
    mainLoop n u = .next u

/-- If FAULT = 0, RXS = IDLE, MS = AT_CMD, PEND = 0, no edge is detected, and the word at CP decodes to i, then B1 to B4
change nothing but forget t_r, and B5 begins with i. (Derived from spec/10_state.md section 6 (R52), spec/10_state.md
section 6 (R53).) -/
def Obligations.QuietBoundaryStartsTheCommand : Prop :=
  ∀ (s : State) (w : Word) (i : Instr), s.fault = 0x00#8 → s.rxs = .idle → s.ms = .atCmd → s.pend = false →
    (s.armed && edgeNow s) = false → s.stream[s.cp]? = some w → decodeWord w = .cmd i →
    beforeMain s = { s with tr := none } ∧ StartsCommand s i

/-- From every state, running B5's loop for any number of evaluations at or above stream length - CP + 2 answers what that
many evaluations answer (the bound is the model's, log 1). (Derived from spec/10_state.md section 6 (R52).) -/
def Obligations.LoopHasEnoughFuel : Prop :=
  ∀ (s : State) (n : Nat), s.stream.length - s.cp + 2 ≤ n → mainLoop n s = mainLoop (mainFuel s) s

/-- For every state, whose stream is a finite list, step answers a next state. (The model's choices: State holds finite
streams, and an infinite stream of zero-time commands, whose boundary never ends, is not covered, log 2; a fault of
the block is a next state with FAULT written, log 13.) (Derived from spec/10_state.md section 6 (R51, R52),
spec/60_exceptions.md section 1 (R302).) -/
def Obligations.StepAlwaysAnswersNext : Prop :=
  ∀ s : State, ∃ t, step s = .next t

/-- For every choice of parameters, stream and RX levels: now, LINE, DLY, IE, ARMED, PEND, TXL, TXS, RXS, W, R, OCC,
OVF_CNT, FAULT, MS, CP and OUT have R50's values. (T0, ACC, RX_SIE and the bytes of RB are unspecified there: of the
first three nothing is claimed, of RB see ResetBytesAreFreeValues.) (States R50.) -/
def Obligations.ResetLeavesTheTableValues : Prop :=
  ∀ (p : Params) (ws : List Word) (rx : List Level), let s := State.launch p ws rx
    s.now = 0 ∧ s.line = .uninit ∧ s.dly = 0x00#8 ∧ s.ie = false ∧ s.armed = false ∧ s.pend = false ∧ s.txl = none ∧
    s.txs = .idle ∧ s.rxs = .idle ∧ s.w = 0#6 ∧ s.r = 0#6 ∧
    s.occ = 0#7 ∧ s.ovfCnt = 0x0000#16 ∧ s.fault = 0x00#8 ∧ s.ms = (if ws = [] then .done else .atCmd) ∧ s.cp = 0 ∧
    s.out = []

/-- For every choice of parameters, stream and RX levels, Inv holds of the state after reset; so it does of State.reset.
(Derived from spec/10_state.md section 5 (R50).) -/
def Obligations.ResetMeetsTheInvariant : Prop :=
  (∀ (p : Params) (ws : List Word) (rx : List Level), Inv (State.launch p ws rx)) ∧ Inv State.reset

/-- From every state that meets Inv, the next state meets Inv: RB in canonical form (the model's, log 7), 0 <= OCC <= 64
and W = (R + OCC) mod 64 (R49 says so under drop_oldest and drop_newest; under legacy_fault it is derived from R241),
the legal values of LINE, DLY, TXL, PEND and FAULT, ARMED = 1 exactly where LINE = READY and FAULT = 0 (that a fault
ends it is DEDUCED, log 12), IE = 0 with the right timing in a transmission and in a reception, what each MS says of
CP and LINE, and the clocks. (Derived from spec/10_state.md section 5 (R48, R49), spec/43_ring_buffer.md section 1
(R240, R241), spec/40_timing_primitive.md section 2 (R143), spec/41_transmitter.md section 1 (R170, R171),
spec/42_receiver.md section 1 (R203, R205), spec/92_eei_decisions.md (D37).) -/
def Obligations.EveryStepKeepsTheInvariant : Prop :=
  ∀ s t : State, Inv s → step s = .next t → Inv t

/-- INIT answers next: on a READY line FAULT <- 0x03 (if it was 0) and nothing else; otherwise, with q = CLK_HZ div BAUD
and n = (q - 39) div 12, a valid configuration writes DLY = n, LINE, ARMED, PEND, TXL = H, W = R = OCC = 0, OVF_CNT =
0, appends 0x0000 and completes, and an invalid one writes DLY = 0, LINE = FAILED, appends 0x0001 and completes.
(States R143.) -/
def Obligations.InitResult : Prop :=
  ∀ (s : State) (q n : Nat), q = s.params.clkHz / s.params.baud → n = (q - 39) / 12 →
    exec .init s = .next (
      if s.line = .ready then { s with fault := if s.fault = 0x00#8 then 0x03#8 else s.fault }
      else if 0 < s.params.baud ∧ 39 ≤ q ∧ 1 ≤ n ∧ n ≤ 255 then
        { s with
          dly := BitVec.ofNat 8 n, line := .ready, armed := true, pend := false, txl := some .H, w := 0#6, r := 0#6,
          occ := 0#7, ovfCnt := 0x0000#16, out := s.out ++ [0x0000#16], cp := s.cp + 1, ms := .atCmd }
      else
        { s with dly := 0x00#8, line := .failed, out := s.out ++ [0x0001#16], cp := s.cp + 1, ms := .atCmd })

/-- For BAUD > 0: a delay count exists iff 51 <= q <= 3110; for q >= 39 the floor of the real formula equals (q - 39) div
12; and the delay count is n iff the formula gives n in 1..255 - real division with floor, real division truncated
toward zero, integer division with floor, integer division truncated alike - so every negative or zero intermediate is
invalid under each. (States R144.) -/
def Obligations.ValidityTestOfTheDelayCount : Prop :=
  (∀ clk baud : Nat, 0 < baud →
    ((∃ n, delayCount clk baud = some n) ↔ 51 ≤ clk / baud ∧ clk / baud ≤ 3110)) ∧
  (∀ clk baud : Nat, 0 < baud → 39 ≤ clk / baud →
    ⌊((clk : ℚ) / (baud : ℚ) - 39) / 12⌋ = (((clk / baud - 39) / 12 : Nat) : ℤ)) ∧
  ∀ (clk baud : Nat) (n : Byte) (y : ℚ) (x : ℤ), 0 < baud → y = ((clk : ℚ) / (baud : ℚ) - 39) / 12 →
    (x = ⌊y⌋ ∨ x = (if 0 ≤ y then ⌊y⌋ else ⌈y⌉) ∨ x = Int.fdiv ((clk / baud : Nat) - 39) 12 ∨
      x = Int.tdiv ((clk / baud : Nat) - 39) 12) →
    (delayCount clk baud = some n ↔ 1 ≤ x ∧ x ≤ 255 ∧ (n.toNat : ℤ) = x)

/-- On a READY line WAITQ sets MS = IN_WAITQ(t + 1) and nothing else; otherwise FAULT <- 0x02 (if it was 0) and nothing
else. B2 completes it at boundary te and not before. From a boundary with IE = 0 at k + 1 WAITQs, after j + 1
boundaries (j <= k) the first j have completed and the next occupies the tick that ends now. (States R146.) -/
def Obligations.WaitqTakesOneTick : Prop :=
  (∀ s : State, exec .waitq s = .next (
    if s.line = .ready then { s with ms := .inWaitq (s.now + 1) }
    else { s with fault := if s.fault = 0x00#8 then 0x02#8 else s.fault })) ∧
  (∀ (s : State) (te : Nat), s.fault = 0x00#8 → s.ms = .inWaitq te →
    mainProgress s = if s.now = te then { s with cp := s.cp + 1, ms := .atCmd } else s) ∧
  ∀ (s : State) (k : Nat), s.fault = 0x00#8 → s.rxs = .idle → s.ms = .atCmd → s.ie = false → s.line = .ready →
    (∀ j ≤ k, s.stream[s.cp + j]? = some 0x0200#16) →
    ∀ j ≤ k, ∃ t, runSteps (j + 1) s = .next t ∧ t.now = s.now + j + 1 ∧ t.cp = s.cp + j ∧ t.ms = .inWaitq t.now ∧
      t.out = s.out

/-- EI answers next with IE = 1 and CP + 1, nothing else changed, whatever LINE is. If B5 begins with EI while an edge is
pending and IE = 0, ISR_LAT_MAX = 0 and RX reads L, the boundary ends in SAMPLING with T0 = this boundary, PEND = 0
and CP one further. If RX reads H instead, EI completes and the B4 evaluation after it is a spurious entry: PEND = 0,
IE = 1 again, RX_SIE = 1, nothing else changed (t_r apart, of which EntryForgetsItsWait speaks), and B5 goes on.
(States R280.) -/
def Obligations.EiSetsIeAndLetsAPendingEdgeIn : Prop :=
  (∀ s : State, exec .ei s = .next { s with ie := true, cp := s.cp + 1, ms := .atCmd }) ∧
  (∀ s : State, StartsCommand s .ei → (beforeMain s).ie = false → (beforeMain s).pend = true →
    s.params.isrLatMax = 0 → rxNow (beforeMain s) = .L →
    ∃ t, step s = .next t ∧ t.rxs = .sampling ∧ t.t0 = s.now ∧ t.pend = false ∧ t.ie = false ∧
      t.cp = (beforeMain s).cp + 1) ∧
  ∀ s : State, StartsCommand s .ei → (beforeMain s).ie = false → (beforeMain s).pend = true →
    s.params.isrLatMax = 0 → rxNow (beforeMain s) = .H →
    ∃ u, exec .ei (beforeMain s) = .next u ∧ completedNow u = true ∧ mainRuns (interruptEntry u) = true ∧
      interruptEntry u = { beforeMain s with
        ie := true, pend := false, rxSie := true, tr := (interruptEntry u).tr, cp := (beforeMain s).cp + 1, ms := .atCmd }

/-- DI answers next with IE = 0 and CP + 1, nothing else changed, whatever LINE is. (States R281.) -/
def Obligations.DiClearsIe : Prop :=
  ∀ s : State, exec .di s = .next { s with ie := false, cp := s.cp + 1, ms := .atCmd }

/-- On a READY line TXB b writes IE = 0, TXL = L, TXS = busy(now, ~b, the old IE) and MS = IN_TXB, nothing else; otherwise
FAULT <- 0x02 (if it was 0) and nothing else, IE unchanged. (Derived from spec/41_transmitter.md section 1 (R170).) -/
def Obligations.TxbEntry : Prop :=
  ∀ (s : State) (b : Byte), exec (.txb b) s = .next (
    if s.line = .ready then
      { s with ie := false, txl := some .L, txs := .busy s.now (~~~b) s.ie, ms := .inTxb }
    else { s with fault := if s.fault = 0x00#8 then 0x02#8 else s.fault })

/-- Where B5 begins with TXB b on a READY line, a TXB of b starts at this boundary. Whenever a TXB of b starts at boundary
ts, be it after commands that took no time: for every k < 40 the run to boundary ts + k exists and tx(ts + k) =
frame(b, k); tx(ts + 40) = H unless a TXB starts there; and a boundary between two idle transmitter states with TX at
H leaves TX at H. (States R173.) -/
def Obligations.TxbWaveform : Prop :=
  (∀ (s : State) (b : Byte), StartsCommand s (.txb b) → (beforeMain s).line = .ready →
    ∃ s1, TxbStarts s s1 b (beforeMain s).ie) ∧
  (∀ (s s1 : State) (b : Byte) (sie : Bool), TxbStarts s s1 b sie →
    (∀ k < 40, ∃ t, runSteps k s1 = .next t ∧ txAt t (s.now + k) = some (frame b k)) ∧
    ∃ t, runSteps 40 s1 = .next t ∧ (t.txs = .idle → txAt t (s.now + 40) = some .H)) ∧
  ∀ s t : State, s.txs = .idle → s.txl = some .H → step s = .next t → t.txs = .idle →
    t.txl = some .H ∧ txAt t s.now = some .H

/-- Where B5 begins with TXB b on a READY line, a TXB of b starts at this boundary with the IE that held, CP and OUT as
before. Whenever a TXB starts at boundary ts, be it after commands that took no time, with sie the saved IE: after the
boundaries ts to ts + 39 IE = 0, RXS = IDLE and MS = IN_TXB; and at boundary ts + 40 B2 sets IE = sie, with TX at H,
TXS idle, CP one further and no result. On a line that is not READY neither IE nor TXS changes. (States R171, R174.) -/
def Obligations.TxbAtomicSection : Prop :=
  (∀ (s : State) (b : Byte), StartsCommand s (.txb b) → (beforeMain s).line = .ready →
    ∃ s1, TxbStarts s s1 b (beforeMain s).ie ∧ s1.cp = (beforeMain s).cp ∧ s1.out = (beforeMain s).out) ∧
  (∀ (s s1 : State) (b : Byte) (sie : Bool), TxbStarts s s1 b sie →
    (∀ k < 40, ∃ t, runSteps k s1 = .next t ∧ t.ie = false ∧ t.rxs = .idle ∧ t.ms = .inTxb) ∧
    ∃ t, runSteps 39 s1 = .next t ∧ t.now = s.now + 40 ∧ (beforeEdge t).ie = sie ∧ (beforeEdge t).txl = some .H ∧
      (beforeEdge t).txs = .idle ∧ (beforeEdge t).ms = .atCmd ∧ (beforeEdge t).cp = s1.cp + 1 ∧
      (beforeEdge t).out = s1.out) ∧
  ∀ (s t : State) (b : Byte), s.line ≠ .ready → exec (.txb b) s = .next t → t.ie = s.ie ∧ t.txs = s.txs

/-- On a READY line RDNB completes at once: with OCC = 0 it appends 0xFFFF and changes nothing else; with OCC > 0 it
appends the byte at R zero-extended, R <- R + 1 mod 64, OCC <- OCC - 1. Otherwise FAULT <- 0x02 (if it was 0) and
nothing else. (States R250.) -/
def Obligations.RdnbResult : Prop :=
  ∀ s : State, exec .rdnb s = .next (
    if s.line = .ready then
      if s.occ = 0#7 then { s with out := s.out ++ [0xFFFF#16], cp := s.cp + 1, ms := .atCmd }
      else
        { s with
          r := s.r + 1#6, occ := s.occ - 1#7, out := s.out ++ [(memRead s s.r).zeroExtend 16], cp := s.cp + 1,
          ms := .atCmd }
    else { s with fault := if s.fault = 0x00#8 then 0x02#8 else s.fault })

/-- If this is a re-poll or LINE = READY: with OCC > 0 RDB pops as RDNB does and completes; with OCC = 0 it sets MS =
IN_RDB(now + 1) and changes nothing else. At a first evaluation on a line that is not READY, FAULT <- 0x02 (if it was
0) and nothing else. (States R252.) -/
def Obligations.RdbResult : Prop :=
  ∀ s : State,
    (s.line = .ready ∨ (∃ te, s.ms = .inRdb te) → exec .rdb s = .next (
      if s.occ = 0#7 then { s with ms := .inRdb (s.now + 1) }
      else
        { s with
          r := s.r + 1#6, occ := s.occ - 1#7, out := s.out ++ [(memRead s s.r).zeroExtend 16], cp := s.cp + 1,
          ms := .atCmd })) ∧
    (s.line ≠ .ready → (∀ te, s.ms ≠ .inRdb te) →
      exec .rdb s = .next { s with fault := if s.fault = 0x00#8 then 0x02#8 else s.fault })

/-- On a READY line RDOVF appends OVF_CNT, completes, and changes nothing else; otherwise FAULT <- 0x02 (if it was 0) and
nothing else. (States R262.) -/
def Obligations.RdovfResult : Prop :=
  ∀ s : State, exec .rdovf s = .next (
    if s.line = .ready then { s with out := s.out ++ [s.ovfCnt], cp := s.cp + 1, ms := .atCmd }
    else { s with fault := if s.fault = 0x00#8 then 0x02#8 else s.fault })

/-- For every state with LINE not READY: each of the five answers next with FAULT = 0x02 (if it was 0) and nothing else
changed; for RDB, at a first evaluation. (States R147.) -/
def Obligations.NotReadyLineFaults : Prop :=
  ∀ (s : State) (i : Instr), s.line ≠ .ready →
    (i = .waitq ∨ (∃ b, i = .txb b) ∨ i = .rdnb ∨ i = .rdovf ∨ (i = .rdb ∧ ∀ te, s.ms ≠ .inRdb te)) →
    exec i s = .next { s with fault := if s.fault = 0x00#8 then 0x02#8 else s.fault }

/-- A byte result is at most 0x00FF, so never 0xFFFF; what an RDB, or an RDNB on a buffer that is not empty, appends is
never 0xFFFF; RDNB on an empty buffer of a READY line appends 0xFFFF. (States R255.) -/
def Obligations.SentinelIsNoByteResult : Prop :=
  (∀ b : Byte, (byteResult b).toNat ≤ 0x00FF ∧ byteResult b ≠ 0xFFFF#16) ∧
  (∀ s t : State, exec .rdb s = .next t → 0xFFFF#16 ∉ t.out.drop s.out.length) ∧
  (∀ s t : State, s.occ ≠ 0#7 → exec .rdnb s = .next t → 0xFFFF#16 ∉ t.out.drop s.out.length) ∧
  ∀ s : State, s.line = .ready → s.occ = 0#7 → ∃ t, exec .rdnb s = .next t ∧ t.out = s.out ++ [0xFFFF#16]

/-- With OCC < 64, PUSH(b) makes RB[W] read b and every other byte as before, W <- W + 1 mod 64, OCC <- OCC + 1, and
changes nothing else. (States R240.) -/
def Obligations.PushAppendsAByte : Prop :=
  ∀ (s : State) (b : Byte), s.occ < 64#7 →
    push b s = { s with rb := (push b s).rb, w := s.w + 1#6, occ := s.occ + 1#7 } ∧
    (push b s).occ.toNat = s.occ.toNat + 1 ∧ (push b s).w.toNat = (s.w.toNat + 1) % 64 ∧
    memRead (push b s) s.w = b ∧ ∀ i, i ≠ s.w → memRead (push b s) i = memRead s i

/-- With OCC = 64: drop_oldest writes b at W, advances W and R and counts, and where the index equation of R49 holds W =
R, so b overwrites the oldest unread byte RB[R]; drop_newest only counts; legacy_fault only raises 0x04 (if FAULT was
0). The count saturates at 0xFFFF. (States R241.) -/
def Obligations.PushIntoAFullBuffer : Prop :=
  ∀ (s : State) (b : Byte), s.occ = 64#7 →
    (s.params.overflow = .dropOldest →
      push b s = { s with
        rb := (push b s).rb, w := s.w + 1#6, r := s.r + 1#6,
        ovfCnt := if s.ovfCnt = 0xFFFF#16 then 0xFFFF#16 else s.ovfCnt + 1#16 } ∧
      memRead (push b s) s.w = b ∧ (∀ i, i ≠ s.w → memRead (push b s) i = memRead s i) ∧
      (RingOk s → s.w = s.r ∧ memRead (push b s) s.r = b)) ∧
    (s.params.overflow = .dropNewest →
      push b s = { s with ovfCnt := if s.ovfCnt = 0xFFFF#16 then 0xFFFF#16 else s.ovfCnt + 1#16 }) ∧
    (s.params.overflow = .legacyFault →
      push b s = { s with fault := if s.fault = 0x00#8 then 0x04#8 else s.fault })

/-- Where the index equation of R49 holds, the unread bytes are OCC many; PUSH appends to them (a full buffer: loses the
oldest and appends, or stays); and a pop of a buffer that is not empty takes the first of them as the result, zero-
extended, and leaves the others. (Derived from spec/43_ring_buffer.md section 2 (R251), spec/20_memory.md section 5
(R80).) -/
def Obligations.BufferIsAFifoQueue : Prop :=
  ∀ s : State, RingOk s →
    (unread s).length = s.occ.toNat ∧
    (∀ b, s.occ.toNat < 64 → unread (push b s) = unread s ++ [b]) ∧
    (∀ b, s.occ.toNat = 64 → s.params.overflow = .dropOldest → unread (push b s) = (unread s).tail ++ [b]) ∧
    (∀ b, s.occ.toNat = 64 → s.params.overflow ≠ .dropOldest → unread (push b s) = unread s) ∧
    (s.occ ≠ 0#7 → ∃ b rest, unread s = b :: rest ∧ unread (popResult s) = rest ∧
      (popResult s).out = s.out ++ [b.zeroExtend 16])

/-- If a byte of RB reads otherwise after a boundary, it is the one at W, and at this boundary the receiver was SAMPLING,
not halted, and at T0 + o + 32 + RX_TAIL_Q. If W changes, it is at such a boundary or INIT has made the line READY.
(Derived from spec/20_memory.md section 1 (R70), spec/43_ring_buffer.md section 1 (R242).) -/
def Obligations.RbIsWrittenOnlyByAPush : Prop :=
  ∀ s t : State, step s = .next t →
    (∀ i, memRead t i ≠ memRead s i →
      i = s.w ∧ s.fault = 0x00#8 ∧ s.rxs = .sampling ∧ s.now = s.t0 + episodeTicks s.params) ∧
    (t.w ≠ s.w → (s.fault = 0x00#8 ∧ s.rxs = .sampling ∧ s.now = s.t0 + episodeTicks s.params) ∨
      (s.line ≠ .ready ∧ t.line = .ready ∧ t.w = 0#6))

/-- With ARMED = 0 or without an edge B3 changes nothing. With an edge: IE = 1 sets PEND; IE = 0 does nothing under drop,
sets PEND under latch, and under draw sets PEND or leaves it (and counts the draw, the model's own counter, log 6).
Nothing else changes. (States R201.) -/
def Obligations.EdgeDetectionSetsPend : Prop :=
  ∀ s : State,
    ((s.armed = false ∨ edgeNow s = false) → detectEdge s = s) ∧
    (s.armed = true → edgeNow s = true →
      (s.ie = true → detectEdge s = { s with pend := true }) ∧
      (s.ie = false → s.params.maskedEdge = .drop → detectEdge s = s) ∧
      (s.ie = false → s.params.maskedEdge = .latch → detectEdge s = { s with pend := true }) ∧
      (s.ie = false → s.params.maskedEdge = .draw →
        detectEdge s = { s with pend := true, draws := s.draws + 1 } ∨
        detectEdge s = { s with draws := s.draws + 1 })) ∧
    (edgeNow s = true ↔ 1 ≤ s.now ∧ rxBefore s = .H ∧ rxNow s = .L)

/-- An entry with RX at L writes PEND = 0, RX_SIE = IE, IE = 0, RXS = SAMPLING, T0 = now, ACC = 0; with RX at H it writes
PEND = 0 and RX_SIE = IE and leaves IE and RXS. Nothing else changes, t_r apart (of which EntryForgetsItsWait speaks):
OCC, OVF_CNT, OUT and FAULT are as before. (States R205, R206.) -/
def Obligations.InterruptEntrySavesIe : Prop :=
  ∀ s : State,
    (rxNow s = .L → enterReceiver s = { s with
      pend := false, rxSie := s.ie, ie := false, rxs := .sampling, t0 := s.now, acc := 0x00#8,
      tr := (enterReceiver s).tr }) ∧
    (rxNow s = .H → s.rxs = .idle → enterReceiver s = { s with
      pend := false, rxSie := s.ie, tr := (enterReceiver s).tr })

/-- With FAULT = 0: where RXS = IDLE, PEND = 1 and IE = 1 fails, B4 only forgets t_r; where it holds, t_r is kept or is
now; at or past t_r + ISR_LAT_MAX it enters; before, it enters or waits (the draw is counted in the model's own
counter, log 6). With ISR_LAT_MAX = 0 and t_r not in the future it enters. With FAULT not 0 it does nothing. (States
R53.) -/
def Obligations.EntryIsForcedWithinTheLatencyBound : Prop :=
  ∀ s : State,
    (s.fault ≠ 0x00#8 → interruptEntry s = s) ∧
    (s.fault = 0x00#8 → ¬(s.rxs = .idle ∧ s.pend = true ∧ s.ie = true) → interruptEntry s = { s with tr := none }) ∧
    (s.fault = 0x00#8 → s.rxs = .idle → s.pend = true → s.ie = true →
      (s.tr.getD s.now + s.params.isrLatMax ≤ s.now → interruptEntry s = enterReceiver s) ∧
      (s.now < s.tr.getD s.now + s.params.isrLatMax →
        interruptEntry s = { s with tr := some (s.tr.getD s.now), draws := s.draws + 1 } ∨
        interruptEntry s = enterReceiver { s with tr := some (s.tr.getD s.now), draws := s.draws + 1 }) ∧
      (s.params.isrLatMax = 0 → (∀ u, s.tr = some u → u ≤ s.now) → interruptEntry s = enterReceiver s))

/-- For every eight levels, the byte made by eight shifts from 0 is the sum of bit(sample k)·2^k. (Derived from
spec/42_receiver.md section 2 (R207, R208).) -/
def Obligations.EightSamplesMakeTheByte : Prop :=
  ∀ sample : Nat → Level,
    (byteOfSamples sample).toNat = ∑ k ∈ Finset.range 8, (if sample k = .H then 2 ^ k else 0)

/-- From a state right after an entry (SAMPLING, now = T0 + 1, ACC = 0, FAULT = 0, Inv), the run reaches boundary T0 + o +
32 + RX_TAIL_Q still SAMPLING with MAIN and the buffer untouched; there B1 pushes the byte that is the sum of
bit(rx(T0 + o + 4(k + 1)))·2^k and sets IE = RX_SIE and RXS = IDLE; where the push faults, FAULT = 0x04 (what else
holds then is FaultingPushEndsInTheCompletion, log 14). (With WIRING = shared and RX_TAIL_Q = 0 the eighth sample
reads the line as it is before B5 of its boundary: the model's choice, log 10.) (Derived from spec/42_receiver.md
section 2 (R208, R209), spec/10_state.md section 6 (R52).) -/
def Obligations.ReceptionPushesTheSampledByte : Prop :=
  ∀ s : State, Inv s → s.fault = 0x00#8 → s.rxs = .sampling → s.now = s.t0 + 1 → s.acc = 0x00#8 →
    ∃ (u : State) (b : Byte),
      runSteps (episodeTicks s.params - 1) s = .next u ∧ u.now = s.t0 + episodeTicks s.params ∧ u.rxs = .sampling ∧
      u.fault = 0x00#8 ∧ u.cp = s.cp ∧ u.ms = s.ms ∧ u.out = s.out ∧ u.rb = s.rb ∧ u.w = s.w ∧ u.r = s.r ∧
      u.occ = s.occ ∧ u.ovfCnt = s.ovfCnt ∧ u.rxSie = s.rxSie ∧ u.t0 = s.t0 ∧
      b.toNat = ∑ k ∈ Finset.range 8, (if sampleLevel s k = .H then 2 ^ k else 0) ∧
      ((push b { u with acc := b }).fault = 0x00#8 →
        receiverProgress u = { push b { u with acc := b } with ie := u.rxSie, rxs := .idle }) ∧
      ((push b { u with acc := b }).fault ≠ 0x00#8 → (receiverProgress u).fault = 0x04#8)

/-- For a frame of b at f, an offset o and an entry latency l <= 3: rx(f + l) = L; if l + o <= 3 the samples at f + l + o
+ 4(k + 1) make b; if 4 <= l + o they make (b >> 1) with bit 7 set. (Derived from spec/42_receiver.md section 3
(R212).) -/
def Obligations.SamplesOfAFrame : Prop :=
  ∀ (b : Byte) (o : StartOffset) (l f : Nat) (rx : Nat → Level), (∀ k < 40, rx (f + k) = frame b k) → l ≤ 3 →
    rx (f + l) = .L ∧
    (l + offsetTicks o ≤ 3 → byteOfSamples (fun k => rx (f + l + offsetTicks o + 4 * (k + 1))) = b) ∧
    (4 ≤ l + offsetTicks o →
      byteOfSamples (fun k => rx (f + l + offsetTicks o + 4 * (k + 1))) = (b >>> 1) ||| 0x80#8)

/-- From a boundary f >= 1 that meets Inv with FAULT = 0, RXS = IDLE, IE = 1 and ARMED = 1, ISR_LAT_MAX = 0 and WIRING =
separate, rx(f - 1) = H and the frame of b on RX from f: after o + 32 + RX_TAIL_Q boundaries the receiver is at its
completion boundary and B1 pushes b there and returns (where the push faults, B1 does not return and RXS and IE stay:
the model's reading, log 14). Other latencies are in SamplesOfAFrame. (Derived from spec/42_receiver.md section 3
(R212), spec/10_state.md section 6 (R52, R53).) -/
def Obligations.WellFormedFrameIsReceived : Prop :=
  ∀ (s : State) (b : Byte), Inv s → s.fault = 0x00#8 → s.rxs = .idle → s.ie = true → s.armed = true →
    s.params.isrLatMax = 0 → s.params.wiring = .separate → 1 ≤ s.now → envLevel s (s.now - 1) = .H →
    (∀ k < 40, envLevel s (s.now + k) = frame b k) →
    ∃ u, runSteps (episodeTicks s.params) s = .next u ∧ u.now = s.now + episodeTicks s.params ∧ u.rxs = .sampling ∧
      u.t0 = s.now ∧ u.occ = s.occ ∧ u.w = s.w ∧
      receiverProgress u =
        if (push b { u with acc := b }).fault = 0x00#8 then
          { push b { u with acc := b } with ie := true, rxs := .idle }
        else push b { u with acc := b }

/-- From a SAMPLING state that meets Inv, before its completion boundary: the next state is SAMPLING with the same T0,
RX_SIE, IE = 0, CP, MS, OUT, R, W, OCC, OVF_CNT, RB, TXL, TXS, LINE, DLY and FAULT, and the same ARMED if FAULT = 0 (a
fault ends it: log 12). (Derived from spec/42_receiver.md section 2 (R211), spec/60_exceptions.md section 2 (R310,
R312).) -/
def Obligations.MainStallsWhileSampling : Prop :=
  ∀ s t : State, Inv s → s.rxs = .sampling → s.now < s.t0 + episodeTicks s.params → step s = .next t →
    t.rxs = .sampling ∧ t.t0 = s.t0 ∧ t.rxSie = s.rxSie ∧ t.ie = false ∧ t.cp = s.cp ∧ t.ms = s.ms ∧ t.out = s.out ∧
    SameRing s t ∧ SameRb s t ∧ t.txl = s.txl ∧ t.txs = s.txs ∧ t.line = s.line ∧ t.dly = s.dly ∧
    (s.fault = 0x00#8 → t.armed = s.armed) ∧ t.fault = s.fault

/-- From a state with TXS busy that meets Inv: before boundary ts + 40 the next state is not SAMPLING; and at boundary ts
+ 40, if TX is H and the remote level is H, B4 starts no reception, on either wiring. (The edge of the start bit
itself is OwnStartBitMeetsTheMask.) (Derived from spec/42_receiver.md section 3 (R217), spec/41_transmitter.md section
1 (R171).) -/
def Obligations.OwnTransmissionIsNotReceived : Prop :=
  ∀ (s : State) (ts : Nat) (c : Byte) (sie : Bool), Inv s → s.txs = .busy ts c sie →
    (∀ t, s.now < ts + 40 → step s = .next t → t.rxs = .idle ∧ t.ms = .inTxb) ∧
    (s.now = ts + 40 → s.txl = some .H → envLevel s s.now = .H → (beforeMain s).rxs = .idle)

/-- From every state with ARMED = 0 and PEND = 0, the next state has PEND = 0, whatever RX does, even if INIT arms the
comparator at this boundary. (Derived from spec/70_reset_and_hazards.md section 1 (R341), spec/42_receiver.md section
1 (R201).) -/
def Obligations.NoEdgeIsSeenBeforeArming : Prop :=
  ∀ s t : State, s.armed = false → s.pend = false → step s = .next t → t.pend = false

/-- raise Fault(code) writes FAULT if it was 0 and nothing else. From a state with FAULT not 0 time goes on and B1, B2, B4
and B5 do nothing: the next state can differ only in now, the history of TXL, and what edge detection has (PEND, ARMED
and the model's draw counter, of which this says nothing; they are in HaltedBlockOnlyLetsTimePass); and such a state
is never an observation point. (States R302.) -/
def Obligations.FirstFaultHaltsTheBlock : Prop :=
  (∀ (s : State) (c : FaultCode),
    raiseFault c s = { s with fault := if s.fault = 0x00#8 then c.code else s.fault }) ∧
  (∀ s : State, s.fault ≠ 0x00#8 → ∃ t, step s = .next t ∧
    t = { s with
      now := s.now + 1, txHist := s.txl :: s.txHist, pend := t.pend, armed := t.armed, draws := t.draws }) ∧
  ∀ s : State, s.fault ≠ 0x00#8 → atObservationPoint s = false ∧ ∀ o, observe s ≠ .next o

/-- For every boundary: parameters, stream and ENV's levels are unchanged; now goes up by 1 and the history gains one
level, TX's; OUT is only appended to; CP does not go down; ARMED stays once set unless a fault is recorded (that a
fault ends it is log 12); a READY line stays READY with its DLY; a FAULT stays. (Derived from spec/10_state.md section
2 (R32, R33, R36), spec/10_state.md section 4 (R45), spec/20_memory.md section 5 (R83), spec/00_scope.md section 3
(R9).) -/
def Obligations.WhatNoBoundaryUndoes : Prop :=
  ∀ s t : State, step s = .next t →
    SameLaunch s t ∧ t.now = s.now + 1 ∧ t.txHist = t.txl :: s.txHist ∧ s.out <+: t.out ∧ s.cp ≤ t.cp ∧
    (s.armed = true → t.armed = true ∨ t.fault ≠ 0x00#8) ∧ (s.line = .ready → t.line = .ready ∧ t.dly = s.dly) ∧
    (s.fault ≠ 0x00#8 → t.fault = s.fault)

/-- For every command and state whose exec answers next: the parameters, stream, ENV's levels, now, the history of TX,
RXS, T0, ACC, RX_SIE, t_r, the draw counter and W (unless the command is INIT) are unchanged, and every byte of RB
reads as before. (Derived from spec/10_state.md section 1 (R30), spec/20_memory.md section 1 (R70).) -/
def Obligations.CommandFrame : Prop :=
  ∀ (i : Instr) (s t : State), exec i s = .next t →
    SameLaunch s t ∧ t.now = s.now ∧ t.txHist = s.txHist ∧ SameReceiver s t ∧ t.draws = s.draws ∧ SameRb s t ∧
    (i ≠ .init → t.w = s.w)

/-- When EI, DI, WAITQ or TXB answers next: W, R, OCC, OVF_CNT, every RB byte, LINE, DLY, ARMED, PEND and OUT are
unchanged. EI and DI also leave TXL, TXS and FAULT; WAITQ leaves IE, TXL, TXS and CP; TXB leaves CP; WAITQ and TXB
leave FAULT on a READY line. (Derived from spec/44_interrupt_control.md (R280, R281), spec/40_timing_primitive.md
section 3 (R146), spec/41_transmitter.md section 1 (R170).) -/
def Obligations.ControlCommandFrame : Prop :=
  ∀ (i : Instr) (s t : State), exec i s = .next t → (i = .ei ∨ i = .di ∨ i = .waitq ∨ ∃ b, i = .txb b) →
    SameRing s t ∧ SameRb s t ∧ SameLine s t ∧ t.pend = s.pend ∧ t.out = s.out ∧
    (i = .ei ∨ i = .di → t.txl = s.txl ∧ t.txs = s.txs ∧ t.fault = s.fault) ∧
    (i = .waitq → t.ie = s.ie ∧ t.txl = s.txl ∧ t.txs = s.txs ∧ t.cp = s.cp) ∧
    ((∃ b, i = .txb b) → t.cp = s.cp) ∧
    (s.line = .ready → t.fault = s.fault)

/-- When RDNB, RDB or RDOVF answers next: LINE, DLY, ARMED, IE, PEND, TXL, TXS, W, OVF_CNT and every RB byte are
unchanged, OUT gains at most one word, and FAULT is unchanged on a READY line. RDOVF leaves R and OCC; RDNB and RDB
leave them when OCC = 0. (Derived from spec/43_ring_buffer.md section 2 (R250, R252), spec/43_ring_buffer.md section 3
(R262).) -/
def Obligations.ReadCommandFrame : Prop :=
  ∀ (i : Instr) (s t : State), exec i s = .next t → (i = .rdnb ∨ i = .rdb ∨ i = .rdovf) →
    SameLine s t ∧ t.ie = s.ie ∧ t.pend = s.pend ∧ t.txl = s.txl ∧ t.txs = s.txs ∧ t.w = s.w ∧ t.ovfCnt = s.ovfCnt ∧
    SameRb s t ∧ (t.out = s.out ∨ ∃ v, t.out = s.out ++ [v]) ∧
    (s.line = .ready → t.fault = s.fault) ∧
    (i = .rdovf ∨ s.occ = 0#7 → t.r = s.r ∧ t.occ = s.occ)

/-- When INIT answers next: IE, TXS, the receiver's state and every RB byte are unchanged; if the line is then not READY,
TXL, ARMED, PEND, W, R, OCC, OVF_CNT and FAULT are unchanged; if it was READY before, everything but FAULT is
unchanged. (Derived from spec/40_timing_primitive.md section 2 (R143).) -/
def Obligations.InitFrame : Prop :=
  ∀ s t : State, exec .init s = .next t →
    t.ie = s.ie ∧ t.txs = s.txs ∧ SameReceiver s t ∧ SameRb s t ∧
    (t.line ≠ .ready →
      t.txl = s.txl ∧ t.armed = s.armed ∧ t.pend = s.pend ∧ SameRing s t ∧ t.fault = s.fault) ∧
    (s.line = .ready → t = { s with fault := t.fault })

/-- From a SAMPLING state that meets Inv, with FAULT = 0, at its completion boundary, OCC = 0 and MAIN spinning in RDB: if
no new reception starts in B4, the next state exists, OUT has gained the byte just assembled, zero-extended, directly
after what it held, and CP has advanced. (States R254.) -/
def Obligations.BlockingReadReturnsAtThePush : Prop :=
  ∀ (s : State) (te : Nat), Inv s → s.fault = 0x00#8 → s.rxs = .sampling → s.now = s.t0 + episodeTicks s.params →
    s.occ = 0#7 → s.ms = .inRdb te → (beforeMain s).rxs = .idle →
    ∃ t, step s = .next t ∧ s.out ++ [byteResult (sampleStep s).acc] <+: t.out ∧ s.cp + 1 ≤ t.cp

/-- From a state with FAULT = 0, RXS = IDLE, IE = 0, OCC = 0 and MAIN in an RDB whose poll is due: after every number of
boundaries MAIN is still in the RDB with the same CP and OUT, and the state is no observation point. (Derived from
spec/43_ring_buffer.md section 2 (R253), spec/70_reset_and_hazards.md section 3 (R352).) -/
def Obligations.BlockingReadSpinsWhileMasked : Prop :=
  ∀ (s : State) (te n : Nat), s.fault = 0x00#8 → s.rxs = .idle → s.ie = false → s.occ = 0#7 → s.ms = .inRdb te →
    te ≤ s.now →
    ∃ t, runSteps n s = .next t ∧ (∃ te', t.ms = .inRdb te') ∧ t.cp = s.cp ∧ t.out = s.out ∧
      atObservationPoint t = false

/-- If n boundaries lead from s to t and MS is not DONE in t, then with any words appended to the stream they lead to t
with the longer stream. So for a launch with an infinite stream f at most one state is reached after n boundaries
(that an infinite stream is read through its prefixes is the model's choice, log 2; that two launches with equal
choices draw alike, have equal levels past their lists, equal reset bytes and equal T0, ACC and RX_SIE is too, logs 5
to 8, so this is for given draws, RX levels and reset values). (Derived from spec/60_exceptions.md section 4 (R330),
spec/10_state.md section 6 (R52).) -/
def Obligations.LongerStreamGivesTheSameRun : Prop :=
  (∀ (s t : State) (ws : List Word) (n : Nat), runSteps n s = .next t → t.ms ≠ .done →
    runSteps n { s with stream := s.stream ++ ws } = .next { t with stream := s.stream ++ ws }) ∧
  ∀ (p : Params) (f : Nat → Word) (rx : List Level) (n : Nat) (u u' : State),
    ReachesOnInfiniteStream p f rx n u → ReachesOnInfiniteStream p f rx n u' → u = u'

/-- observe answers next exactly where MS = DONE, RXS = IDLE, PEND = 0 and FAULT = 0, and then with OUT, the history of TX
in order of time, the 64 bytes of RB, W, R, OCC and OVF_CNT. (D32 and I17 refuse an observation that reads TX while it
is none: that the observation answers all the same, with an undriven tick listed as none, and that reading such a tick
by itself is what is refused, is the model's reading, DEDUCED, log 17.) (Derived from spec/10_state.md section 6
(R54), spec/92_eei_decisions.md (D32).) -/
def Obligations.ObservationPoint : Prop :=
  ∀ (s : State) (o : Observation), observe s = .next o ↔
    (s.ms = .done ∧ s.rxs = .idle ∧ s.pend = false ∧ s.fault = 0x00#8) ∧
    o.out = s.out ∧ o.tx = s.txHist.reverse ∧ o.rb = (List.range 64).map s.rb.read ∧ o.w = s.w ∧ o.r = s.r ∧
    o.occ = s.occ ∧ o.ovfCnt = s.ovfCnt

/-- dec(v) is 0x2D for a negative v and then digits of |v|; these are codes 0x30..0x39, stand for |v|, and begin with 0x30
only when |v| = 0, where they are the one digit 0x30. (States R184.) -/
def Obligations.DecimalTextOfAnInteger : Prop :=
  (∀ v : Int, dec v = (if v < 0 then [0x2D#8] else []) ++ digits v.natAbs) ∧
  ∀ n : Nat, decimalValue (digits n) = n ∧ digits n ≠ [] ∧
    (∀ c ∈ digits n, 0x30 ≤ c.toNat ∧ c.toNat ≤ 0x39) ∧
    (n ≠ 0 → (digits n).head? ≠ some 0x30#8) ∧ (n = 0 → digits n = [0x30#8])

/-- WRITE b expands to TXB b; a string of n bytes that are not 0x00, followed by 0x00 and any bytes, expands to the n TXBs
in order; TXLINE expands to the TXSTR and TXB 0x0A. (States R180, R181, R182.) -/
def Obligations.WriteHelperExpansions : Prop :=
  ∀ (p : Params) (b : Byte) (s rest : List Byte), (∀ c ∈ s, c ≠ 0x00#8) →
    (Pseudo.write b).expand p = [.txb b] ∧
    (Pseudo.txStr (s ++ 0x00#8 :: rest)).expand p = s.map Instr.txb ∧
    (Pseudo.txLine (s ++ 0x00#8 :: rest)).expand p = s.map Instr.txb ++ [.txb 0x0A#8]

/-- For every pseudo-command and parameters, expand gives an expansion that the relation admits (its tie choice is the
free value of log 18, and the statement holds whatever it is). The relation is the model's in this: the sign,
finiteness and magnitude of a bit pattern are by the IEEE-754 layout, PRESUMED, for any pair of field widths, DESIGN
CHOICE (log 20), and the end of a list stands for its terminator, DEDUCED (log 19). The text of a finite float is
spaces, an optional '-', digits of the integer part, '.', and the five digits of the rest, at least 10 bytes long,
with spaces only if it is exactly 10. (Derived from spec/41_transmitter.md section 2 (R185, R186).) -/
def Obligations.FloatTextIsAdmitted : Prop :=
  (∀ (p : Params) (q : Pseudo), q.Expands p (q.expand p)) ∧
  ∀ (neg : Bool) (a : Nat), ∃ k, fmtFinite neg a =
      List.replicate k 0x20#8 ++ (if neg then [0x2D#8] else []) ++ digits (a / 100000) ++ [0x2E#8] ++
        digits5 (a % 100000) ∧
    decimalValue (digits5 (a % 100000)) = a % 100000 ∧ 10 ≤ (fmtFinite neg a).length ∧
    (k ≠ 0 → (fmtFinite neg a).length = 10)

/-- For a valid configuration, e = q - (12·DLY + 39) satisfies 0 <= e <= 11, and (12·DLY + 39)·BAUD <= CLK_HZ < (12·DLY +
51)·BAUD. (Derived from spec/40_timing_primitive.md section 4 (R151).) -/
def Obligations.CalibrationResidual : Prop :=
  ∀ (p : Params) (n : Byte), delayCount p.clkHz p.baud = some n →
    0 ≤ residualCycles p n ∧ residualCycles p n ≤ 11 ∧
    bitCycles n * p.baud ≤ p.clkHz ∧ p.clkHz < (bitCycles n + 12) * p.baud

/-- Within n boundaries the run from s is observed as o iff some boundary k < n meets the condition of R54 after it, no
earlier boundary does, and o is what that state shows. From a state with FAULT not 0 no number of boundaries gives an
observation. (That the state is read after B6 of that boundary, so that the history of TX includes the boundary's own
tick, is the model's reading of R54's 'after B5', DEDUCED, log 17.) (Derived from spec/10_state.md section 6 (R54).) -/
def Obligations.FirstObservationPoint : Prop :=
  (∀ (n : Nat) (s : State) (o : Observation), observeRun n s = .next o ↔
    ∃ k < n, ∃ t, runSteps (k + 1) s = .next t ∧ observe t = .next o ∧
      ∀ j < k, ∀ u, runSteps (j + 1) s = .next u → atObservationPoint u = false) ∧
  ∀ (n : Nat) (s : State) (o : Observation), s.fault ≠ 0x00#8 → observeRun n s ≠ .next o

/-- Where B5 begins with TXB b on a READY line, B5 ends in the entry's state u. Whenever a TXB starts at a boundary, be it
after commands that took no time, B5 ends in a state u with IE = 0, TX = L, TXS busy and MS = IN_TXB; and under WIRING
= shared, with ARMED = 1 before the boundary, an RX level of H in the tick before and no edge seen by B3, the boundary
ends in u with PEND unchanged under drop, set under latch, set or unchanged under draw (counted, log 6), and B6; in
every other case it ends in u and B6. The treatment of this edge after B5 is the model's reading, DEDUCED (log 10).
(Derived from spec/42_receiver.md section 3 (R217), spec/42_receiver.md section 1 (R201), spec/41_transmitter.md
section 1 (R170).) -/
def Obligations.OwnStartBitMeetsTheMask : Prop :=
  (∀ (s : State) (b : Byte), StartsCommand s (.txb b) → (beforeMain s).line = .ready →
    mainLoop (mainFuel (beforeMain s)) (beforeMain s) = .next { beforeMain s with
      ie := false, txl := some .L, txs := .busy s.now (~~~b) (beforeMain s).ie, ms := .inTxb } ∧
    ∃ s1, TxbStarts s s1 b (beforeMain s).ie) ∧
  ∀ (s s1 : State) (b : Byte) (sie : Bool), TxbStarts s s1 b sie →
    ∃ u, mainLoop (mainFuel (beforeMain s)) (beforeMain s) = .next u ∧ u.ie = false ∧ u.txl = some .L ∧
      u.txs = .busy s.now (~~~b) sie ∧ u.ms = .inTxb ∧
      (s.params.wiring = .shared → s.armed = true → 1 ≤ s.now → rxBefore s = .H → edgeNow (beforeEdge s) = false →
        (s.params.maskedEdge = .drop → s1 = tick u) ∧
        (s.params.maskedEdge = .latch → s1 = tick { u with pend := true }) ∧
        (s.params.maskedEdge = .draw →
          s1 = tick { u with draws := u.draws + 1 } ∨ s1 = tick { u with pend := true, draws := u.draws + 1 })) ∧
      (s.params.wiring = .separate ∨ s.armed = false ∨ s.now = 0 ∨ rxBefore s = .L ∨ edgeNow (beforeEdge s) = true →
        s1 = tick u)

/-- If FAULT is not 0 after a boundary, ARMED = 0 after it. From a state with FAULT not 0 the next state is that state
with ARMED = 0 and one tick later: no edge sets PEND. D37 has ARMED stay 1 until reset or a fault, R36, which cites
it, until reset: that the fault ends it is DEDUCED (log 12). (Derived from spec/92_eei_decisions.md (D37, D22),
spec/10_state.md section 2 (R36, R42), spec/10_state.md section 6 (R52).) -/
def Obligations.HaltedBlockOnlyLetsTimePass : Prop :=
  (∀ s t : State, step s = .next t → t.fault ≠ 0x00#8 → t.armed = false) ∧
  ∀ s : State, s.fault ≠ 0x00#8 → step s = .next { s with
    armed := false, now := s.now + 1, txHist := s.txl :: s.txHist }

/-- In a reception at boundary T0 + o + 32 + RX_TAIL_Q with OCC = 64 under legacy_fault, B1 leaves FAULT = 0x04 and
nothing else of the completion: IE and RXS are as before. With RX_TAIL_Q = 0 the eighth sample of the same B1 stays in
ACC, otherwise this B1 samples nothing. This is the model's reading, DEDUCED and DESIGN CHOICE (log 14). (Derived from
spec/42_receiver.md section 2 (R209), spec/43_ring_buffer.md section 1 (R241), spec/60_exceptions.md section 1
(R302).) -/
def Obligations.FaultingPushEndsInTheCompletion : Prop :=
  ∀ s : State, s.fault = 0x00#8 → s.rxs = .sampling → s.now = s.t0 + episodeTicks s.params → s.occ = 64#7 →
    s.params.overflow = .legacyFault →
    receiverProgress s = { sampleStep s with fault := 0x04#8 } ∧
    (s.params.rxTailQ = 0 → sampleStep s = { s with acc := shiftIn s.acc (bit (rxNow s)) }) ∧
    (s.params.rxTailQ ≠ 0 → sampleStep s = s)

/-- A list of n bytes none of which is 0x00 expands under TXSTR to the n TXBs in order, and under TXLINE to these and TXB
0x0A. That the end of the list stands for the terminator is DEDUCED (log 19): R181 speaks of a string terminated by
0x00. (Derived from spec/41_transmitter.md section 2 (R181, R182).) -/
def Obligations.StringWithoutTerminator : Prop :=
  ∀ (p : Params) (s : List Byte), (∀ c ∈ s, c ≠ 0x00#8) →
    (Pseudo.txStr s).expand p = s.map Instr.txb ∧
    (Pseudo.txLine s).expand p = s.map Instr.txb ++ [.txb 0x0A#8]

/-- For every choice of parameters, stream and RX levels, RB[i] reads after reset as Config.rbResetByte i, of which
nothing can be proved. R50 says that each byte is a draw; that it is one constant for every launch is the model's
choice, DESIGN CHOICE (log 7). (Derived from spec/10_state.md section 5 (R50).) -/
def Obligations.ResetBytesAreFreeValues : Prop :=
  ∀ (p : Params) (ws : List Word) (rx : List Level) (i : BitVec 6),
    memRead (State.launch p ws rx) i = Config.rbResetByte i.toNat

/-- From every state, entering RXISR leaves t_r at none, so if the condition of R53 holds at the next B4 evaluation, t_r
is that boundary. R53 says that t_r is forgotten where the condition stops holding before entry; that an entry ends
the wait is DEDUCED (log 9). (Derived from spec/10_state.md section 6 (R53), spec/42_receiver.md section 1 (R205).) -/
def Obligations.EntryForgetsItsWait : Prop :=
  ∀ s : State, (enterReceiver s).tr = none ∧ waitStart (enterReceiver s) = (enterReceiver s).now ∧
    (enterReceiver s).now = s.now
end

