-- ==== Sys2Proof/Laws/Memory.lean ====
section
/-! SUPPORT. RB: a read after a write, a write elsewhere, and that every memory operation keeps the canonical form. -/

namespace Sys2Proof.Machine

/-- A write is read back, and every other index reads as before. -/
theorem Memory.read_write (m : Memory) (i j : Nat) (v : Byte) :
    (m.write i v).read j = if j = i then v else m.read j := by
  induction m with
  | nil => simp [Memory.write, Memory.read]
  | cons c m ih =>
    obtain ⟨a, x⟩ := c
    simp only [Memory.write]
    split
    · simp [Memory.read]
    · split
      · subst_vars; by_cases hj : j = a <;> simp [Memory.read, hj]
      · by_cases hj : j = a
        · subst hj; simp only [Memory.read, if_true]; split <;> simp_all
        · simp [Memory.read, hj, ih]

theorem Memory.read_write_same (m : Memory) (i : Nat) (v : Byte) : (m.write i v).read i = v := by
  simp [Memory.read_write]

theorem Memory.read_write_other (m : Memory) {i j : Nat} (v : Byte) (h : j ≠ i) :
    (m.write i v).read j = m.read j := by
  simp [Memory.read_write, h]

theorem Memory.wfFrom_mono {lo lo' : Nat} (h : lo' ≤ lo) (m : Memory) (hm : Memory.wfFrom lo m = true) :
    Memory.wfFrom lo' m = true := by
  cases m with
  | nil => rfl
  | cons c m =>
    obtain ⟨a, x⟩ := c
    simp only [Memory.wfFrom, Bool.and_eq_true, decide_eq_true_eq] at hm ⊢
    exact ⟨⟨by omega, hm.1.2⟩, hm.2⟩

theorem Memory.wfFrom_write (m : Memory) {lo i : Nat} (v : Byte) (hlo : lo ≤ i) (hi : i < Config.capacity)
    (hm : Memory.wfFrom lo m = true) : Memory.wfFrom lo (m.write i v) = true := by
  induction m generalizing lo with
  | nil => simp [Memory.write, Memory.wfFrom, hlo, hi]
  | cons c m ih =>
    obtain ⟨a, x⟩ := c
    simp only [Memory.wfFrom, Bool.and_eq_true, decide_eq_true_eq] at hm
    simp only [Memory.write]
    split
    · simp only [Memory.wfFrom, Bool.and_eq_true, decide_eq_true_eq]
      exact ⟨⟨hlo, hi⟩, ⟨by omega, hm.1.2⟩, hm.2⟩
    · split
      · simp only [Memory.wfFrom, Bool.and_eq_true, decide_eq_true_eq]
        exact hm
      · simp only [Memory.wfFrom, Bool.and_eq_true, decide_eq_true_eq]
        exact ⟨hm.1, ih (by omega) hm.2⟩

/-- A write keeps the canonical form. -/
theorem Memory.write_wf (m : Memory) (i : BitVec 6) (v : Byte) (hm : m.wf = true) : (m.write i.toNat v).wf = true :=
  Memory.wfFrom_write m v (Nat.zero_le _) i.isLt hm

/-- MemWrite, the only operation that changes RB, keeps the canonical form. -/
theorem memWrite_wf (i : BitVec 6) (v : Byte) (s : State) (hs : s.rb.wf = true) : (memWrite i v s).rb.wf = true :=
  Memory.write_wf s.rb i v hs

/-- RB after reset is in canonical form. -/
theorem launch_rb_wf (p : Params) (ws : List Word) (rx : List Level) : (State.launch p ws rx).rb.wf = true := rfl

/-- A byte read after MemWrite. -/
theorem memRead_memWrite (i j : BitVec 6) (v : Byte) (s : State) :
    memRead (memWrite i v s) j = if j = i then v else memRead s j := by
  simp only [memRead, memWrite, Memory.read_write, BitVec.toNat_inj]

end Sys2Proof.Machine
end

