-- ==== Sys2Proof/Laws/State.lean ====
section
/-! SUPPORT. One lemma per field for each shared update of the state, true by rfl, so that no later proof unfolds a record
update. -/

namespace Sys2Proof.Machine

section Drive
variable (l : Level) (s : State)

@[simp] theorem drive_params : (drive l s).params = s.params := rfl
@[simp] theorem drive_stream : (drive l s).stream = s.stream := rfl
@[simp] theorem drive_rxIn : (drive l s).rxIn = s.rxIn := rfl
@[simp] theorem drive_now : (drive l s).now = s.now := rfl
@[simp] theorem drive_line : (drive l s).line = s.line := rfl
@[simp] theorem drive_dly : (drive l s).dly = s.dly := rfl
@[simp] theorem drive_ie : (drive l s).ie = s.ie := rfl
@[simp] theorem drive_armed : (drive l s).armed = s.armed := rfl
@[simp] theorem drive_pend : (drive l s).pend = s.pend := rfl
@[simp] theorem drive_txl : (drive l s).txl = some l := rfl
@[simp] theorem drive_txs : (drive l s).txs = s.txs := rfl
@[simp] theorem drive_txHist : (drive l s).txHist = s.txHist := rfl
@[simp] theorem drive_rxs : (drive l s).rxs = s.rxs := rfl
@[simp] theorem drive_t0 : (drive l s).t0 = s.t0 := rfl
@[simp] theorem drive_acc : (drive l s).acc = s.acc := rfl
@[simp] theorem drive_rxSie : (drive l s).rxSie = s.rxSie := rfl
@[simp] theorem drive_tr : (drive l s).tr = s.tr := rfl
@[simp] theorem drive_rb : (drive l s).rb = s.rb := rfl
@[simp] theorem drive_w : (drive l s).w = s.w := rfl
@[simp] theorem drive_r : (drive l s).r = s.r := rfl
@[simp] theorem drive_occ : (drive l s).occ = s.occ := rfl
@[simp] theorem drive_ovfCnt : (drive l s).ovfCnt = s.ovfCnt := rfl
@[simp] theorem drive_fault : (drive l s).fault = s.fault := rfl
@[simp] theorem drive_ms : (drive l s).ms = s.ms := rfl
@[simp] theorem drive_cp : (drive l s).cp = s.cp := rfl
@[simp] theorem drive_out : (drive l s).out = s.out := rfl
@[simp] theorem drive_draws : (drive l s).draws = s.draws := rfl

end Drive

section Result
variable (v : Word) (s : State)

@[simp] theorem result_params : (result v s).params = s.params := rfl
@[simp] theorem result_stream : (result v s).stream = s.stream := rfl
@[simp] theorem result_rxIn : (result v s).rxIn = s.rxIn := rfl
@[simp] theorem result_now : (result v s).now = s.now := rfl
@[simp] theorem result_line : (result v s).line = s.line := rfl
@[simp] theorem result_dly : (result v s).dly = s.dly := rfl
@[simp] theorem result_ie : (result v s).ie = s.ie := rfl
@[simp] theorem result_armed : (result v s).armed = s.armed := rfl
@[simp] theorem result_pend : (result v s).pend = s.pend := rfl
@[simp] theorem result_txl : (result v s).txl = s.txl := rfl
@[simp] theorem result_txs : (result v s).txs = s.txs := rfl
@[simp] theorem result_txHist : (result v s).txHist = s.txHist := rfl
@[simp] theorem result_rxs : (result v s).rxs = s.rxs := rfl
@[simp] theorem result_t0 : (result v s).t0 = s.t0 := rfl
@[simp] theorem result_acc : (result v s).acc = s.acc := rfl
@[simp] theorem result_rxSie : (result v s).rxSie = s.rxSie := rfl
@[simp] theorem result_tr : (result v s).tr = s.tr := rfl
@[simp] theorem result_rb : (result v s).rb = s.rb := rfl
@[simp] theorem result_w : (result v s).w = s.w := rfl
@[simp] theorem result_r : (result v s).r = s.r := rfl
@[simp] theorem result_occ : (result v s).occ = s.occ := rfl
@[simp] theorem result_ovfCnt : (result v s).ovfCnt = s.ovfCnt := rfl
@[simp] theorem result_fault : (result v s).fault = s.fault := rfl
@[simp] theorem result_ms : (result v s).ms = s.ms := rfl
@[simp] theorem result_cp : (result v s).cp = s.cp := rfl
@[simp] theorem result_out : (result v s).out = s.out ++ [v] := rfl
@[simp] theorem result_draws : (result v s).draws = s.draws := rfl

end Result

section Complete
variable (s : State)

@[simp] theorem complete_params : (complete s).params = s.params := rfl
@[simp] theorem complete_stream : (complete s).stream = s.stream := rfl
@[simp] theorem complete_rxIn : (complete s).rxIn = s.rxIn := rfl
@[simp] theorem complete_now : (complete s).now = s.now := rfl
@[simp] theorem complete_line : (complete s).line = s.line := rfl
@[simp] theorem complete_dly : (complete s).dly = s.dly := rfl
@[simp] theorem complete_ie : (complete s).ie = s.ie := rfl
@[simp] theorem complete_armed : (complete s).armed = s.armed := rfl
@[simp] theorem complete_pend : (complete s).pend = s.pend := rfl
@[simp] theorem complete_txl : (complete s).txl = s.txl := rfl
@[simp] theorem complete_txs : (complete s).txs = s.txs := rfl
@[simp] theorem complete_txHist : (complete s).txHist = s.txHist := rfl
@[simp] theorem complete_rxs : (complete s).rxs = s.rxs := rfl
@[simp] theorem complete_t0 : (complete s).t0 = s.t0 := rfl
@[simp] theorem complete_acc : (complete s).acc = s.acc := rfl
@[simp] theorem complete_rxSie : (complete s).rxSie = s.rxSie := rfl
@[simp] theorem complete_tr : (complete s).tr = s.tr := rfl
@[simp] theorem complete_rb : (complete s).rb = s.rb := rfl
@[simp] theorem complete_w : (complete s).w = s.w := rfl
@[simp] theorem complete_r : (complete s).r = s.r := rfl
@[simp] theorem complete_occ : (complete s).occ = s.occ := rfl
@[simp] theorem complete_ovfCnt : (complete s).ovfCnt = s.ovfCnt := rfl
@[simp] theorem complete_fault : (complete s).fault = s.fault := rfl
@[simp] theorem complete_ms : (complete s).ms = .atCmd := rfl
@[simp] theorem complete_cp : (complete s).cp = s.cp + 1 := rfl
@[simp] theorem complete_out : (complete s).out = s.out := rfl
@[simp] theorem complete_draws : (complete s).draws = s.draws := rfl

end Complete

section MemWrite
variable (i : BitVec 6) (v : Byte) (s : State)

@[simp] theorem memWrite_params : (memWrite i v s).params = s.params := rfl
@[simp] theorem memWrite_stream : (memWrite i v s).stream = s.stream := rfl
@[simp] theorem memWrite_rxIn : (memWrite i v s).rxIn = s.rxIn := rfl
@[simp] theorem memWrite_now : (memWrite i v s).now = s.now := rfl
@[simp] theorem memWrite_line : (memWrite i v s).line = s.line := rfl
@[simp] theorem memWrite_dly : (memWrite i v s).dly = s.dly := rfl
@[simp] theorem memWrite_ie : (memWrite i v s).ie = s.ie := rfl
@[simp] theorem memWrite_armed : (memWrite i v s).armed = s.armed := rfl
@[simp] theorem memWrite_pend : (memWrite i v s).pend = s.pend := rfl
@[simp] theorem memWrite_txl : (memWrite i v s).txl = s.txl := rfl
@[simp] theorem memWrite_txs : (memWrite i v s).txs = s.txs := rfl
@[simp] theorem memWrite_txHist : (memWrite i v s).txHist = s.txHist := rfl
@[simp] theorem memWrite_rxs : (memWrite i v s).rxs = s.rxs := rfl
@[simp] theorem memWrite_t0 : (memWrite i v s).t0 = s.t0 := rfl
@[simp] theorem memWrite_acc : (memWrite i v s).acc = s.acc := rfl
@[simp] theorem memWrite_rxSie : (memWrite i v s).rxSie = s.rxSie := rfl
@[simp] theorem memWrite_tr : (memWrite i v s).tr = s.tr := rfl
@[simp] theorem memWrite_rb : (memWrite i v s).rb = s.rb.write i.toNat v := rfl
@[simp] theorem memWrite_w : (memWrite i v s).w = s.w := rfl
@[simp] theorem memWrite_r : (memWrite i v s).r = s.r := rfl
@[simp] theorem memWrite_occ : (memWrite i v s).occ = s.occ := rfl
@[simp] theorem memWrite_ovfCnt : (memWrite i v s).ovfCnt = s.ovfCnt := rfl
@[simp] theorem memWrite_fault : (memWrite i v s).fault = s.fault := rfl
@[simp] theorem memWrite_ms : (memWrite i v s).ms = s.ms := rfl
@[simp] theorem memWrite_cp : (memWrite i v s).cp = s.cp := rfl
@[simp] theorem memWrite_out : (memWrite i v s).out = s.out := rfl
@[simp] theorem memWrite_draws : (memWrite i v s).draws = s.draws := rfl

end MemWrite

section TakeInterrupt
variable (s : State)

@[simp] theorem takeInterrupt_params : (takeInterrupt s).params = s.params := rfl
@[simp] theorem takeInterrupt_stream : (takeInterrupt s).stream = s.stream := rfl
@[simp] theorem takeInterrupt_rxIn : (takeInterrupt s).rxIn = s.rxIn := rfl
@[simp] theorem takeInterrupt_now : (takeInterrupt s).now = s.now := rfl
@[simp] theorem takeInterrupt_line : (takeInterrupt s).line = s.line := rfl
@[simp] theorem takeInterrupt_dly : (takeInterrupt s).dly = s.dly := rfl
@[simp] theorem takeInterrupt_ie : (takeInterrupt s).ie = false := rfl
@[simp] theorem takeInterrupt_armed : (takeInterrupt s).armed = s.armed := rfl
@[simp] theorem takeInterrupt_pend : (takeInterrupt s).pend = false := rfl
@[simp] theorem takeInterrupt_txl : (takeInterrupt s).txl = s.txl := rfl
@[simp] theorem takeInterrupt_txs : (takeInterrupt s).txs = s.txs := rfl
@[simp] theorem takeInterrupt_txHist : (takeInterrupt s).txHist = s.txHist := rfl
@[simp] theorem takeInterrupt_rxs : (takeInterrupt s).rxs = s.rxs := rfl
@[simp] theorem takeInterrupt_t0 : (takeInterrupt s).t0 = s.t0 := rfl
@[simp] theorem takeInterrupt_acc : (takeInterrupt s).acc = s.acc := rfl
@[simp] theorem takeInterrupt_rxSie : (takeInterrupt s).rxSie = s.ie := rfl
@[simp] theorem takeInterrupt_tr : (takeInterrupt s).tr = none := rfl
@[simp] theorem takeInterrupt_rb : (takeInterrupt s).rb = s.rb := rfl
@[simp] theorem takeInterrupt_w : (takeInterrupt s).w = s.w := rfl
@[simp] theorem takeInterrupt_r : (takeInterrupt s).r = s.r := rfl
@[simp] theorem takeInterrupt_occ : (takeInterrupt s).occ = s.occ := rfl
@[simp] theorem takeInterrupt_ovfCnt : (takeInterrupt s).ovfCnt = s.ovfCnt := rfl
@[simp] theorem takeInterrupt_fault : (takeInterrupt s).fault = s.fault := rfl
@[simp] theorem takeInterrupt_ms : (takeInterrupt s).ms = s.ms := rfl
@[simp] theorem takeInterrupt_cp : (takeInterrupt s).cp = s.cp := rfl
@[simp] theorem takeInterrupt_out : (takeInterrupt s).out = s.out := rfl
@[simp] theorem takeInterrupt_draws : (takeInterrupt s).draws = s.draws := rfl

end TakeInterrupt

section ReturnInterrupt
variable (s : State)

@[simp] theorem returnInterrupt_params : (returnInterrupt s).params = s.params := rfl
@[simp] theorem returnInterrupt_stream : (returnInterrupt s).stream = s.stream := rfl
@[simp] theorem returnInterrupt_rxIn : (returnInterrupt s).rxIn = s.rxIn := rfl
@[simp] theorem returnInterrupt_now : (returnInterrupt s).now = s.now := rfl
@[simp] theorem returnInterrupt_line : (returnInterrupt s).line = s.line := rfl
@[simp] theorem returnInterrupt_dly : (returnInterrupt s).dly = s.dly := rfl
@[simp] theorem returnInterrupt_ie : (returnInterrupt s).ie = s.rxSie := rfl
@[simp] theorem returnInterrupt_armed : (returnInterrupt s).armed = s.armed := rfl
@[simp] theorem returnInterrupt_pend : (returnInterrupt s).pend = s.pend := rfl
@[simp] theorem returnInterrupt_txl : (returnInterrupt s).txl = s.txl := rfl
@[simp] theorem returnInterrupt_txs : (returnInterrupt s).txs = s.txs := rfl
@[simp] theorem returnInterrupt_txHist : (returnInterrupt s).txHist = s.txHist := rfl
@[simp] theorem returnInterrupt_rxs : (returnInterrupt s).rxs = .idle := rfl
@[simp] theorem returnInterrupt_t0 : (returnInterrupt s).t0 = s.t0 := rfl
@[simp] theorem returnInterrupt_acc : (returnInterrupt s).acc = s.acc := rfl
@[simp] theorem returnInterrupt_rxSie : (returnInterrupt s).rxSie = s.rxSie := rfl
@[simp] theorem returnInterrupt_tr : (returnInterrupt s).tr = s.tr := rfl
@[simp] theorem returnInterrupt_rb : (returnInterrupt s).rb = s.rb := rfl
@[simp] theorem returnInterrupt_w : (returnInterrupt s).w = s.w := rfl
@[simp] theorem returnInterrupt_r : (returnInterrupt s).r = s.r := rfl
@[simp] theorem returnInterrupt_occ : (returnInterrupt s).occ = s.occ := rfl
@[simp] theorem returnInterrupt_ovfCnt : (returnInterrupt s).ovfCnt = s.ovfCnt := rfl
@[simp] theorem returnInterrupt_fault : (returnInterrupt s).fault = s.fault := rfl
@[simp] theorem returnInterrupt_ms : (returnInterrupt s).ms = s.ms := rfl
@[simp] theorem returnInterrupt_cp : (returnInterrupt s).cp = s.cp := rfl
@[simp] theorem returnInterrupt_out : (returnInterrupt s).out = s.out := rfl
@[simp] theorem returnInterrupt_draws : (returnInterrupt s).draws = s.draws := rfl

end ReturnInterrupt

section Tick
variable (s : State)

@[simp] theorem tick_params : (tick s).params = s.params := rfl
@[simp] theorem tick_stream : (tick s).stream = s.stream := rfl
@[simp] theorem tick_rxIn : (tick s).rxIn = s.rxIn := rfl
@[simp] theorem tick_now : (tick s).now = s.now + 1 := rfl
@[simp] theorem tick_line : (tick s).line = s.line := rfl
@[simp] theorem tick_dly : (tick s).dly = s.dly := rfl
@[simp] theorem tick_ie : (tick s).ie = s.ie := rfl
@[simp] theorem tick_armed : (tick s).armed = s.armed := rfl
@[simp] theorem tick_pend : (tick s).pend = s.pend := rfl
@[simp] theorem tick_txl : (tick s).txl = s.txl := rfl
@[simp] theorem tick_txs : (tick s).txs = s.txs := rfl
@[simp] theorem tick_txHist : (tick s).txHist = s.txl :: s.txHist := rfl
@[simp] theorem tick_rxs : (tick s).rxs = s.rxs := rfl
@[simp] theorem tick_t0 : (tick s).t0 = s.t0 := rfl
@[simp] theorem tick_acc : (tick s).acc = s.acc := rfl
@[simp] theorem tick_rxSie : (tick s).rxSie = s.rxSie := rfl
@[simp] theorem tick_tr : (tick s).tr = s.tr := rfl
@[simp] theorem tick_rb : (tick s).rb = s.rb := rfl
@[simp] theorem tick_w : (tick s).w = s.w := rfl
@[simp] theorem tick_r : (tick s).r = s.r := rfl
@[simp] theorem tick_occ : (tick s).occ = s.occ := rfl
@[simp] theorem tick_ovfCnt : (tick s).ovfCnt = s.ovfCnt := rfl
@[simp] theorem tick_fault : (tick s).fault = s.fault := rfl
@[simp] theorem tick_ms : (tick s).ms = s.ms := rfl
@[simp] theorem tick_cp : (tick s).cp = s.cp := rfl
@[simp] theorem tick_out : (tick s).out = s.out := rfl
@[simp] theorem tick_draws : (tick s).draws = s.draws := rfl

end Tick

end Sys2Proof.Machine
end

