-- ==== Sys2Proof/Laws/Ops.lean ====
section
/-! SUPPORT. One lemma per shared operation that says everything it can do. -/

namespace Sys2Proof.Machine

/-- raise Fault keeps the first code and changes nothing else. -/
theorem raiseFault_eq (c : FaultCode) (s : State) :
    raiseFault c s = { s with fault := if s.fault = 0x00#8 then c.code else s.fault } := by
  unfold raiseFault; split <;> rfl

theorem FaultCode.code_ne_zero (c : FaultCode) : c.code ≠ 0x00#8 := by cases c <;> decide

theorem FaultCode.code_le_four (c : FaultCode) : c.code.toNat ≤ 4 := by cases c <;> decide

/-- After a raise, FAULT is not 0. -/
theorem raiseFault_fault_ne_zero (c : FaultCode) (s : State) : (raiseFault c s).fault ≠ 0x00#8 := by
  rw [raiseFault_eq]; dsimp only; split
  · exact c.code_ne_zero
  · assumption

theorem andThen_next (s : State) (k : State → Host.Outcome State Fault Refusal) : andThen (.next s) k = k s := rfl

/-- A sequence answers next exactly when both parts do. -/
theorem andThen_eq_next {o : Host.Outcome State Fault Refusal} {k : State → Host.Outcome State Fault Refusal} {t : State} :
    andThen o k = .next t ↔ ∃ s, o = .next s ∧ k s = .next t := by
  cases o <;> simp [andThen]

theorem requireReady_ready {s : State} (h : s.line = .ready) (k : State → Host.Outcome State Fault Refusal) :
    requireReady s k = k s := if_pos h

theorem requireReady_not {s : State} (h : s.line ≠ .ready) (k : State → Host.Outcome State Fault Refusal) :
    requireReady s k = .next (raiseFault .notInit s) := if_neg h

/-- A PUSH writes one byte, or moves the counter, or raises F_RB_OVERFLOW (R240, R241). -/
theorem push_cases (b : Byte) (s : State) :
    (s.occ < 64#7 ∧ push b s = { s with rb := s.rb.write s.w.toNat b, w := s.w + 1#6, occ := s.occ + 1#7 }) ∨
    (¬ s.occ < 64#7 ∧ s.params.overflow = .dropOldest ∧
      push b s = { s with
        rb := s.rb.write s.w.toNat b, w := s.w + 1#6, r := s.r + 1#6, ovfCnt := satInc s.ovfCnt }) ∨
    (¬ s.occ < 64#7 ∧ s.params.overflow = .dropNewest ∧ push b s = { s with ovfCnt := satInc s.ovfCnt }) ∨
    (¬ s.occ < 64#7 ∧ s.params.overflow = .legacyFault ∧ push b s = raiseFault .rbOverflow s) := by
  unfold push
  split
  · exact .inl ⟨‹_›, rfl⟩
  · right; split
    · exact .inl ⟨‹_›, ‹_›, rfl⟩
    · exact .inr (.inl ⟨‹_›, ‹_›, rfl⟩)
    · exact .inr (.inr ⟨‹_›, ‹_›, rfl⟩)

/-- PUSH writes RB, the indices, the counter and FAULT only. -/
theorem push_frame (b : Byte) (s : State) : push b s = { s with
    rb := (push b s).rb, w := (push b s).w, r := (push b s).r, occ := (push b s).occ, ovfCnt := (push b s).ovfCnt,
    fault := (push b s).fault } := by
  unfold push
  split
  · rfl
  · split
    · rfl
    · rfl
    · rw [raiseFault_eq]

/-- An edge changes PEND, which it never clears, and counts a draw, nothing else (R201). -/
theorem pendOnEdge_cases (s : State) :
    ∃ p n, pendOnEdge s = { s with pend := p, draws := n } ∧ (s.pend = true → p = true) := by
  unfold pendOnEdge
  split
  · exact ⟨true, s.draws, rfl, fun _ => rfl⟩
  · split
    · exact ⟨s.pend, s.draws, rfl, id⟩
    · exact ⟨true, s.draws, rfl, fun _ => rfl⟩
    · exact ⟨_, s.draws + 1, rfl, by simp +contextual⟩

/-- Edge detection leaves the state, or acts as an edge does, and that only with ARMED = 1 (R201). -/
theorem detectEdge_cases (s : State) :
    ∃ p n, detectEdge s = { s with pend := p, draws := n } ∧ (s.pend = true → p = true) ∧
      (s.armed = false → p = s.pend ∧ n = s.draws) := by
  unfold detectEdge
  split
  · rename_i h
    obtain ⟨p, n, he, hp⟩ := pendOnEdge_cases s
    exact ⟨p, n, he, hp, fun ha => by simp [ha] at h⟩
  · exact ⟨s.pend, s.draws, rfl, id, fun _ => ⟨rfl, rfl⟩⟩

/-- The edge of the block's own start bit changes PEND and the draws only. -/
theorem ownEdge_cases (atB3 s : State) :
    ∃ p n, ownEdge atB3 s = { s with pend := p, draws := n } ∧ (s.pend = true → p = true) ∧
      (atB3.armed = false → p = s.pend ∧ n = s.draws) := by
  unfold ownEdge
  split
  · rename_i h
    obtain ⟨p, n, he, hp⟩ := pendOnEdge_cases s
    exact ⟨p, n, he, hp, fun ha => by simp [ha] at h⟩
  · exact ⟨s.pend, s.draws, rfl, id, fun _ => ⟨rfl, rfl⟩⟩

/-- Separate wires: B5 makes no edge of its own. -/
theorem ownEdge_separate {atB3 s : State} (hw : s.params.wiring = .separate) (hp : atB3.params = s.params)
    (hr : atB3.rxIn = s.rxIn) (hn : atB3.now = s.now) : ownEdge atB3 s = s := by
  have h : edgeNow atB3 = edgeNow s := by
    simp only [edgeNow, rxBefore, rxNow, wired, envLevel, hp, hw, hr, hn]
  unfold ownEdge; rw [h]; simp

/-- An entry is spurious and returns, or starts a reception (R205, R206). -/
theorem enterReceiver_cases (s : State) :
    (rxNow s = .L ∧ enterReceiver s = { s with
      pend := false, rxSie := s.ie, ie := false, tr := none, rxs := .sampling, t0 := s.now, acc := 0x00#8 }) ∨
    (rxNow s ≠ .L ∧ enterReceiver s = { s with pend := false, rxSie := s.ie, tr := none, rxs := .idle }) := by
  unfold enterReceiver
  simp only [show rxNow (takeInterrupt s) = rxNow s from rfl]
  split
  · exact .inl ⟨‹_›, rfl⟩
  · exact .inr ⟨‹_›, rfl⟩

/-- A B4 evaluation of a halted block does nothing; where the condition fails t_r is forgotten; else the receiver is entered,
or a draw leaves it waiting, which it may only before the bound (R52, R53). -/
theorem interruptEntry_cases (s : State) :
    (s.fault ≠ 0x00#8 ∧ interruptEntry s = s) ∨
    (s.fault = 0x00#8 ∧ entryReady s = false ∧ interruptEntry s = { s with tr := none }) ∨
    (s.fault = 0x00#8 ∧ entryReady s = true ∧ ∃ q n, interruptEntry s = enterReceiver { s with tr := q, draws := n }) ∨
    (s.fault = 0x00#8 ∧ entryReady s = true ∧ entryForced s = false ∧
      interruptEntry s = { s with tr := some (waitStart s), draws := s.draws + 1 }) := by
  unfold interruptEntry
  split
  · exact .inl ⟨‹_›, rfl⟩
  · rename_i hf
    have hf : s.fault = 0x00#8 := by simpa using hf
    right
    split
    · rename_i hr
      right
      split
      · exact .inl ⟨hf, hr, s.tr, s.draws, rfl⟩
      · rename_i hn
        dsimp only
        split
        · exact .inl ⟨hf, hr, some (waitStart s), s.draws + 1, rfl⟩
        · exact .inr ⟨hf, hr, by simpa using hn, rfl⟩
    · rename_i hr
      exact .inl ⟨hf, by simpa using hr, rfl⟩

end Sys2Proof.Machine
end

