-- ==== Sys2Proof/Laws/Exec.lean ====
section
/-! SUPPORT. What each meaning can answer, said once (spec/40, 41, 43, 44). -/

namespace Sys2Proof.Machine

/-- The delay count in the terms of R142. -/
theorem delayCount_eq_some {c b : Nat} {n : Byte} :
    delayCount c b = some n ↔
      (0 < b ∧ 39 ≤ c / b ∧ 1 ≤ (c / b - 39) / 12 ∧ (c / b - 39) / 12 ≤ 255) ∧ n = BitVec.ofNat 8 ((c / b - 39) / 12) := by
  unfold delayCount
  dsimp only
  by_cases h : 0 < b ∧ 39 ≤ c / b ∧ 1 ≤ (c / b - 39) / 12 ∧ (c / b - 39) / 12 ≤ 255
  · rw [if_pos h, Option.some.injEq]; exact ⟨fun e => ⟨h, e.symm⟩, fun e => e.2.symm⟩
  · rw [if_neg h]; exact ⟨fun e => (nomatch e), fun e => absurd e.1 h⟩

theorem delayCount_toNat {c b : Nat} {n : Byte} (h : delayCount c b = some n) : n.toNat = (c / b - 39) / 12 := by
  obtain ⟨⟨_, _, _, h255⟩, rfl⟩ := delayCount_eq_some.1 h
  simp only [BitVec.toNat_ofNat]; omega

/-- A valid delay count is not 0 (R142). -/
theorem delayCount_ne_zero {c b : Nat} {n : Byte} (h : delayCount c b = some n) : n ≠ 0x00#8 := by
  intro h0
  have ht := delayCount_toNat h
  obtain ⟨⟨_, _, h1, _⟩, _⟩ := delayCount_eq_some.1 h
  subst h0; simp at ht; omega

/-- INIT faults, succeeds or reports a bad configuration (R143). -/
theorem execInit_cases (s : State) :
    (s.line = .ready ∧ execInit s = .next (raiseFault .reInit s)) ∨
    (s.line ≠ .ready ∧ ∃ n, delayCount s.params.clkHz s.params.baud = some n ∧ execInit s = .next (initSucceed n s)) ∨
    (s.line ≠ .ready ∧ delayCount s.params.clkHz s.params.baud = none ∧ execInit s = .next (initFail s)) := by
  unfold execInit
  split
  · exact .inl ⟨‹_›, rfl⟩
  · right; split
    · exact .inl ⟨‹_›, _, ‹_›, rfl⟩
    · exact .inr ⟨‹_›, ‹_›, rfl⟩

/-- RDB checks LINE unless it is a re-poll, then polls (R252). -/
theorem execRdb_cases (s : State) :
    (inPoll s = false ∧ s.line ≠ .ready ∧ execRdb s = .next (raiseFault .notInit s)) ∨
    ((inPoll s = true ∨ s.line = .ready) ∧ s.occ = 0#7 ∧ execRdb s = .next { s with ms := .inRdb (s.now + 1) }) ∨
    ((inPoll s = true ∨ s.line = .ready) ∧ s.occ ≠ 0#7 ∧ execRdb s = .next (complete (popResult s))) := by
  unfold execRdb pollRdb
  by_cases hp : inPoll s = true <;> by_cases hl : s.line = .ready <;> by_cases ho : s.occ = 0#7 <;>
    simp [hp, hl, ho, requireReady]

/-- Every command that answers next either raises a fault and changes nothing else, or acts as its rule says. -/
theorem exec_cases {i : Instr} {s t : State} (h : exec i s = .next t) :
    (∃ c, t = raiseFault c s) ∨
    (i = .init ∧ s.line ≠ .ready ∧ ((∃ n, delayCount s.params.clkHz s.params.baud = some n ∧ t = initSucceed n s) ∨
      (delayCount s.params.clkHz s.params.baud = none ∧ t = initFail s))) ∨
    (i = .waitq ∧ s.line = .ready ∧ t = { s with ms := .inWaitq (s.now + 1) }) ∨
    (i = .ei ∧ t = complete { s with ie := true }) ∨
    (i = .di ∧ t = complete { s with ie := false }) ∨
    (∃ b, i = .txb b ∧ s.line = .ready ∧
      t = { s with txl := some .L, ie := false, txs := .busy s.now (~~~b) s.ie, ms := .inTxb }) ∨
    (i = .rdnb ∧ s.line = .ready ∧ s.occ = 0#7 ∧ t = complete (result sentinel s)) ∨
    ((i = .rdnb ∨ i = .rdb) ∧ (inPoll s = true ∨ s.line = .ready) ∧ s.occ ≠ 0#7 ∧ t = complete (popResult s)) ∨
    (i = .rdb ∧ (inPoll s = true ∨ s.line = .ready) ∧ s.occ = 0#7 ∧ t = { s with ms := .inRdb (s.now + 1) }) ∨
    (i = .rdovf ∧ s.line = .ready ∧ t = complete (result s.ovfCnt s)) := by
  by_cases hl : s.line = .ready
  · cases i with
    | init =>
      rcases execInit_cases s with ⟨_, he⟩ | ⟨hn, _⟩ | ⟨hn, _⟩
      · exact .inl ⟨_, (Host.Outcome.next.inj (he.symm.trans h)).symm⟩
      · exact absurd hl hn
      · exact absurd hl hn
    | waitq =>
      simp only [exec, execWaitq, requireReady_ready hl, Host.Outcome.next.injEq] at h
      subst h; simp [hl]
    | ei => simp only [exec, execEi, Host.Outcome.next.injEq] at h; subst h; simp
    | di => simp only [exec, execDi, Host.Outcome.next.injEq] at h; subst h; simp
    | txb b =>
      simp only [exec, execTxb, requireReady_ready hl, Host.Outcome.next.injEq] at h
      subst h; simp [hl, drive]
    | rdnb =>
      simp only [exec, execRdnb, requireReady_ready hl] at h
      split at h <;> (injection h with h; subst h; simp [*])
    | rdb =>
      rcases execRdb_cases s with ⟨_, hn, _⟩ | ⟨hp, ho, he⟩ | ⟨hp, ho, he⟩
      · exact absurd hl hn
      · obtain rfl := Host.Outcome.next.inj (he.symm.trans h); simp [ho, hl]
      · obtain rfl := Host.Outcome.next.inj (he.symm.trans h); simp [ho, hl]
    | rdovf =>
      simp only [exec, execRdovf, requireReady_ready hl, Host.Outcome.next.injEq] at h
      subst h; simp [hl]
  · cases i with
    | init =>
      rcases execInit_cases s with ⟨hr, _⟩ | ⟨_, n, hd, he⟩ | ⟨_, hd, he⟩
      · exact absurd hr hl
      · obtain rfl := Host.Outcome.next.inj (he.symm.trans h); exact .inr (.inl ⟨rfl, hl, .inl ⟨n, hd, rfl⟩⟩)
      · obtain rfl := Host.Outcome.next.inj (he.symm.trans h); exact .inr (.inl ⟨rfl, hl, .inr ⟨hd, rfl⟩⟩)
    | waitq =>
      simp only [exec, execWaitq, requireReady_not hl, Host.Outcome.next.injEq] at h; exact .inl ⟨_, h.symm⟩
    | ei => simp only [exec, execEi, Host.Outcome.next.injEq] at h; subst h; simp
    | di => simp only [exec, execDi, Host.Outcome.next.injEq] at h; subst h; simp
    | txb b =>
      simp only [exec, execTxb, requireReady_not hl, Host.Outcome.next.injEq] at h; exact .inl ⟨_, h.symm⟩
    | rdnb =>
      simp only [exec, execRdnb, requireReady_not hl, Host.Outcome.next.injEq] at h; exact .inl ⟨_, h.symm⟩
    | rdb =>
      rcases execRdb_cases s with ⟨_, _, he⟩ | ⟨hp, ho, he⟩ | ⟨hp, ho, he⟩
      · exact .inl ⟨_, (Host.Outcome.next.inj (he.symm.trans h)).symm⟩
      · obtain rfl := Host.Outcome.next.inj (he.symm.trans h)
        simp [ho, hp.resolve_right hl]
      · obtain rfl := Host.Outcome.next.inj (he.symm.trans h)
        simp [ho, hp.resolve_right hl]
    | rdovf =>
      simp only [exec, execRdovf, requireReady_not hl, Host.Outcome.next.injEq] at h; exact .inl ⟨_, h.symm⟩

/-- No meaning stops the machine. -/
theorem exec_answers (i : Instr) (s : State) : ∃ t, exec i s = .next t := by
  cases i with
  | init => rcases execInit_cases s with ⟨_, h⟩ | ⟨_, _, _, h⟩ | ⟨_, _, h⟩ <;> exact ⟨_, h⟩
  | waitq => simp only [exec, execWaitq, requireReady]; split <;> exact ⟨_, rfl⟩
  | ei => exact ⟨_, rfl⟩
  | di => exact ⟨_, rfl⟩
  | txb b => simp only [exec, execTxb, requireReady]; split <;> exact ⟨_, rfl⟩
  | rdnb => simp only [exec, execRdnb, requireReady]; split <;> (try split) <;> exact ⟨_, rfl⟩
  | rdb => rcases execRdb_cases s with ⟨_, _, h⟩ | ⟨_, _, h⟩ | ⟨_, _, h⟩ <;> exact ⟨_, h⟩
  | rdovf => simp only [exec, execRdovf, requireReady]; split <;> exact ⟨_, rfl⟩

/-- A command that leaves MS at AT_CMD without a fault has completed: CP advanced by 1, the stream as before. -/
theorem exec_completed {i : Instr} {s t : State} (h : exec i s = .next t) (hc : completedNow t = true) :
    t.cp = s.cp + 1 ∧ t.stream = s.stream := by
  simp only [completedNow, Bool.and_eq_true, decide_eq_true_eq] at hc
  rcases exec_cases h with ⟨c, rfl⟩ | ⟨_, _, ⟨n, _, rfl⟩ | ⟨_, rfl⟩⟩ | ⟨_, _, rfl⟩ | ⟨_, rfl⟩ | ⟨_, rfl⟩ | ⟨b, _, _, rfl⟩ |
    ⟨_, _, _, rfl⟩ | ⟨_, _, _, rfl⟩ | ⟨_, _, _, rfl⟩ | ⟨_, _, rfl⟩
  · exact absurd hc.1 (raiseFault_fault_ne_zero c s)
  · exact ⟨rfl, rfl⟩
  · exact ⟨rfl, rfl⟩
  · exact absurd hc.2 (by simp)
  · exact ⟨rfl, rfl⟩
  · exact ⟨rfl, rfl⟩
  · exact absurd hc.2 (by simp)
  · exact ⟨rfl, rfl⟩
  · exact ⟨rfl, rfl⟩
  · exact absurd hc.2 (by simp)
  · exact ⟨rfl, rfl⟩

end Sys2Proof.Machine
end

