-- ==== Sys2Proof/Laws/Boundary.lean ====
section
/-! SUPPORT. The steps of a boundary: what fetching can answer, and the induction over B5's loop, packaged once. -/

namespace Sys2Proof.Machine

/-- Fetch and execute answers DONE, the illegal-word fault, or what the decoded command answers. -/
theorem fetchExec_cases (s : State) :
    (fetch s = none ∧ fetchExec s = .next { s with ms := .done }) ∨
    (∃ w, fetch s = some w ∧ decodeWord w = .illegal ∧ fetchExec s = .next (raiseFault .illegalOp s)) ∨
    (∃ w i, fetch s = some w ∧ decodeWord w = .cmd i ∧ fetchExec s = exec i s) := by
  unfold fetchExec
  cases hf : fetch s with
  | none => exact .inl ⟨rfl, rfl⟩
  | some w =>
    right
    cases hd : decodeWord w with
    | illegal => exact .inl ⟨w, rfl, hd, by simp [hd]⟩
    | cmd i => exact .inr ⟨w, i, rfl, hd, by simp [hd]⟩

/-- What is true when B5's loop begins and is kept by a command, a re-poll, a fault of an illegal word, the end of the
stream and a B4 evaluation, is true when the loop ends. -/
theorem mainLoop_keeps (P : State → Prop)
    (hcmd : ∀ i s t, P s → mainRuns s = true → s.ms = .atCmd → exec i s = .next t → P t)
    (hpoll : ∀ te s t, P s → mainRuns s = true → s.ms = .inRdb te → te ≤ s.now → exec .rdb s = .next t → P t)
    (hill : ∀ s, P s → mainRuns s = true → s.ms = .atCmd → P (raiseFault .illegalOp s))
    (hdone : ∀ s, P s → mainRuns s = true → s.ms = .atCmd → fetch s = none → P { s with ms := .done })
    (hentry : ∀ s, P s → completedNow s = true → P (interruptEntry s)) :
    ∀ fuel s t, P s → mainLoop fuel s = .next t → P t := by
  intro fuel
  induction fuel with
  | zero => intro s t hs h; obtain rfl := Host.Outcome.next.inj h; exact hs
  | succ fuel ih =>
    intro s t hs h
    have hgo : ∀ u, P u → (if completedNow u then mainLoop fuel (interruptEntry u) else .next u) = .next t → P t := by
      intro u hu h
      split at h
      · exact ih _ _ (hentry u hu ‹_›) h
      · obtain rfl := Host.Outcome.next.inj h; exact hu
    simp only [mainLoop] at h
    split at h
    · rename_i hr
      split at h
      · rename_i hm
        obtain ⟨u, hu, h⟩ := andThen_eq_next.1 h
        refine hgo u ?_ h
        rcases fetchExec_cases s with ⟨hf, he⟩ | ⟨w, _, _, he⟩ | ⟨w, i, _, _, he⟩
        · obtain rfl := Host.Outcome.next.inj (he.symm.trans hu); exact hdone s hs hr hm hf
        · obtain rfl := Host.Outcome.next.inj (he.symm.trans hu); exact hill s hs hr hm
        · exact hcmd i s u hs hr hm (he ▸ hu)
      · rename_i te hm
        split at h
        · obtain ⟨u, hu, h⟩ := andThen_eq_next.1 h
          exact hgo u (hpoll te s u hs hr hm ‹_› hu) h
        · obtain rfl := Host.Outcome.next.inj h; exact hs
      · obtain rfl := Host.Outcome.next.inj h; exact hs
      · obtain rfl := Host.Outcome.next.inj h; exact hs
      · obtain rfl := Host.Outcome.next.inj h; exact hs
    · obtain rfl := Host.Outcome.next.inj h; exact hs

/-- Fetching and executing never stops the machine. -/
theorem fetchExec_answers (s : State) : ∃ t, fetchExec s = .next t := by
  rcases fetchExec_cases s with ⟨_, h⟩ | ⟨_, _, _, h⟩ | ⟨_, i, _, _, h⟩
  · exact ⟨_, h⟩
  · exact ⟨_, h⟩
  · obtain ⟨t, ht⟩ := exec_answers i s; exact ⟨t, h.trans ht⟩

/-- B5's loop does nothing where it may not run. -/
theorem mainLoop_idle {s : State} (h : mainRuns s = false) (fuel : Nat) : mainLoop fuel s = .next s := by
  cases fuel with
  | zero => rfl
  | succ fuel => simp [mainLoop, h]

/-- B5's loop stops at once where MAIN is inside a timed command or done. -/
theorem mainLoop_busy {s : State} (h : s.ms = .inTxb ∨ s.ms = .done ∨ isWaiting s = true) (fuel : Nat) :
    mainLoop fuel s = .next s := by
  cases fuel with
  | zero => rfl
  | succ fuel =>
    simp only [mainLoop]
    rcases h with h | h | h
    · simp [h]
    · simp [h]
    · unfold isWaiting at h
      split at h <;> simp_all

/-- What a fault leaves of ARMED is settled once: without one nothing changes, and doing it again changes nothing. -/
theorem disarmAfterFault_live {s : State} (h : s.fault = 0x00#8) : disarmAfterFault s = s := by
  simp [disarmAfterFault, h]

theorem disarmAfterFault_cases (s : State) :
    ∃ a, disarmAfterFault s = { s with armed := a } ∧ (a = true → s.armed = true) ∧ (s.fault = 0x00#8 → a = s.armed) := by
  unfold disarmAfterFault
  split
  · exact ⟨s.armed, rfl, id, fun _ => rfl⟩
  · rename_i h
    exact ⟨_, rfl, by simp +contextual, fun h' => absurd h' h⟩

theorem disarmAfterFault_idem (s : State) (p : Bool) (n : Nat) :
    disarmAfterFault { disarmAfterFault s with pend := p, draws := n } =
      { disarmAfterFault s with pend := p, draws := n } := by
  unfold disarmAfterFault
  split
  · simp [*]
  · simp [*]

/-- `liveBoundary`, the full R52, does on a halted block what `haltedBoundary` does. -/
theorem liveBoundary_halted {s : State} (h : s.fault ≠ 0x00#8) : liveBoundary s = .next (haltedBoundary s) := by
  have h1 : beforeEdge s = disarmAfterFault s := by simp [beforeEdge, receiverProgress, mainProgress, h]
  obtain ⟨p, n, hd, _⟩ := detectEdge_cases (disarmAfterFault s)
  obtain ⟨a, ha, _⟩ := disarmAfterFault_cases s
  have hf : (detectEdge (disarmAfterFault s)).fault ≠ 0x00#8 := by rw [hd, ha]; exact h
  have h2 : beforeMain s = detectEdge (disarmAfterFault s) := by simp [beforeMain, h1, interruptEntry, hf]
  have hr : mainRuns (detectEdge (disarmAfterFault s)) = false := by simp [mainRuns, hf]
  have he : edgeNow (detectEdge (disarmAfterFault s)) = edgeNow (disarmAfterFault s) := by rw [hd]; rfl
  have ho : ownEdge (disarmAfterFault s) (detectEdge (disarmAfterFault s)) = detectEdge (disarmAfterFault s) := by
    unfold ownEdge; rw [he]; simp
  simp only [liveBoundary, h2, mainLoop_idle hr, andThen_next, afterMain, h1, ho, haltedBoundary]
  rw [hd, disarmAfterFault_idem]

/-- What B1 writes: the accumulator, what PUSH writes, and IE and RXS at the return (R207, R209). -/
theorem receiverProgress_frame (s : State) : ∃ acc rb w r occ ovfCnt fault ie rxs, receiverProgress s = { s with
    acc := acc, rb := rb, w := w, r := r, occ := occ, ovfCnt := ovfCnt, fault := fault, ie := ie, rxs := rxs } := by
  have hs : sampleStep s = { s with acc := (sampleStep s).acc } := by unfold sampleStep; split <;> rfl
  unfold receiverProgress
  split
  · dsimp only
    split
    · unfold completeReception
      dsimp only
      rw [push_frame, hs]
      split
      · exact ⟨_, _, _, _, _, _, _, _, _, rfl⟩
      · exact ⟨_, _, _, _, _, _, _, _, _, rfl⟩
    · rw [hs]; exact ⟨_, _, _, _, _, _, _, _, _, rfl⟩
  · exact ⟨_, _, _, _, _, _, _, _, _, rfl⟩

/-- What B2 writes: IE, TX, the transmitter, MS and CP (R146, R172). -/
theorem mainProgress_frame (s : State) : ∃ ie txl txs ms cp, mainProgress s = { s with
    ie := ie, txl := txl, txs := txs, ms := ms, cp := cp } := by
  unfold mainProgress
  split
  · exact ⟨_, _, _, _, _, rfl⟩
  · split
    · unfold waitqBoundary; split <;> exact ⟨_, _, _, _, _, rfl⟩
    · unfold txBoundary
      split
      · exact ⟨_, _, _, _, _, rfl⟩
      · split
        · exact ⟨_, _, _, _, _, rfl⟩
        · split
          · exact ⟨_, _, _, _, _, rfl⟩
          · split <;> exact ⟨_, _, _, _, _, rfl⟩
    · exact ⟨_, _, _, _, _, rfl⟩
    · exact ⟨_, _, _, _, _, rfl⟩
    · exact ⟨_, _, _, _, _, rfl⟩

/-- What B4 writes: PEND, IE, RX_SIE, the receiver's state, t_r and the draw counter (R53, R205). -/
theorem interruptEntry_frame (s : State) : ∃ pend ie rxSie rxs t0 acc tr draws, interruptEntry s = { s with
    pend := pend, ie := ie, rxSie := rxSie, rxs := rxs, t0 := t0, acc := acc, tr := tr, draws := draws } := by
  rcases interruptEntry_cases s with ⟨_, h⟩ | ⟨_, _, h⟩ | ⟨_, _, q, m, h⟩ | ⟨_, _, _, h⟩
  · exact ⟨_, _, _, _, _, _, _, _, h⟩
  · exact ⟨_, _, _, _, _, _, _, _, h⟩
  · rcases enterReceiver_cases { s with tr := q, draws := m } with ⟨_, h'⟩ | ⟨_, h'⟩
    · exact ⟨_, _, _, _, _, _, _, _, h.trans h'⟩
    · exact ⟨_, _, _, _, _, _, _, _, h.trans h'⟩
  · exact ⟨_, _, _, _, _, _, _, _, h⟩

/-- What B1 and B2 leave alone: the launch, the clock, TX's history, LINE and DLY and OUT, and ARMED unless a fault is
recorded. -/
theorem beforeEdge_keeps (s : State) :
    SameLaunch s (beforeEdge s) ∧ (beforeEdge s).now = s.now ∧ (beforeEdge s).txHist = s.txHist ∧
      ((beforeEdge s).line = s.line ∧ (beforeEdge s).dly = s.dly) ∧ (beforeEdge s).out = s.out ∧
      ((beforeEdge s).fault = 0x00#8 → (beforeEdge s).armed = s.armed) := by
  obtain ⟨_, _, _, _, _, _, _, _, _, h1⟩ := receiverProgress_frame s
  obtain ⟨_, _, _, _, _, h2⟩ := mainProgress_frame (receiverProgress s)
  obtain ⟨a, h3, -, ha⟩ := disarmAfterFault_cases (mainProgress (receiverProgress s))
  rw [h2, h1] at ha h3
  rw [beforeEdge, h2, h1, h3]
  exact ⟨⟨rfl, rfl, rfl⟩, rfl, rfl, ⟨rfl, rfl⟩, rfl, ha⟩

/-- What B3 and B4 leave alone of what B1 and B2 left. -/
theorem beforeMain_keeps (s : State) :
    SameLaunch (beforeEdge s) (beforeMain s) ∧ (beforeMain s).now = (beforeEdge s).now ∧
      (beforeMain s).txHist = (beforeEdge s).txHist ∧ SameLine (beforeEdge s) (beforeMain s) ∧
      (beforeMain s).txl = (beforeEdge s).txl ∧ (beforeMain s).txs = (beforeEdge s).txs ∧
      (beforeMain s).ms = (beforeEdge s).ms ∧ (beforeMain s).cp = (beforeEdge s).cp ∧
      (beforeMain s).out = (beforeEdge s).out ∧ (beforeMain s).fault = (beforeEdge s).fault := by
  obtain ⟨p, n, h1, -⟩ := detectEdge_cases (beforeEdge s)
  obtain ⟨_, _, _, _, _, _, _, _, h2⟩ := interruptEntry_frame (detectEdge (beforeEdge s))
  rw [beforeMain, h2, h1]
  exact ⟨⟨rfl, rfl, rfl⟩, rfl, rfl, ⟨rfl, rfl, rfl⟩, rfl, rfl, rfl, rfl, rfl, rfl⟩

/-- A halted block stays halted (R302). -/
theorem haltedBoundary_fault (s : State) : (haltedBoundary s).fault = s.fault := by
  obtain ⟨p, n, he, -⟩ := detectEdge_cases (disarmAfterFault s)
  obtain ⟨a, ha, -⟩ := disarmAfterFault_cases s
  rw [haltedBoundary, he, ha, tick]

/-- One boundary of a run to its observation point (R54). -/
theorem observeRun_succ {s t : State} (n : Nat) (h : step s = .next t) : observeRun (n + 1) s =
    if t.fault = 0x00#8 && !atObservationPoint t then observeRun n t else observe t := by
  simp only [observeRun, h]

end Sys2Proof.Machine
end

