-- ==== Sys2Proof/Laws/PerInstr.lean ====
section
/-! SUPPORT. OpcodeRow: every command is well formed and its word lies in its row of the opcode table, said per command
(spec/30_encoding.md R103). -/

namespace Sys2Proof.Laws.OpcodeRow

/-- The command is well formed, its row is one of the table's, and the row selects its word. -/
def Statement (i : Instr) : Prop := i.wf = true ∧ i.row ∈ opcodeRows ∧ i.row.selects (encode i) = true

theorem init : Statement .init := by unfold Statement; decide
theorem waitq : Statement .waitq := by unfold Statement; decide
theorem ei : Statement .ei := by unfold Statement; decide
theorem di : Statement .di := by unfold Statement; decide

theorem txb (b : Byte) : Statement (.txb b) := by
  refine ⟨rfl, List.mem_of_getElem? (i := 4) rfl, ?_⟩
  have h : (encode (.txb b)) &&& 0xFF00#16 = 0x1000#16 := by
    simp only [encode, mkWord]
    ext i hi
    simp only [BitVec.getElem_and, BitVec.getElem_append]
    interval_cases i <;> simp
  exact decide_eq_true h

theorem rdnb : Statement .rdnb := by unfold Statement; decide
theorem rdb : Statement .rdb := by unfold Statement; decide
theorem rdovf : Statement .rdovf := by unfold Statement; decide

end Sys2Proof.Laws.OpcodeRow
end

