-- ==== Sys2Proof/Tests/Slice0.lean ====
section
/-! SUPPORT. Tests: words written out from spec/30_encoding.md, the worked vectors of spec/95_test_vectors.md (one step or one
operation each), the refused ill-formed terms, and a witness for the hypotheses of every statement. -/

namespace Sys2Proof.Tests

open Sys2Proof Sys2Proof.Machine

/-- The next state of an outcome, if it has one. -/
def next? : Host.Outcome State Fault Refusal → Option State
  | .next s => some s
  | .fault _ => none
  | .refused _ => none

theorem of_next? {o : Host.Outcome State Fault Refusal} {p : State → Bool} (h : (next? o).any p = true) :
    ∃ t, o = .next t ∧ p t = true := by
  cases o with
  | next s => exact ⟨s, rfl, by simpa [next?] using h⟩
  | fault _ => simp [next?] at h
  | refused _ => simp [next?] at h

/-! Small states. The masked-edge policy is `latch`, so that no test meets a free value. -/

def params : Params := { Params.default with maskedEdge := .latch }

/-- Right after reset, with a stream. -/
def fresh (ws : List Word) : State := State.launch params ws []

/-- READY at boundary 8 with RX at H until tick 7 and the given levels from tick 8 on. -/
def ready (ws : List Word) (rx : List Level) : State :=
  { State.launch params ws (List.replicate 8 .H ++ rx) with
    now := 8, line := .ready, dly := 0x1F#8, armed := true, txl := some .H, txHist := List.replicate 8 (some .H),
    ms := if ws = [] then .done else .atCmd }

/-- READY with n unread bytes, all 0x41, from index 60 on. -/
def filled (n : Nat) : State :=
  { ready [] [.H] with
    rb := (List.range 64).map (fun i => (i, 0x41#8)), r := 60#6, occ := BitVec.ofNat 7 n, w := 60#6 + BitVec.ofNat 6 n }

/-- In a reception that began at boundary 7, MAIN spinning in an RDB. -/
def receiving (rx : List Level) : State :=
  { ready [0x2001#16] rx with rxs := .sampling, t0 := 7, rxSie := true, ms := .inRdb 8 }

/-- At the completion boundary of a reception of 0x5A, MAIN spinning in an RDB. -/
def completing : State :=
  { ready [0x2001#16] [.H] with
    rxs := .sampling, acc := 0x5A#8, rxSie := true, ms := .inRdb 8, now := 36, rxIn := List.replicate 37 .H,
    txHist := List.replicate 36 (some .H) }

/-- About to issue a TXB on a shared wire. -/
def shared (policy : MaskedEdgePolicy) : State :=
  { ready [0x1041#16] [.H] with params := { params with wiring := .shared, maskedEdge := policy } }

/-- In a TXB that began at boundary `ts`. -/
def sending (ts : Nat) : State :=
  { ready [0x1041#16] [.H] with txs := .busy ts 0x00#8 true, ms := .inTxb, txl := some .H }

/-! Decoding: words written out bit by bit (R103). -/

theorem test_decode_init : decodeWord 0b0000000100000000#16 = .cmd .init := by decide
theorem test_decode_waitq : decodeWord 0b0000001000000000#16 = .cmd .waitq := by decide
theorem test_decode_ei : decodeWord 0b0000001100000000#16 = .cmd .ei := by decide
theorem test_decode_di : decodeWord 0b0000010000000000#16 = .cmd .di := by decide
theorem test_decode_txb : decodeWord 0b0001000001000001#16 = .cmd (.txb 0b01000001#8) := by decide
theorem test_decode_rdnb : decodeWord 0b0010000000000000#16 = .cmd .rdnb := by decide
theorem test_decode_rdb : decodeWord 0b0010000000000001#16 = .cmd .rdb := by decide
theorem test_decode_rdovf : decodeWord 0b0010000100000000#16 = .cmd .rdovf := by decide

/-- Part 2.1 of the vectors. -/
theorem test_decode_illegal :
    decodeWord 0x0500#16 = .illegal ∧ decodeWord 0x0F00#16 = .illegal ∧ decodeWord 0x1100#16 = .illegal ∧
      decodeWord 0x2080#16 = .illegal ∧ decodeWord 0xFFFF#16 = .illegal := by decide

/-- OP first (D28). -/
theorem test_decode_bytes : decodeBytes [0x10#8, 0x41#8, 0x03#8] = .cmd (.txb 0x41#8) [0x03#8] := by decide
theorem test_decode_truncated : decodeBytes [0x10#8] = .truncated := by decide
theorem test_decodeTableWord : decodeTableWord 16 0x10FF = some (.txb 0xFF#8) ∧ decodeTableWord 16 0x1100 = none := by decide

/-! Ill-formed terms are refused, one per check. -/

theorem test_wf_refuses_clock_zero : ({ params with clkHz := 0 } : Params).wf = false := by decide
theorem test_wf_refuses_int_too_big : (Pseudo.txInt 32768).wf params = false ∧ (Pseudo.txInt (-32769)).wf params = false := by
  decide
theorem test_wf_refuses_float_too_big : (Pseudo.txFlt (2 ^ 32)).wf params = false := by decide

/-! Vectors, one operation each. -/

/-- V-INIT1, V-INIT14 to V-INIT18. -/
theorem test_delay_counts :
    delayCount 8000000 19200 = some 31#8 ∧ delayCount 50 1 = none ∧ delayCount 51 1 = some 1#8 ∧
      delayCount 3110 1 = some 255#8 ∧ delayCount 3111 1 = none ∧ delayCount 38 1 = none ∧ delayCount 8000000 0 = none := by
  decide

/-- V-INIT8 and V-INIT4, the window of R152. -/
theorem test_baud_window :
    inBaudWindow { params with baud := 115200 } 2#8 = false ∧
      inBaudWindow { params with clkHz := 1000000 } 1#8 = true := by decide

/-- V-INIT1, as the first step after reset. -/
theorem test_step_init : (next? (step (fresh [0x0100#16]))).any
    (fun t => t.line == .ready && t.dly == 31#8 && t.txl == some .H && t.out == [0#16] && t.ms == .done) = true := by decide

/-- V-INIT20. -/
theorem test_step_init_twice : (next? (step (fresh [0x0100#16, 0x0100#16]))).any
    (fun t => t.fault == 0x03#8 && t.cp == 1 && t.out == [0#16]) = true := by decide

/-- V-F3. -/
theorem test_step_illegal : (next? (step (fresh [0x0100#16, 0x0000#16, 0x0300#16]))).any
    (fun t => t.fault == 0x01#8 && t.cp == 1 && t.ie == false && t.txl == some .H) = true := by decide

/-- V-IE1. -/
theorem test_step_ei_di_ei : (next? (step (fresh [0x0300#16, 0x0400#16, 0x0300#16]))).any
    (fun t => t.ie && t.fault == 0#8 && atObservationPoint t) = true := by decide

/-- D37: a fault ends ARMED, and with it the edge that follows sets no PEND. -/
theorem test_fault_ends_armed :
    (next? (step (ready [0x0000#16] [.H]))).any (fun t => t.fault == 0x01#8 && !t.armed) = true ∧
    (next? (step { ready [] [.L] with fault := 0x01#8 })).any (fun t => !t.armed && !t.pend) = true := by decide

/-- V-WQ1. -/
theorem test_step_waitq_not_ready : (next? (step (fresh [0x0200#16]))).any
    (fun t => t.fault == 0x02#8 && t.cp == 0) = true := by decide

/-- P1, its boundary 0. -/
theorem test_step_p1 : (next? (step (fresh [0x0100#16, 0x0300#16, 0x1041#16]))).any
    (fun t => t.txl == some .L && t.ie == false && t.txs == .busy 0 0xBE#8 true && t.cp == 2) = true := by decide

/-- V-TX3 in detail: boundary 4, carry 0, c = 0x5F, H. -/
theorem test_tx_data_step : txDataStep 0 0xBE#8 false (fresh []) =
    { fresh [] with txs := .busy 0 0x5F#8 false, txl := some .H } := by decide

/-- V-TX3, the ten cells of 0x41. -/
theorem test_frame_41 : (List.range 10).map (fun j => frame 0x41#8 (4 * j)) =
    [.L, .H, .L, .L, .L, .L, .L, .H, .L, .H] := by decide

/-- V-RX1, the samples of 0x5A. -/
theorem test_samples_5a :
    byteOfSamples (fun k => [Level.L, .H, .L, .H, .H, .L, .H, .L].getD k .H) = 0x5A#8 := by decide

/-- V-RB1. -/
theorem test_push_wraps :
    let s := push 0x41#8 { fresh [] with w := 63#6, r := 58#6, occ := 5#7 }
    s.w = 0#6 ∧ s.occ = 6#7 ∧ s.r = 58#6 ∧ memRead s 63#6 = 0x41#8 := by decide

/-- V-RB8. -/
theorem test_push_saturates :
    let s := push 0x12#8 { filled 64 with ovfCnt := 0xFFFF#16 }
    s.ovfCnt = 0xFFFF#16 ∧ s.w = 61#6 ∧ s.r = 61#6 ∧ s.occ = 64#7 := by decide

/-- V-RB4. -/
theorem test_rdnb_ff : (next? (exec .rdnb { ready [] [.H] with rb := [(0, 0xFF#8)], w := 1#6, occ := 1#7 })).any
    (fun t => t.out == [0x00FF#16] && t.occ == 0#7 && t.r == 1#6) = true := by decide

/-- V-RB3. -/
theorem test_rdnb_empty : (next? (exec .rdnb (ready [] [.H]))).any
    (fun t => t.out == [0xFFFF#16] && t.occ == 0#7 && t.r == 0#6) = true := by decide

/-- P2, its boundary 56: the push, the return, the poll and DONE in one step. -/
theorem test_step_completion : (next? (step completing)).any
    (fun t => t.out == [0x005A#16] && t.rb == [(0, 0x5A#8)] && t.w == 1#6 && t.r == 1#6 && t.ie && t.ms == .done) = true := by
  decide

/-- V-RB11. -/
theorem test_rdovf : (next? (exec .rdovf { ready [] [.H] with ovfCnt := 3#16 })).any
    (fun t => t.out == [0x0003#16] && t.ovfCnt == 3#16) = true := by decide

/-- V-INT2, V-INT5, V-STR3, V-LINE1. -/
theorem test_helpers :
    dec (-1) = [0x2D#8, 0x31#8] ∧ dec (-32768) = [0x2D#8, 0x33#8, 0x32#8, 0x37#8, 0x36#8, 0x38#8] ∧
      strCommands [0x41#8, 0x00#8, 0x42#8] = [.txb 0x41#8] ∧
      (Pseudo.txLine [0x48#8, 0x69#8]).expand params = [.txb 0x48#8, .txb 0x69#8, .txb 0x0A#8] := by decide

/-- V-FLT1, "   3.14159". -/
theorem test_float_pi : fmt10_5 .binary32 0x40490FD0 =
    [0x20#8, 0x20#8, 0x20#8, 0x33#8, 0x2E#8, 0x31#8, 0x34#8, 0x31#8, 0x35#8, 0x39#8] := by decide

/-- V-FLT7, "-12345.67773". -/
theorem test_float_wide : fmt10_5 .binary32 0xC640E6B6 =
    [0x2D#8, 0x31#8, 0x32#8, 0x33#8, 0x34#8, 0x35#8, 0x2E#8, 0x36#8, 0x37#8, 0x37#8, 0x37#8, 0x33#8] := by decide

/-- R113: a label, lower case, a literal `;` and a comment. -/
theorem test_assemble : assembleLine params ['a', ':', ' ', 't', 'x', 'b', ' ', '\'', ';', '\'', ' ', ';', 'x'] =
    some [0x103B#16] := by decide

/-- P4: the line `TXLINE "Hi" ; …`, and V-INT2 as a line. -/
theorem test_assemble_pseudo :
    assembleLine params ['T', 'X', 'L', 'I', 'N', 'E', ' ', '"', 'H', 'i', '"', ' ', ';', 'x'] =
      some [0x1048#16, 0x1069#16, 0x100A#16] ∧
    assembleLine params ['T', 'X', 'I', 'N', 'T', ' ', '-', '1'] = some [0x102D#16, 0x1031#16] := by decide

/-- V-STR3, the line `TXSTR "A\0B"`: 0x41 only. -/
theorem test_assemble_nul :
    assembleLine params ['T', 'X', 'S', 'T', 'R', ' ', '"', 'A', '\\', '0', 'B', '"'] = some [0x1041#16] := by decide

/-- Outside the syntax: an operand too big for INT_BITS, and a string that does not end. -/
theorem test_assemble_refuses :
    assembleLine params ['T', 'X', 'I', 'N', 'T', ' ', '3', '2', '7', '6', '8'] = none ∧
    assembleLine params ['T', 'X', 'S', 'T', 'R', ' ', '"', 'H'] = none := by decide

/-- IEEE-754's binary128 has 15 exponent bits, binary256 has 19. -/
theorem test_wide_formats : FloatFmt.wide 128 = ⟨15, 112⟩ ∧ FloatFmt.wide 256 = ⟨19, 236⟩ := by decide

theorem test_wf_refuses_format_without_fields : (⟨1, 10⟩ : FloatFmt).wf = false ∧ (⟨5, 0⟩ : FloatFmt).wf = false ∧
    (FloatFmt.wide 160).wf = true := by decide

/-- R54: the first observation point comes after a boundary, and an RDB with no byte has none. -/
theorem test_observe_run : observeRun 0 (fresh []) = .refused .notAtObservationPoint ∧
    (observeRun 9 { ready [0x2001#16] [.H] with rxIn := List.replicate 20 .H } = .refused .notAtObservationPoint) :=
  ⟨rfl, rfl⟩

/-- D32: TX is undriven before INIT. -/
theorem test_read_tx_undriven : readTx { fresh [] with now := 1, txHist := [none] } 0 = .refused .txUndriven := rfl

/-! Memory in canonical form. -/

theorem test_memory_unsorted_not_wf : Memory.wf [(3, 0#8), (2, 0#8)] = false ∧ Memory.wf [(64, 0#8)] = false := by decide

/-! Witnesses: for each statement, a state and operands that meet all its hypotheses. -/

theorem starts_txb : StartsCommand (ready [0x1041#16] [.H]) (.txb 0x41#8) :=
  ⟨by decide, by decide, 0x1041#16, by decide, by decide⟩

theorem inv_receiving : Inv (receiving [.L, .L]) := by
  refine ⟨by decide, ⟨by decide, by decide⟩, ⟨by decide, by decide, by decide, by decide, by decide⟩, ?_, ?_, ?_, ?_, ?_⟩
  · show (receiving [.L, .L]).ms ≠ .inTxb; decide
  · intro _; decide
  · show _ ∧ _ ∧ _; decide
  · intro t h; cases h
  · decide

theorem inv_completing : Inv completing := by
  refine ⟨by decide, ⟨by decide, by decide⟩, ⟨by decide, by decide, by decide, by decide, by decide⟩, ?_, ?_, ?_, ?_, ?_⟩
  · show completing.ms ≠ .inTxb; decide
  · intro _; decide
  · show _ ∧ _ ∧ _; decide
  · intro t h; cases h
  · decide

theorem witness_RowsSelectTheDecodedCommand :
    Instr.rdb.row ∈ opcodeRows ∧ 0x2001#16 &&& Instr.rdb.row.mask = Instr.rdb.row.pattern := by decide

theorem witness_DecodingAndTheIllegalFault :
    (let s := fresh [0x2002#16]
     mainRuns (beforeMain s) = true ∧ (beforeMain s).ms = .atCmd ∧ fetch (beforeMain s) = some 0x2002#16) ∧
    (let u := { fresh [0x0300#16, 0x2002#16] with cp := 1, ie := true }; fetch u = some 0x2002#16) ∧
    decodeWord 0x2002#16 = .illegal := by decide

/-- B5 at a command; the loop at the end of the stream, at a command, at an illegal word, at a due re-poll, and ended. -/
theorem witness_StepRunsDecodedCommand :
    StartsCommand (ready [0x1041#16] [.H]) (.txb 0x41#8) ∧ (ready [0x1041#16] [.H]).fault = 0x00#8 ∧
    (let u := { ready [0x0300#16] [.H] with cp := 1 }
     mainRuns u = true ∧ u.ms = .atCmd ∧ u.stream.length ≤ u.cp) ∧
    (let u := ready [0x0300#16] [.H]
     mainRuns u = true ∧ u.ms = .atCmd ∧ fetch u = some 0x0300#16 ∧ decodeWord 0x0300#16 = .cmd .ei) ∧
    (let u := ready [0x2002#16] [.H]
     mainRuns u = true ∧ u.ms = .atCmd ∧ fetch u = some 0x2002#16 ∧ decodeWord 0x2002#16 = .illegal) ∧
    (let u := { ready [0x2001#16] [.H] with ms := .inRdb 8 }; mainRuns u = true ∧ u.ms = .inRdb 8 ∧ 8 ≤ u.now) ∧
    (mainRuns (receiving [.L]) = false ∧ (sending 3).ms = .inTxb ∧ (ready [] [.H]).ms = .done ∧
      isWaiting { ready [0x0200#16] [.H] with ms := .inWaitq 9 } = true ∧
      (let u := { ready [0x2001#16] [.H] with ms := .inRdb 9 }; u.ms = .inRdb 9 ∧ u.now < 9)) :=
  ⟨starts_txb, by decide⟩

theorem witness_QuietBoundaryStartsTheCommand : let s := ready [0x0200#16] [.H]
    s.fault = 0x00#8 ∧ s.rxs = .idle ∧ s.ms = .atCmd ∧ s.pend = false ∧ (s.armed && edgeNow s) = false ∧
      s.stream[s.cp]? = some 0x0200#16 ∧ decodeWord 0x0200#16 = .cmd .waitq := by decide

theorem witness_LoopHasEnoughFuel : let s := fresh [0x0300#16]; s.stream.length - s.cp + 2 ≤ 3 := by decide

theorem witness_EveryStepKeepsTheInvariant : ∃ s t, Inv s ∧ step s = .next t :=
  have ⟨t, h, _⟩ := of_next? (o := step completing) (p := fun _ => true) (by decide)
  ⟨_, t, inv_completing, h⟩

theorem witness_InitResult : ∃ s : State, ∃ q n, q = s.params.clkHz / s.params.baud ∧ n = (q - 39) / 12 :=
  ⟨fresh [], 416, 31, by decide, by decide⟩

/-- The bounds of the validity test: q = 39, 50, 51, 3110 and 3111. -/
theorem witness_ValidityTestOfTheDelayCount : 0 < 1 ∧ ∀ clk ∈ [39, 50, 51, 3110, 3111], 39 ≤ clk / 1 := by
  decide

theorem witness_WaitqTakesOneTick :
    (let s := { ready [0x0200#16] [.H] with ms := .inWaitq 8 }; s.fault = 0x00#8 ∧ s.ms = .inWaitq 8 ∧ s.now = 8) ∧
    (let s := ready [0x0200#16, 0x0200#16] [.H]
     s.fault = 0x00#8 ∧ s.rxs = .idle ∧ s.ms = .atCmd ∧ s.ie = false ∧ s.line = .ready ∧
      ∀ j < 2, s.stream[s.cp + j]? = some 0x0200#16) := by decide

/-- RX at L and at H. -/
theorem witness_EiSetsIeAndLetsAPendingEdgeIn :
    (let s := { ready [0x0300#16] [.L] with pend := true }
     StartsCommand s .ei ∧ (beforeMain s).ie = false ∧ (beforeMain s).pend = true ∧ s.params.isrLatMax = 0 ∧
      rxNow (beforeMain s) = .L) ∧
    (let s := { ready [0x0300#16] [.H] with pend := true }
     StartsCommand s .ei ∧ (beforeMain s).ie = false ∧ (beforeMain s).pend = true ∧ s.params.isrLatMax = 0 ∧
      rxNow (beforeMain s) = .H) :=
  ⟨⟨⟨by decide, by decide, 0x0300#16, by decide, by decide⟩, by decide, by decide, by decide, by decide⟩,
    ⟨by decide, by decide, 0x0300#16, by decide, by decide⟩, by decide, by decide, by decide, by decide⟩

/-- A TXB starts where B5 begins with it, and after an INIT of the same boundary. -/
theorem txb_starts :
    (∃ s1, TxbStarts (ready [0x1041#16] [.H]) s1 0x41#8 false) ∧
    ∃ s1, TxbStarts (fresh [0x0100#16, 0x1041#16]) s1 0x41#8 false := by
  have ⟨t, h, ht⟩ := of_next? (o := step (ready [0x1041#16] [.H])) (p := fun t => t.txs == .busy 8 0xBE#8 false) (by decide)
  have ⟨u, h', hu⟩ := of_next? (o := step (fresh [0x0100#16, 0x1041#16])) (p := fun t => t.txs == .busy 0 0xBE#8 false)
    (by decide)
  exact ⟨⟨t, h, eq_of_beq ht, .inr ⟨starts_txb, by decide⟩⟩, u, h', eq_of_beq hu,
    .inl (by simp [fresh, State.launch])⟩

theorem witness_TxbWaveform :
    (StartsCommand (ready [0x1041#16] [.H]) (.txb 0x41#8) ∧ (beforeMain (ready [0x1041#16] [.H])).line = .ready) ∧
    (∃ s1, TxbStarts (fresh [0x0100#16, 0x1041#16]) s1 0x41#8 false) ∧
    ∃ s t, s.txs = .idle ∧ s.txl = some .H ∧ step s = .next t ∧ t.txs = .idle :=
  have ⟨t, h, ht⟩ := of_next? (o := step (ready [] [.H])) (p := fun t => t.txs == .idle) (by decide)
  ⟨⟨starts_txb, by decide⟩, txb_starts.2, _, t, by decide, by decide, h, by simpa using ht⟩

theorem witness_TxbAtomicSection :
    (StartsCommand (ready [0x1041#16] [.H]) (.txb 0x41#8) ∧ (beforeMain (ready [0x1041#16] [.H])).line = .ready) ∧
    (∃ s1, TxbStarts (fresh [0x0100#16, 0x1041#16]) s1 0x41#8 false) ∧
    ∃ s t, s.line ≠ .ready ∧ exec (.txb 0x41#8) s = .next t :=
  ⟨⟨starts_txb, by decide⟩, txb_starts.2, fresh [], _, by decide, rfl⟩

/-- A READY line, a re-poll on a line that is not READY, and a first evaluation there. -/
theorem witness_RdbResult :
    (ready [] [.H]).line = .ready ∧ (∃ te, ({ fresh [] with ms := .inRdb 0 } : State).ms = .inRdb te) ∧
    ((fresh []).line ≠ .ready ∧ ∀ te, (fresh []).ms ≠ .inRdb te) :=
  ⟨by decide, ⟨0, rfl⟩, by decide, fun te => by simp [fresh, State.launch]⟩

theorem witness_NotReadyLineFaults : (fresh []).line ≠ .ready ∧ ∀ te, (fresh []).ms ≠ .inRdb te :=
  ⟨by decide, fun te => by simp [fresh, State.launch]⟩

theorem witness_SentinelIsNoByteResult :
    (∃ s t, exec .rdb s = .next t) ∧ (∃ s t, s.occ ≠ 0#7 ∧ exec .rdnb s = .next t) ∧
    ∃ s : State, s.line = .ready ∧ s.occ = 0#7 :=
  ⟨⟨filled 1, _, rfl⟩, ⟨filled 64, _, by decide, rfl⟩, filled 0, by decide, by decide⟩

theorem witness_PushAppendsAByte : (filled 63).occ < 64#7 ∧ (filled 0).occ < 64#7 := by decide

theorem witness_PushIntoAFullBuffer :
    (filled 64).occ = 64#7 ∧ (filled 64).params.overflow = .dropOldest ∧ RingOk (filled 64) ∧
    ∀ p ∈ [OverflowPolicy.dropNewest, .legacyFault],
      let s : State := { filled 64 with params := { params with overflow := p } }
      s.occ = 64#7 ∧ s.params.overflow = p := by
  simp only [RingOk]; decide

/-- Empty, nearly full and full, each policy. -/
theorem witness_BufferIsAFifoQueue :
    (RingOk (filled 0) ∧ (filled 0).occ.toNat < 64) ∧ (RingOk (filled 63) ∧ (filled 63).occ.toNat < 64) ∧
    (RingOk (filled 64) ∧ (filled 64).occ.toNat = 64 ∧ (filled 64).params.overflow = .dropOldest ∧ (filled 64).occ ≠ 0#7) ∧
    (let s : State := { filled 64 with params := { params with overflow := .dropNewest } }
     RingOk s ∧ s.occ.toNat = 64 ∧ s.params.overflow ≠ .dropOldest) := by
  simp only [RingOk]; decide

theorem witness_RbIsWrittenOnlyByAPush : let s := { completing with rb := [(0, 0x00#8)] }
    ∃ t, step s = .next t ∧ memRead t 0#6 ≠ memRead s 0#6 ∧ t.w ≠ s.w :=
  have ⟨t, h, ht⟩ := of_next? (o := step { completing with rb := [(0, 0x00#8)] })
    (p := fun t => memRead t 0#6 == 0x5A#8 && t.w == 1#6) (by decide)
  ⟨t, h, by simp only [Bool.and_eq_true, beq_iff_eq] at ht; rw [ht.1, ht.2]; decide⟩

/-- An edge with IE = 1, and a masked edge under each policy. -/
theorem witness_EdgeDetectionSetsPend :
    (let s := { ready [] [.L] with ie := true }; s.armed = true ∧ edgeNow s = true ∧ s.ie = true) ∧
    (∀ p ∈ [MaskedEdgePolicy.drop, .latch, .draw],
      let s : State := { ready [] [.L] with params := { params with maskedEdge := p } }
      s.armed = true ∧ edgeNow s = true ∧ s.ie = false ∧ s.params.maskedEdge = p) ∧
    ((fresh []).armed = false ∧ edgeNow (ready [] [.H]) = false) := by decide

theorem witness_InterruptEntrySavesIe :
    rxNow (ready [] [.L]) = .L ∧ rxNow (ready [] [.H]) = .H ∧ (ready [] [.H]).rxs = .idle := by decide

/-- Halted; the condition fails; forced at t_r + ISR_LAT_MAX exactly, and not yet one boundary before. -/
theorem witness_EntryIsForcedWithinTheLatencyBound :
    (let s := { ready [] [.L] with fault := 0x01#8 }; s.fault ≠ 0x00#8) ∧
    (let s := ready [] [.L]; s.fault = 0x00#8 ∧ ¬(s.rxs = .idle ∧ s.pend = true ∧ s.ie = true)) ∧
    (let s := { ready [] [.L] with ie := true, pend := true, tr := some 7, params := { params with isrLatMax := 1 } }
     s.fault = 0x00#8 ∧ s.rxs = .idle ∧ s.pend = true ∧ s.ie = true ∧ s.tr.getD s.now + s.params.isrLatMax ≤ s.now) ∧
    (let s := { ready [] [.L] with ie := true, pend := true, tr := some 7, params := { params with isrLatMax := 2 } }
     s.now < s.tr.getD s.now + s.params.isrLatMax) ∧
    (let s := { ready [] [.L] with ie := true, pend := true }
     s.params.isrLatMax = 0 ∧ s.tr = none) := by decide

/-- The push at the end succeeds from the first state, and faults from the second. -/
theorem witness_ReceptionPushesTheSampledByte :
    (let s := receiving [.L, .L]
     Inv s ∧ s.fault = 0x00#8 ∧ s.rxs = .sampling ∧ s.now = s.t0 + 1 ∧ s.acc = 0x00#8) ∧
    (let s := { receiving [.L, .L] with occ := 64#7, params := { params with overflow := .legacyFault } }
     Inv s ∧ s.fault = 0x00#8 ∧ s.rxs = .sampling ∧ s.now = s.t0 + 1 ∧ s.acc = 0x00#8) := by
  refine ⟨⟨inv_receiving, by decide, by decide, by decide, by decide⟩, ?_, by decide, by decide, by decide, by decide⟩
  refine ⟨by decide, ⟨by decide, by decide⟩, ⟨by decide, by decide, by decide, by decide, by decide⟩, ?_, ?_, ?_, ?_, ?_⟩
  · show (receiving [.L, .L]).ms ≠ .inTxb; decide
  · intro _; decide
  · show _ ∧ _ ∧ _; decide
  · intro t h; cases h
  · decide

/-- l = 0, o = 3 and l = 3, o = 1 stand on the two sides of the bound. -/
theorem witness_SamplesOfAFrame :
    (∀ k < 40, (fun t => frame 0x5A#8 (t - 20)) (20 + k) = frame 0x5A#8 k) ∧ 0 + offsetTicks .three ≤ 3 ∧
      4 ≤ 3 + offsetTicks .one := by
  refine ⟨fun k _ => ?_, by decide, by decide⟩
  simp

/-- The level list of a frame of b. -/
def frameLevels (b : Byte) : List Level := (List.range 40).map (frame b)

theorem witness_WellFormedFrameIsReceived : ∃ s : State, ∃ b : Byte,
    Inv s ∧ s.fault = 0x00#8 ∧ s.rxs = .idle ∧ s.ie = true ∧ s.armed = true ∧ s.params.isrLatMax = 0 ∧
      s.params.wiring = .separate ∧ 1 ≤ s.now ∧ envLevel s (s.now - 1) = .H ∧
      ∀ k < 40, envLevel s (s.now + k) = frame b k := by
  refine ⟨{ ready [0x2001#16] (frameLevels 0x5A#8) with ie := true, ms := .inRdb 8 }, 0x5A#8, ?_, ?_⟩
  · refine ⟨by decide, ⟨by decide, by decide⟩, ⟨by decide, by decide, by decide, by decide, by decide⟩, ?_, ?_, ?_, ?_, ?_⟩
    · show ({ ready [0x2001#16] (frameLevels 0x5A#8) with ie := true, ms := .inRdb 8 } : State).ms ≠ .inTxb; decide
    · intro h; exact absurd h (by decide)
    · show _ ∧ _ ∧ _; decide
    · intro t h; cases h
    · decide
  · decide

theorem witness_MainStallsWhileSampling : ∃ t, let s := receiving [.L, .L]
    Inv s ∧ s.rxs = .sampling ∧ s.now < s.t0 + episodeTicks s.params ∧ step s = .next t :=
  have ⟨t, h, _⟩ := of_next? (o := step (receiving [.L, .L])) (p := fun _ => true) (by decide)
  ⟨t, inv_receiving, by decide, by decide, h⟩

theorem inv_sending : Inv (sending 3) := by
  refine ⟨by decide, ⟨by decide, by decide⟩, ⟨by decide, by decide, by decide, by decide, by decide⟩, ?_, ?_, ?_, ?_, ?_⟩
  · exact ⟨rfl, rfl, rfl, rfl, by decide, by decide⟩
  · intro h; exact absurd h (by decide)
  · show (0 : Nat) < 1; decide
  · intro t h; cases h
  · decide

/-- In the middle of a TXB, and at its last boundary (ts = 0 at boundary 40). -/
theorem witness_OwnTransmissionIsNotReceived :
    (∃ t, Inv (sending 3) ∧ (sending 3).txs = .busy 3 0x00#8 true ∧ (sending 3).now < 3 + 40 ∧ step (sending 3) = .next t) ∧
    (let s := { sending 0 with now := 40, rxIn := List.replicate 41 .H, txHist := List.replicate 40 (some .H) }
     Inv s ∧ s.txs = .busy 0 0x00#8 true ∧ s.now = 0 + 40 ∧ s.txl = some .H ∧ envLevel s s.now = .H) := by
  have ⟨t, h, _⟩ := of_next? (o := step (sending 3)) (p := fun _ => true) (by decide)
  refine ⟨⟨t, inv_sending, rfl, by decide, h⟩, ?_, by decide, by decide, by decide, by decide⟩
  refine ⟨by decide, ⟨by decide, by decide⟩, ⟨by decide, by decide, by decide, by decide, by decide⟩, ?_, ?_, ?_, ?_, ?_⟩
  · exact ⟨rfl, rfl, rfl, rfl, by decide, by decide⟩
  · intro h; exact absurd h (by decide)
  · show (0 : Nat) < 1; decide
  · intro t h; cases h
  · decide

theorem witness_NoEdgeIsSeenBeforeArming : ∃ t, let s := fresh [0x0100#16]
    s.armed = false ∧ s.pend = false ∧ step s = .next t :=
  have ⟨t, h, _⟩ := of_next? (o := step (fresh [0x0100#16])) (p := fun _ => true) (by decide)
  ⟨t, by decide, by decide, h⟩

theorem witness_FirstFaultHaltsTheBlock : ({ ready [] [.L] with fault := 0x04#8, pend := true } : State).fault ≠ 0x00#8 := by
  decide

theorem witness_WhatNoBoundaryUndoes : ∃ s t, step s = .next t ∧ s.armed = true ∧ s.line = .ready :=
  have ⟨t, h, _⟩ := of_next? (o := step completing) (p := fun _ => true) (by decide)
  ⟨_, t, h, by decide, by decide⟩

theorem witness_CommandFrame : ∃ s t, exec .rdnb s = .next t ∧ Instr.rdnb ≠ .init := ⟨filled 1, _, rfl, by decide⟩

theorem witness_ControlCommandFrame :
    (∃ s t, exec .ei s = .next t) ∧ (∃ s t, exec .di s = .next t) ∧
    (∃ s t, exec .waitq s = .next t ∧ s.line = .ready) ∧ ∃ s t, exec (.txb 0x41#8) s = .next t ∧ s.line = .ready :=
  ⟨⟨fresh [], _, rfl⟩, ⟨fresh [], _, rfl⟩, ⟨ready [] [.H], _, rfl, rfl⟩, ready [] [.H], _, rfl, rfl⟩

theorem witness_ReadCommandFrame :
    (∃ s t, exec .rdnb s = .next t ∧ s.line = .ready ∧ s.occ = 0#7) ∧
    (∃ s t, exec .rdb s = .next t ∧ s.line = .ready) ∧ ∃ s t, exec .rdovf s = .next t ∧ s.line = .ready :=
  ⟨⟨filled 0, _, rfl, rfl, by decide⟩, ⟨filled 1, _, rfl, rfl⟩, filled 1, _, rfl, rfl⟩

/-- A failing INIT, and an INIT on a READY line. -/
theorem witness_InitFrame :
    (∃ t, exec .init { fresh [] with params := { params with baud := 0 } } = .next t ∧ t.line ≠ .ready) ∧
    ∃ s t, exec .init s = .next t ∧ s.line = .ready :=
  have ⟨t, h, ht⟩ := of_next? (o := exec .init { fresh [] with params := { params with baud := 0 } })
    (p := fun t => t.line != .ready) (by decide)
  ⟨⟨t, h, by simpa using ht⟩, ready [] [.H], _, rfl, rfl⟩

theorem witness_BlockingReadReturnsAtThePush : let s := completing
    Inv s ∧ s.fault = 0x00#8 ∧ s.rxs = .sampling ∧ s.now = s.t0 + episodeTicks s.params ∧ s.occ = 0#7 ∧
      s.ms = .inRdb 8 ∧ (beforeMain s).rxs = .idle :=
  ⟨inv_completing, by decide, by decide, by decide, by decide, by decide, by decide⟩

theorem witness_BlockingReadSpinsWhileMasked : let s := { ready [0x2001#16] [.H] with ms := .inRdb 8 }
    s.fault = 0x00#8 ∧ s.rxs = .idle ∧ s.ie = false ∧ s.occ = 0#7 ∧ s.ms = .inRdb 8 ∧ 8 ≤ s.now := by decide

theorem witness_LongerStreamGivesTheSameRun : let f : Nat → Word := fun n => if n = 0 then 0x0100#16 else 0x0200#16
    ∃ t, runSteps 1 (State.launch params (streamPrefix f 2) []) = .next t ∧ t.ms ≠ .done ∧
      ReachesOnInfiniteStream params f [] 1 { t with stream := [] } :=
  ⟨_, rfl, by decide, 2, _, rfl, by decide, rfl⟩

theorem witness_FirstObservationPoint :
    (∃ o, observeRun 1 (fresh []) = .next o) ∧ ({ fresh [] with fault := 0x01#8 } : State).fault ≠ 0x00#8 :=
  ⟨⟨_, rfl⟩, by decide⟩

theorem txb_starts_of {s : State} (hs : mainRuns (beforeMain s) = true ∧ (beforeMain s).ms = .atCmd ∧
      fetch (beforeMain s) = some 0x1041#16 ∧ (beforeMain s).line = .ready)
    (h : (next? (step s)).any (fun t => t.txs == .busy s.now (~~~0x41#8) false) = true) :
    ∃ s1, TxbStarts s s1 0x41#8 false :=
  have ⟨s1, h1, h2⟩ := of_next? h
  ⟨s1, h1, by simpa using h2, .inr ⟨⟨hs.1, hs.2.1, 0x1041#16, hs.2.2.1, by decide⟩, hs.2.2.2⟩⟩

/-- Each policy, and each case in which the start bit makes no edge of its own. -/
theorem witness_OwnStartBitMeetsTheMask :
    (∀ p : MaskedEdgePolicy, let s := shared p
      (∃ s1, TxbStarts s s1 0x41#8 false) ∧ s.params.wiring = .shared ∧ s.armed = true ∧ 1 ≤ s.now ∧ rxBefore s = .H ∧
        edgeNow (beforeEdge s) = false) ∧
    (∃ s1, TxbStarts (ready [0x1041#16] [.H]) s1 0x41#8 false) ∧
    (let s := { shared .latch with armed := false }; (∃ s1, TxbStarts s s1 0x41#8 false) ∧ s.armed = false) ∧
    (let s := { shared .latch with now := 0 }; (∃ s1, TxbStarts s s1 0x41#8 false) ∧ s.now = 0) ∧
    (let s := { shared .latch with rxIn := List.replicate 9 .L }
     (∃ s1, TxbStarts s s1 0x41#8 false) ∧ rxBefore s = .L) ∧
    (let s := { shared .latch with rxIn := List.replicate 8 .H ++ [.L] }
     (∃ s1, TxbStarts s s1 0x41#8 false) ∧ edgeNow (beforeEdge s) = true) := by
  refine ⟨fun p => ?_, txb_starts.1, ?_, ?_, ?_, ?_⟩
  · cases p <;> exact ⟨txb_starts_of (by decide) (by decide), by decide⟩
  all_goals exact ⟨txb_starts_of (by decide) (by decide), by decide⟩

/-- A boundary at which an armed block faults, and a halted armed block. -/
theorem witness_HaltedBlockOnlyLetsTimePass :
    (∃ t, step (ready [0x0000#16] [.H]) = .next t ∧ t.fault ≠ 0x00#8 ∧ (ready [0x0000#16] [.H]).armed = true) ∧
    ({ ready [] [.L] with fault := 0x04#8 } : State).fault ≠ 0x00#8 :=
  have ⟨t, h, ht⟩ := of_next? (o := step (ready [0x0000#16] [.H])) (p := fun t => t.fault == 0x01#8) (by decide)
  ⟨⟨t, h, by simp only [beq_iff_eq] at ht; rw [ht]; decide, by decide⟩, by decide⟩

/-- RX_TAIL_Q = 2 and RX_TAIL_Q = 0. -/
theorem witness_FaultingPushEndsInTheCompletion :
    ∀ c ∈ [(2, 36), (0, 34)],
      let s : State := { completing with
        occ := 64#7, now := c.2, params := { params with overflow := .legacyFault, rxTailQ := c.1 } }
      s.fault = 0x00#8 ∧ s.rxs = .sampling ∧ s.now = s.t0 + episodeTicks s.params ∧ s.occ = 64#7 ∧
        s.params.overflow = .legacyFault ∧ s.params.rxTailQ = c.1 := by decide

theorem witness_StringWithoutTerminator : ∀ c ∈ [0x48#8, 0x69#8], c ≠ 0x00#8 := by simp

theorem witness_WriteHelperExpansions : ∀ c ∈ [0x48#8, 0x69#8], c ≠ 0x00#8 := by simp

theorem witness_CalibrationResidual : delayCount Params.default.clkHz Params.default.baud = some 0x1F#8 := by decide

end Sys2Proof.Tests
end

section
/-! PROOF. The state, reset, fault and observation statements, and the frame of a boundary (spec/10_state.md). -/

namespace Sys2Proof.Machine

/-! ### Reset and interrupt entry -/

/-- Settles O10: `State.launch` lists R50's values field by field. -/
theorem resetLeavesTheTableValues : Obligations.ResetLeavesTheTableValues := by
  intro p ws rx
  exact ⟨rfl, rfl, rfl, rfl, rfl, rfl, rfl, rfl, rfl, rfl, rfl, rfl, rfl, rfl, rfl, rfl, rfl⟩

/-- Settles O59: RB lists no byte at launch, so every read is the reset draw. -/
theorem resetBytesAreFreeValues : Obligations.ResetBytesAreFreeValues := fun _ _ _ _ => rfl

/-- At launch every sequencer is idle, the ring is empty and LINE is UNINIT; MS is DONE exactly for the empty stream. -/
theorem inv_launch (p : Params) (ws : List Word) (rx : List Level) : Inv (State.launch p ws rx) := by
  have hring : RingOk (State.launch p ws rx) := by simp [RingOk, State.launch]
  have hstatus : StatusOk (State.launch p ws rx) := by simp [StatusOk, State.launch]
  have htx : TxOk (State.launch p ws rx) := by
    show (State.launch p ws rx).ms ≠ .inTxb
    cases ws <;> simp [State.launch]
  have hrx : RxOk (State.launch p ws rx) := by simp [RxOk, State.launch]
  have hmain : MainOk (State.launch p ws rx) := by cases ws <;> simp [MainOk, State.launch]
  have htime : TimeOk (State.launch p ws rx) := by simp [TimeOk, State.launch]
  exact ⟨launch_rb_wf p ws rx, hring, hstatus, htx, hrx, hmain, htime⟩

/-- Settles O11. -/
theorem resetMeetsTheInvariant : Obligations.ResetMeetsTheInvariant :=
  ⟨inv_launch, inv_launch Params.default [] []⟩

/-- Settles O60: `takeInterrupt` clears t_r on both ways of an entry. -/
theorem entryForgetsItsWait : Obligations.EntryForgetsItsWait := by
  intro s
  rcases enterReceiver_cases s with ⟨_, h⟩ | ⟨_, h⟩ <;> rw [h] <;> exact ⟨rfl, rfl, rfl⟩

theorem entryReady_iff (s : State) : entryReady s = true ↔ s.rxs = .idle ∧ s.pend = true ∧ s.ie = true := by
  simp [entryReady, and_assoc]

theorem interruptEntry_of_fault {s : State} (hf : s.fault ≠ 0x00#8) : interruptEntry s = s := if_pos hf

/-- Where R53's condition fails, B4 forgets t_r and does nothing else. -/
theorem interruptEntry_of_not_ready {s : State} (hf : s.fault = 0x00#8) (hr : entryReady s = false) :
    interruptEntry s = { s with tr := none } := by
  simp [interruptEntry, hf, hr]

theorem interruptEntry_of_forced {s : State} (hf : s.fault = 0x00#8) (hr : entryReady s = true)
    (hb : entryForced s = true) : interruptEntry s = enterReceiver s := by
  simp [interruptEntry, hf, hr, hb]

/-- Before the bound a draw decides between entering now and waiting on. -/
theorem interruptEntry_of_not_forced {s : State} (hf : s.fault = 0x00#8) (hr : entryReady s = true)
    (hb : entryForced s = false) :
    interruptEntry s = { s with tr := some (waitStart s), draws := s.draws + 1 } ∨
      interruptEntry s = enterReceiver { s with tr := some (waitStart s), draws := s.draws + 1 } := by
  cases hd : Config.entryDraw s.draws
  · left; simp [interruptEntry, hf, hr, hb, hd]
  · right; simp [interruptEntry, hf, hr, hb, hd]

/-- With ISR_LAT_MAX = 0 a wait that began at or before now is at its bound. -/
theorem entryForced_of_no_latency {s : State} (hl : s.params.isrLatMax = 0) (ht : ∀ u, s.tr = some u → u ≤ s.now) :
    entryForced s = true := by
  have hw : waitStart s ≤ s.now := by
    unfold waitStart
    cases htr : s.tr with
    | none => exact Nat.le_refl s.now
    | some u => exact ht u htr
  simpa [entryForced, hl] using hw

/-- Settles O32: the branches of B4, one by one. -/
theorem entryIsForcedWithinTheLatencyBound : Obligations.EntryIsForcedWithinTheLatencyBound := by
  intro s
  refine ⟨interruptEntry_of_fault, fun hf hn => ?_, fun hf hi hp he => ?_⟩
  · rw [← entryReady_iff, Bool.not_eq_true] at hn
    exact interruptEntry_of_not_ready hf hn
  · have hr := (entryReady_iff s).2 ⟨hi, hp, he⟩
    refine ⟨fun hb => ?_, fun hb => ?_, fun hl ht => ?_⟩
    · exact interruptEntry_of_forced hf hr (decide_eq_true hb)
    · exact interruptEntry_of_not_forced hf hr (decide_eq_false (Nat.not_le.2 hb))
    · exact interruptEntry_of_forced hf hr (entryForced_of_no_latency hl ht)

/-! ### One evaluation of B5's loop -/

theorem mainRuns_iff (s : State) : mainRuns s = true ↔ s.fault = 0x00#8 ∧ s.rxs = .idle := by simp [mainRuns]

theorem completedNow_iff (s : State) : completedNow s = true ↔ s.fault = 0x00#8 ∧ s.ms = .atCmd := by
  simp [completedNow]

theorem isWaiting_eq_false {s : State} (h : ∀ te, s.ms ≠ .inWaitq te) : isWaiting s = false := by
  unfold isWaiting
  cases hm : s.ms with
  | inWaitq te => exact absurd hm (h te)
  | _ => rfl

/-- An evaluation of B5's loop that does something leads from s to u: MAIN runs, and either the command at CP or a due
re-poll of RDB answers u (R52). -/
def Evaluates (s u : State) : Prop :=
  mainRuns s = true ∧
    ((s.ms = .atCmd ∧ fetchExec s = .next u) ∨ ∃ te, s.ms = .inRdb te ∧ te ≤ s.now ∧ exec .rdb s = .next u)

/-- What follows an evaluation: after a command that took no time, B4 and the loop again. -/
def loopOn (fuel : Nat) (u : State) : Host.Outcome State Fault Refusal :=
  if completedNow u then mainLoop fuel (interruptEntry u) else .next u

theorem loopOn_completed {u : State} (h : completedNow u = true) (fuel : Nat) :
    loopOn fuel u = mainLoop fuel (interruptEntry u) := if_pos h

theorem loopOn_stopped {u : State} (h : completedNow u = false) (fuel : Nat) : loopOn fuel u = .next u := by
  simp [loopOn, h]

theorem mainLoop_atCmd {s : State} (hr : mainRuns s = true) (hm : s.ms = .atCmd) (fuel : Nat) :
    mainLoop (fuel + 1) s = andThen (fetchExec s) (loopOn fuel) := by
  simp only [mainLoop, hr, hm, if_true]; rfl

theorem mainLoop_poll {s : State} {te : Nat} (hr : mainRuns s = true) (hm : s.ms = .inRdb te) (ht : te ≤ s.now)
    (fuel : Nat) : mainLoop (fuel + 1) s = andThen (exec .rdb s) (loopOn fuel) := by
  simp only [mainLoop, hr, hm, ht, if_true]; rfl

/-- A re-poll that is not yet due ends the loop. -/
theorem mainLoop_poll_early {s : State} {te : Nat} (hm : s.ms = .inRdb te) (ht : s.now < te) (fuel : Nat) :
    mainLoop fuel s = .next s := by
  cases fuel with
  | zero => rfl
  | succ fuel => simp [mainLoop, hm, Nat.not_le.2 ht]

/-- Either the loop stands still at s for every fuel, or an evaluation leads to some u and the loop goes on from there. -/
theorem mainLoop_cases (s : State) :
    (∀ fuel, mainLoop fuel s = .next s) ∨ ∃ u, Evaluates s u ∧ ∀ fuel, mainLoop (fuel + 1) s = loopOn fuel u := by
  by_cases hr : mainRuns s = true
  · cases hm : s.ms with
    | atCmd =>
      obtain ⟨u, hu⟩ := fetchExec_answers s
      refine .inr ⟨u, ⟨hr, .inl ⟨hm, hu⟩⟩, fun fuel => ?_⟩
      rw [mainLoop_atCmd hr hm, hu, andThen_next]
    | inRdb te =>
      by_cases ht : te ≤ s.now
      · obtain ⟨u, hu⟩ := exec_answers .rdb s
        refine .inr ⟨u, ⟨hr, .inr ⟨te, hm, ht, hu⟩⟩, fun fuel => ?_⟩
        rw [mainLoop_poll hr hm ht, hu, andThen_next]
      · exact .inl (mainLoop_poll_early hm (Nat.not_le.1 ht))
    | inWaitq te => exact .inl (mainLoop_busy (by simp [isWaiting, hm]))
    | inTxb => exact .inl (mainLoop_busy (.inl hm))
    | done => exact .inl (mainLoop_busy (.inr (.inl hm)))
  · exact .inl (mainLoop_idle (by simpa using hr))

/-- The loop answers next, whatever its fuel. -/
theorem mainLoop_answers (fuel : Nat) : ∀ s, ∃ t, mainLoop fuel s = .next t := by
  induction fuel with
  | zero => exact fun s => ⟨s, rfl⟩
  | succ fuel ih =>
    intro s
    rcases mainLoop_cases s with h | ⟨u, -, h⟩
    · exact ⟨s, h _⟩
    · rw [h]
      cases hc : completedNow u
      · exact ⟨u, loopOn_stopped hc fuel⟩
      · rw [loopOn_completed hc]; exact ih _

/-- The induction over B5's loop: what an evaluation and a B4 evaluation keep, the loop keeps. (Unlike `mainLoop_keeps`, an
evaluation knows that the command it runs was fetched.) -/
theorem mainLoop_preserves {P : State → Prop} (heval : ∀ s u, P s → Evaluates s u → P u)
    (hentry : ∀ s, P s → completedNow s = true → P (interruptEntry s)) (fuel : Nat) :
    ∀ s t, P s → mainLoop fuel s = .next t → P t := by
  induction fuel with
  | zero =>
    intro s t hs h
    obtain rfl := Host.Outcome.next.inj h
    exact hs
  | succ fuel ih =>
    intro s t hs h
    rcases mainLoop_cases s with hstay | ⟨u, hu, hgo⟩
    · obtain rfl := Host.Outcome.next.inj ((hstay _).symm.trans h)
      exact hs
    · rw [hgo] at h
      have hPu := heval s u hs hu
      cases hc : completedNow u
      · rw [loopOn_stopped hc] at h
        obtain rfl := Host.Outcome.next.inj h
        exact hPu
      · rw [loopOn_completed hc] at h
        exact ih _ t (hentry u hPu hc) h

theorem fetch_eq_some_lt {s : State} {w : Word} (h : fetch s = some w) : s.cp < s.stream.length :=
  (List.getElem?_eq_some_iff.1 h).1

theorem fetch_eq_none_iff (s : State) : fetch s = none ↔ s.stream.length ≤ s.cp := List.getElem?_eq_none_iff

/-- What an evaluation that completed in zero time tells: CP went up by one, the stream is as before, and a command (not a
re-poll) was inside the stream. -/
theorem Evaluates.completed {s u : State} (h : Evaluates s u) (hc : completedNow u = true) :
    u.cp = s.cp + 1 ∧ u.stream = s.stream ∧ (s.ms = .atCmd → s.cp < s.stream.length) := by
  obtain ⟨-, ⟨hm, he⟩ | ⟨te, hm, -, he⟩⟩ := h
  · obtain ⟨hf, hms⟩ := (completedNow_iff u).1 hc
    rcases fetchExec_cases s with ⟨-, h'⟩ | ⟨w, -, -, h'⟩ | ⟨w, i, hw, -, h'⟩
    · obtain rfl := Host.Outcome.next.inj (h'.symm.trans he)
      cases hms
    · obtain rfl := Host.Outcome.next.inj (h'.symm.trans he)
      exact absurd hf (raiseFault_fault_ne_zero _ s)
    · obtain ⟨hcp, hst⟩ := exec_completed (h'.symm.trans he) hc
      exact ⟨hcp, hst, fun _ => fetch_eq_some_lt hw⟩
  · obtain ⟨hcp, hst⟩ := exec_completed he hc
    exact ⟨hcp, hst, fun hm' => by rw [hm] at hm'; cases hm'⟩

/-! ### The bound on B5's loop -/

/-- B4 leaves what B5's loop counts by. -/
theorem interruptEntry_main (s : State) :
    (interruptEntry s).ms = s.ms ∧ (interruptEntry s).cp = s.cp ∧ (interruptEntry s).stream = s.stream := by
  obtain ⟨_, _, _, _, _, _, _, _, h⟩ := interruptEntry_frame s
  rw [h]; exact ⟨rfl, rfl, rfl⟩

/-- From a command boundary every evaluation that goes on uses up one word of the stream. -/
theorem mainLoop_fuel_atCmd (n : Nat) : ∀ (m : Nat) (s : State), s.ms = .atCmd → s.stream.length - s.cp + 1 ≤ n →
    s.stream.length - s.cp + 1 ≤ m → mainLoop n s = mainLoop m s := by
  induction n with
  | zero => intro m s _ hn; omega
  | succ n ih =>
    intro m s hms hn hm
    obtain ⟨m, rfl⟩ : ∃ m', m = m' + 1 := ⟨m - 1, by omega⟩
    rcases mainLoop_cases s with hstay | ⟨u, hu, hgo⟩
    · rw [hstay, hstay]
    · rw [hgo, hgo]
      cases hc : completedNow u
      · rw [loopOn_stopped hc, loopOn_stopped hc]
      · rw [loopOn_completed hc, loopOn_completed hc]
        obtain ⟨hcp, hst, hlt⟩ := hu.completed hc
        have hlt := hlt hms
        obtain ⟨hms', hcp', hst'⟩ := interruptEntry_main u
        refine ih m _ (hms'.trans ((completedNow_iff u).1 hc).2) ?_ ?_ <;> rw [hcp', hst', hcp, hst] <;> omega

/-- A re-poll adds one evaluation at most: after it MAIN is at a command boundary. -/
theorem mainLoop_fuel {n m : Nat} {s : State} (hn : s.stream.length - s.cp + 2 ≤ n)
    (hm : s.stream.length - s.cp + 2 ≤ m) : mainLoop n s = mainLoop m s := by
  obtain ⟨n, rfl⟩ : ∃ n', n = n' + 1 := ⟨n - 1, by omega⟩
  obtain ⟨m, rfl⟩ : ∃ m', m = m' + 1 := ⟨m - 1, by omega⟩
  rcases mainLoop_cases s with hstay | ⟨u, hu, hgo⟩
  · rw [hstay, hstay]
  · rw [hgo, hgo]
    cases hc : completedNow u
    · rw [loopOn_stopped hc, loopOn_stopped hc]
    · rw [loopOn_completed hc, loopOn_completed hc]
      obtain ⟨hcp, hst, -⟩ := hu.completed hc
      obtain ⟨hms', hcp', hst'⟩ := interruptEntry_main u
      refine mainLoop_fuel_atCmd n m _ (hms'.trans ((completedNow_iff u).1 hc).2) ?_ ?_ <;>
        rw [hcp', hst', hcp, hst] <;> omega

/-- Settles O8. -/
theorem loopHasEnoughFuel : Obligations.LoopHasEnoughFuel := fun _ _ hn => mainLoop_fuel hn (Nat.le_refl _)

/-! ### A boundary -/

/-- A step is the full R52 in every state: on a halted block `liveBoundary` is `haltedBoundary`. -/
theorem step_eq_liveBoundary (s : State) : step s = liveBoundary s := by
  unfold step boundary
  split
  · rfl
  · exact (liveBoundary_halted ‹_›).symm

/-- A step is B5's loop from the state after B1 to B4, then the edge rule, ARMED and B6. -/
theorem step_eq (s : State) :
    step s = andThen (mainLoop (mainFuel (beforeMain s)) (beforeMain s)) fun u => .next (afterMain (beforeEdge s) u) :=
  step_eq_liveBoundary s

/-- Every boundary ends in B6 after some result of B5's loop. -/
theorem step_cases {s t : State} (h : step s = .next t) :
    ∃ u, mainLoop (mainFuel (beforeMain s)) (beforeMain s) = .next u ∧ t = afterMain (beforeEdge s) u := by
  rw [step_eq] at h
  obtain ⟨u, hu, ht⟩ := andThen_eq_next.1 h
  exact ⟨u, hu, (Host.Outcome.next.inj ht).symm⟩

theorem step_of_fault {s : State} (h : s.fault ≠ 0x00#8) : step s = .next (haltedBoundary s) := if_neg h

/-- Settles O9. -/
theorem stepAlwaysAnswersNext : Obligations.StepAlwaysAnswersNext := by
  intro s
  obtain ⟨u, hu⟩ := mainLoop_answers (mainFuel (beforeMain s)) (beforeMain s)
  exact ⟨afterMain (beforeEdge s) u, by rw [step_eq, hu, andThen_next]⟩

theorem fetchExec_of_cmd {s : State} {w : Word} {i : Instr} (hw : fetch s = some w) (hd : decodeWord w = .cmd i) :
    fetchExec s = exec i s := by
  simp [fetchExec, hw, hd]

theorem fetchExec_of_illegal {s : State} {w : Word} (hf : s.fault = 0x00#8) (hw : fetch s = some w)
    (hd : decodeWord w = .illegal) : fetchExec s = .next { s with fault := 0x01#8 } := by
  simp [fetchExec, hw, hd, raiseFault, hf, FaultCode.code]

theorem fetchExec_of_end {s : State} (h : s.stream.length ≤ s.cp) : fetchExec s = .next { s with ms := .done } := by
  simp [fetchExec, (fetch_eq_none_iff s).2 h]

/-- Settles O6: the loop's first evaluation in each case of R52. -/
theorem stepRunsDecodedCommand : Obligations.StepRunsDecodedCommand := by
  refine ⟨?starts, fun s _ => step_eq s, ?command, ?poll, ?still⟩
  case starts =>
    rintro s i ⟨hr, hm, w, hw, hd⟩
    have hfuel : mainFuel (beforeMain s) = mainFuel (beforeMain s) - 1 + 1 := rfl
    rw [step_eq, hfuel, mainLoop_atCmd hr hm, fetchExec_of_cmd hw hd]
    obtain ⟨t, ht⟩ := exec_answers i (beforeMain s)
    rw [ht]; rfl
  case command =>
    intro n u hr hm
    have hf := ((mainRuns_iff u).1 hr).1
    refine ⟨fun hend => ?_, fun w i hw hd => ?_, fun w hw hd => ?_⟩
    · rw [mainLoop_atCmd hr hm, fetchExec_of_end hend]
      exact loopOn_stopped (by simp [completedNow]) n
    · rw [mainLoop_atCmd hr hm, fetchExec_of_cmd hw hd]; rfl
    · rw [mainLoop_atCmd hr hm, fetchExec_of_illegal hf hw hd]
      exact loopOn_stopped (by simp [completedNow]) n
  case poll => exact fun n te u hr hm ht => mainLoop_poll hr hm ht n
  case still =>
    rintro n u (hr | hm | hm | hm | ⟨te, hm, ht⟩)
    · exact mainLoop_idle hr n
    · exact mainLoop_busy (.inl hm) n
    · exact mainLoop_busy (.inr (.inl hm)) n
    · exact mainLoop_busy (.inr (.inr hm)) n
    · exact mainLoop_poll_early hm ht n

/-! ### B1 to B3 where they have nothing to do -/

theorem receiverProgress_idle {s : State} (h : s.rxs = .idle) : receiverProgress s = s := by
  simp [receiverProgress, h]

theorem mainProgress_still {s : State} (hm : s.ms ≠ .inTxb) (hw : isWaiting s = false) : mainProgress s = s := by
  unfold mainProgress
  split
  · rfl
  · cases hms : s.ms with
    | inTxb => exact absurd hms hm
    | inWaitq te => simp [isWaiting, hms] at hw
    | _ => rfl

theorem detectEdge_quiet {s : State} (h : (s.armed && edgeNow s) = false) : detectEdge s = s := by
  simp [detectEdge, h]

/-- Settles O7: with nothing due, B1, B2 and B3 are the identity and B4's condition fails. -/
theorem quietBoundaryStartsTheCommand : Obligations.QuietBoundaryStartsTheCommand := by
  intro s w i hf hrx hm hp he hw hd
  have hedge : beforeEdge s = s := by
    rw [beforeEdge, receiverProgress_idle hrx, mainProgress_still (by simp [hm]) (by simp [isWaiting, hm]),
      disarmAfterFault_live hf]
  have hb : beforeMain s = { s with tr := none } := by
    rw [beforeMain, hedge, detectEdge_quiet he, interruptEntry_of_not_ready hf (by simp [entryReady, hp])]
  refine ⟨hb, ?_⟩
  rw [StartsCommand, hb]
  exact ⟨(mainRuns_iff _).2 ⟨hf, hrx⟩, hm, w, hw, hd⟩

/-! ### The halted block -/

theorem disarmAfterFault_of_fault {s : State} (h : s.fault ≠ 0x00#8) : disarmAfterFault s = { s with armed := false } :=
  if_neg h

/-- A halted boundary ends ARMED and lets time pass. -/
theorem haltedBoundary_eq {s : State} (h : s.fault ≠ 0x00#8) : haltedBoundary s = { s with
    armed := false, now := s.now + 1, txHist := s.txl :: s.txHist } := by
  rw [haltedBoundary, disarmAfterFault_of_fault h, detectEdge_quiet rfl]; rfl

/-- B6 comes after the fault has ended ARMED. -/
theorem afterMain_armed {s t : State} (h : (afterMain s t).fault ≠ 0x00#8) : (afterMain s t).armed = false := by
  obtain ⟨a, ha, -⟩ := disarmAfterFault_cases (ownEdge s t)
  have hf : (ownEdge s t).fault ≠ 0x00#8 := by
    rw [afterMain, ha] at h; exact h
  rw [afterMain, disarmAfterFault_of_fault hf]; rfl

/-- Settles O56. -/
theorem haltedBlockOnlyLetsTimePass : Obligations.HaltedBlockOnlyLetsTimePass := by
  refine ⟨fun s t h hf => ?_, fun s hf => by rw [step_of_fault hf, haltedBoundary_eq hf]⟩
  obtain ⟨u, -, rfl⟩ := step_cases h
  exact afterMain_armed hf

/-! ### The observation of a run -/

theorem atObservationPoint_iff (s : State) :
    atObservationPoint s = true ↔ s.ms = .done ∧ s.rxs = .idle ∧ s.pend = false ∧ s.fault = 0x00#8 := by
  simp [atObservationPoint, and_assoc]

/-- The observation that a state shows. -/
def observationOf (s : State) : Observation where
  out := s.out
  tx := s.txHist.reverse
  rb := (List.range Config.capacity).map s.rb.read
  w := s.w
  r := s.r
  occ := s.occ
  ovfCnt := s.ovfCnt

theorem observe_eq_next {s : State} {o : Observation} :
    observe s = .next o ↔ atObservationPoint s = true ∧ observationOf s = o := by
  unfold observe
  by_cases hf : s.fault = 0x00#8
  · by_cases ha : atObservationPoint s = true
    · simp [hf, ha, observationOf]
    · simp [hf, ha]
  · have ha : ¬ atObservationPoint s = true := fun ha => hf ((atObservationPoint_iff s).1 ha).2.2.2
    simp [hf, ha]

/-- Settles O49. -/
theorem observationPoint : Obligations.ObservationPoint := by
  intro s o
  rw [observe_eq_next, atObservationPoint_iff]
  refine and_congr_right fun _ => ⟨?_, ?_⟩
  · rintro rfl
    exact ⟨rfl, rfl, rfl, rfl, rfl, rfl, rfl⟩
  · rintro ⟨hout, htx, hrb, hw, hr, hocc, hovf⟩
    cases o
    simp_all [observationOf]

theorem runSteps_succ {s t : State} (h : step s = .next t) (n : Nat) : runSteps (n + 1) s = runSteps n t := by
  rw [runSteps, h, andThen_next]

theorem step_fault {s t : State} (hf : s.fault ≠ 0x00#8) (h : step s = .next t) : t.fault = s.fault := by
  obtain rfl := Host.Outcome.next.inj ((step_of_fault hf).symm.trans h)
  exact haltedBoundary_fault s

/-- A run from a halted block stays halted. -/
theorem runSteps_fault (n : Nat) : ∀ {s t : State}, s.fault ≠ 0x00#8 → runSteps n s = .next t → t.fault ≠ 0x00#8 := by
  induction n with
  | zero =>
    intro s t hf h
    obtain rfl := Host.Outcome.next.inj h
    exact hf
  | succ n ih =>
    intro s t hf h
    obtain ⟨u, hu⟩ := stepAlwaysAnswersNext s
    rw [runSteps_succ hu] at h
    exact ih (by rw [step_fault hf hu]; exact hf) h

theorem observe_of_fault {s : State} (hf : s.fault ≠ 0x00#8) (o : Observation) : observe s ≠ .next o := fun h =>
  hf ((atObservationPoint_iff s).1 (observe_eq_next.1 h).1).2.2.2

/-- From s, boundary k is the first after which the condition of R54 holds, and there o is observed. -/
def FirstObservedAt (k : Nat) (s : State) (o : Observation) : Prop :=
  ∃ t, runSteps (k + 1) s = .next t ∧ observe t = .next o ∧
    ∀ j < k, ∀ u, runSteps (j + 1) s = .next u → atObservationPoint u = false

theorem firstObservedAt_zero {s t : State} (h : step s = .next t) (o : Observation) :
    FirstObservedAt 0 s o ↔ observe t = .next o := by
  simp [FirstObservedAt, runSteps, h, andThen_next]

theorem firstObservedAt_succ {s t : State} (h : step s = .next t) (k : Nat) (o : Observation) :
    FirstObservedAt (k + 1) s o ↔ atObservationPoint t = false ∧ FirstObservedAt k t o := by
  simp only [FirstObservedAt, runSteps_succ h]
  constructor
  · rintro ⟨v, hv, ho, hfirst⟩
    exact ⟨hfirst 0 (Nat.succ_pos k) t rfl, v, hv, ho, fun j hj => hfirst (j + 1) (Nat.succ_lt_succ hj)⟩
  · rintro ⟨ht, v, hv, ho, hfirst⟩
    refine ⟨v, hv, ho, fun j hj u hu => ?_⟩
    cases j with
    | zero =>
      obtain rfl := Host.Outcome.next.inj hu
      exact ht
    | succ j => exact hfirst j (Nat.lt_of_succ_lt_succ hj) u hu

theorem not_firstObservedAt_of_fault {s : State} (hf : s.fault ≠ 0x00#8) (k : Nat) (o : Observation) :
    ¬ FirstObservedAt k s o := fun ⟨_, ht, ho, _⟩ => observe_of_fault (runSteps_fault _ hf ht) o ho

theorem observeRun_eq_next (n : Nat) : ∀ (s : State) (o : Observation),
    observeRun n s = .next o ↔ ∃ k < n, FirstObservedAt k s o := by
  induction n with
  | zero => simp [observeRun]
  | succ n ih =>
    intro s o
    obtain ⟨t, ht⟩ := stepAlwaysAnswersNext s
    rw [observeRun_succ n ht, Nat.exists_lt_succ_left, firstObservedAt_zero ht]
    simp only [firstObservedAt_succ ht]
    by_cases ha : atObservationPoint t = true
    · simp [ha]
    · by_cases hf : t.fault = 0x00#8
      · simp [ha, hf, ih, observe_eq_next]
      · simp [hf, not_firstObservedAt_of_fault hf]

/-- Settles O54. -/
theorem firstObservationPoint : Obligations.FirstObservationPoint := by
  refine ⟨observeRun_eq_next, fun n s o hf h => ?_⟩
  obtain ⟨k, -, hk⟩ := (observeRun_eq_next n s o).1 h
  exact not_firstObservedAt_of_fault hf k o hk

end Sys2Proof.Machine
end

section
/-! PROOF. The frame of a command, and what no boundary undoes (spec/10_state.md, spec/20_memory.md). -/

namespace Sys2Proof.Machine

/-! ### The frame of a command -/

/-- Settles O42: every outcome of a command updates other fields than these, W in INIT only. -/
theorem commandFrame : Obligations.CommandFrame := by
  intro i s t h
  rcases exec_cases h with ⟨c, rfl⟩ | ⟨rfl, _, ⟨n, _, rfl⟩ | ⟨_, rfl⟩⟩ | ⟨_, _, rfl⟩ | ⟨_, rfl⟩ | ⟨_, rfl⟩ |
    ⟨b, _, _, rfl⟩ | ⟨_, _, _, rfl⟩ | ⟨_, _, _, rfl⟩ | ⟨_, _, _, rfl⟩ | ⟨_, _, rfl⟩
  · rw [raiseFault_eq]
    exact ⟨⟨rfl, rfl, rfl⟩, rfl, rfl, ⟨rfl, rfl, rfl, rfl, rfl⟩, rfl, fun _ => rfl, fun _ => rfl⟩
  · exact ⟨⟨rfl, rfl, rfl⟩, rfl, rfl, ⟨rfl, rfl, rfl, rfl, rfl⟩, rfl, fun _ => rfl, fun hi => absurd rfl hi⟩
  all_goals exact ⟨⟨rfl, rfl, rfl⟩, rfl, rfl, ⟨rfl, rfl, rfl, rfl, rfl⟩, rfl, fun _ => rfl, fun _ => rfl⟩

/-! ### What no boundary undoes -/

/-- t comes after s within one boundary, before B6: what R9, R32, R33, R45 and R302 let no step undo, and of ARMED what D37
does (log 12). -/
structure Onward (s t : State) : Prop where
  launch : SameLaunch s t
  now : t.now = s.now
  txHist : t.txHist = s.txHist
  out : s.out <+: t.out
  cp : s.cp ≤ t.cp
  armed : s.armed = true → t.fault = 0x00#8 → t.armed = true
  line : s.line = .ready → t.line = .ready ∧ t.dly = s.dly
  fault : s.fault ≠ 0x00#8 → t.fault = s.fault

theorem Onward.trans {s t u : State} (h : Onward s t) (k : Onward t u) : Onward s u where
  launch := ⟨k.launch.1.trans h.launch.1, k.launch.2.1.trans h.launch.2.1, k.launch.2.2.trans h.launch.2.2⟩
  now := k.now.trans h.now
  txHist := k.txHist.trans h.txHist
  out := h.out.trans k.out
  cp := h.cp.trans k.cp
  armed ha hu := by
    have ht : t.fault = 0x00#8 := by
      by_contra ht
      exact ht (k.fault ht ▸ hu)
    exact k.armed (h.armed ha ht) hu
  line hl := ⟨(k.line (h.line hl).1).1, (k.line (h.line hl).1).2.trans (h.line hl).2⟩
  fault hf := (k.fault (h.fault hf ▸ hf)).trans (h.fault hf)

theorem Onward.refl (s : State) : Onward s s :=
  ⟨⟨rfl, rfl, rfl⟩, rfl, rfl, List.prefix_rfl, Nat.le_refl _, fun ha _ => ha, fun hl => ⟨hl, rfl⟩, fun _ => rfl⟩

theorem onward_raiseFault (c : FaultCode) (s : State) : Onward s (raiseFault c s) := by
  rw [raiseFault_eq]
  exact { Onward.refl s with armed := fun ha _ => ha, fault := fun hf => if_neg hf }

theorem onward_complete {s t : State} (h : Onward s t) : Onward s (complete t) :=
  { h with cp := Nat.le_succ_of_le h.cp }

theorem onward_result (v : Word) (s : State) : Onward s (result v s) :=
  { Onward.refl s with out := List.prefix_append _ _ }

/-- INIT writes LINE, DLY and ARMED only where the line is not READY. -/
theorem onward_init {s : State} (hl : s.line ≠ .ready) :
    (∀ n, Onward s (initSucceed n s)) ∧ Onward s (initFail s) :=
  ⟨fun _ => { Onward.refl s with
      out := List.prefix_append _ _, cp := Nat.le_succ _, armed := fun _ _ => rfl, line := fun h => absurd h hl },
    { Onward.refl s with out := List.prefix_append _ _, cp := Nat.le_succ _, line := fun h => absurd h hl }⟩

theorem onward_exec {i : Instr} {s t : State} (h : exec i s = .next t) : Onward s t := by
  rcases exec_cases h with ⟨c, rfl⟩ | ⟨_, hl, ⟨n, _, rfl⟩ | ⟨_, rfl⟩⟩ | ⟨_, _, rfl⟩ | ⟨_, rfl⟩ | ⟨_, rfl⟩ |
    ⟨b, _, _, rfl⟩ | ⟨_, _, _, rfl⟩ | ⟨_, _, _, rfl⟩ | ⟨_, _, _, rfl⟩ | ⟨_, _, rfl⟩
  · exact onward_raiseFault c s
  · exact (onward_init hl).1 n
  · exact (onward_init hl).2
  · exact { Onward.refl s with }
  · exact onward_complete { Onward.refl s with }
  · exact onward_complete { Onward.refl s with }
  · exact { Onward.refl s with }
  · exact onward_complete (onward_result _ s)
  · exact onward_complete { onward_result _ s with }
  · exact { Onward.refl s with }
  · exact onward_complete (onward_result _ s)

theorem onward_fetchExec {s t : State} (h : fetchExec s = .next t) : Onward s t := by
  rcases fetchExec_cases s with ⟨-, he⟩ | ⟨w, -, -, he⟩ | ⟨w, i, -, -, he⟩
  · obtain rfl := Host.Outcome.next.inj (he.symm.trans h)
    exact { Onward.refl s with }
  · obtain rfl := Host.Outcome.next.inj (he.symm.trans h)
    exact onward_raiseFault _ s
  · exact onward_exec (he.symm.trans h)

theorem onward_interruptEntry (s : State) : Onward s (interruptEntry s) := by
  obtain ⟨_, _, _, _, _, _, _, _, h⟩ := interruptEntry_frame s
  rw [h]
  exact { Onward.refl s with }

theorem Evaluates.onward {s u : State} (h : Evaluates s u) : Onward s u := by
  obtain ⟨-, ⟨-, he⟩ | ⟨te, -, -, he⟩⟩ := h
  · exact onward_fetchExec he
  · exact onward_exec he

theorem onward_mainLoop {fuel : Nat} {s t : State} (h : mainLoop fuel s = .next t) : Onward s t :=
  mainLoop_preserves (P := Onward s) (fun _ _ hs hu => hs.trans hu.onward)
    (fun u hu _ => hu.trans (onward_interruptEntry u)) fuel s t (.refl s) h

/-- B1 acts on a live block only, and a fault is all it writes of these fields. -/
theorem onward_receiverProgress (s : State) : Onward s (receiverProgress s) := by
  by_cases hf : s.fault = 0x00#8
  · obtain ⟨_, _, _, _, _, _, _, _, _, h⟩ := receiverProgress_frame s
    rw [h]
    exact { Onward.refl s with armed := fun ha _ => ha, fault := fun hn => absurd hf hn }
  · rw [show receiverProgress s = s by simp [receiverProgress, hf]]
    exact .refl s

/-- A transmission's boundary completes it at ts + 40, and before that writes at most TXL and the complement register. -/
theorem txBoundary_cases {s : State} {ts : Nat} {c : Byte} {sie : Bool} (h : s.txs = .busy ts c sie) :
    (s.now = ts + 40 ∧ txBoundary s = complete { s with ie := sie, txs := .idle }) ∨
    (s.now ≠ ts + 40 ∧ ∃ txl c', (s.txl ≠ none → txl ≠ none) ∧
      txBoundary s = { s with txl := txl, txs := .busy ts c' sie }) := by
  have hdata : isDataStep ts s.now = true → s.now ≠ ts + 40 := by
    simp only [isDataStep, Bool.and_eq_true, decide_eq_true_eq]
    omega
  unfold txBoundary
  rw [h]
  dsimp only
  split
  · exact .inr ⟨hdata ‹_›, some _, c >>> 1, by simp, rfl⟩
  · split
    · exact .inr ⟨by omega, some .H, c, by simp, by rw [drive, ← h]⟩
    · split
      · exact .inl ⟨‹_›, rfl⟩
      · exact .inr ⟨‹_›, s.txl, c, id, by rw [← h]⟩

theorem mainProgress_inTxb {s : State} (hf : s.fault = 0x00#8) (hm : s.ms = .inTxb) : mainProgress s = txBoundary s := by
  simp [mainProgress, hf, hm]

theorem mainProgress_inWaitq {s : State} (hf : s.fault = 0x00#8) (hm : s.ms = .inWaitq s.now) :
    mainProgress s = complete s := by
  simp [mainProgress, hf, hm, waitqBoundary]

/-- B2 moves CP forward only, by its completions. -/
theorem mainProgress_cp (s : State) : s.cp ≤ (mainProgress s).cp := by
  unfold mainProgress
  split
  · exact Nat.le_refl _
  · split
    · unfold waitqBoundary
      split <;> simp
    · cases htx : s.txs with
      | idle => simp [txBoundary, htx]
      | busy ts c sie =>
        rcases txBoundary_cases htx with ⟨-, h⟩ | ⟨-, _, _, -, h⟩
        · simp [h]
        · simp [h]
    · exact Nat.le_refl _
    · exact Nat.le_refl _
    · exact Nat.le_refl _

theorem onward_mainProgress (s : State) : Onward s (mainProgress s) := by
  obtain ⟨_, _, _, _, _, h⟩ := mainProgress_frame s
  have hcp := mainProgress_cp s
  rw [h] at hcp ⊢
  exact { Onward.refl s with cp := hcp }

theorem onward_disarmAfterFault (s : State) : Onward s (disarmAfterFault s) := by
  obtain ⟨a, h, -, ha⟩ := disarmAfterFault_cases s
  rw [h]
  exact { Onward.refl s with armed := fun hs hf => (ha hf).trans hs }

theorem onward_beforeEdge (s : State) : Onward s (beforeEdge s) :=
  ((onward_receiverProgress s).trans (onward_mainProgress _)).trans (onward_disarmAfterFault _)

theorem onward_detectEdge (s : State) : Onward s (detectEdge s) := by
  obtain ⟨p, n, h, -⟩ := detectEdge_cases s
  rw [h]
  exact { Onward.refl s with }

theorem onward_beforeMain (s : State) : Onward (beforeEdge s) (beforeMain s) :=
  (onward_detectEdge _).trans (onward_interruptEntry _)

theorem onward_ownEdge (b s : State) : Onward s (ownEdge b s) := by
  obtain ⟨p, n, h, -⟩ := ownEdge_cases b s
  rw [h]
  exact { Onward.refl s with }

/-- Where no step undoes anything up to B6, B6 adds the tick and its level. -/
theorem Onward.tick_spec {s v : State} (h : Onward s v) :
    SameLaunch s (tick v) ∧ (tick v).now = s.now + 1 ∧ (tick v).txHist = (tick v).txl :: s.txHist ∧
      s.out <+: (tick v).out ∧ s.cp ≤ (tick v).cp ∧
      (s.armed = true → (tick v).armed = true ∨ (tick v).fault ≠ 0x00#8) ∧
      (s.line = .ready → (tick v).line = .ready ∧ (tick v).dly = s.dly) ∧
      (s.fault ≠ 0x00#8 → (tick v).fault = s.fault) :=
  ⟨h.launch, congrArg (· + 1) h.now, congrArg _ h.txHist, h.out, h.cp,
    fun ha => (Decidable.em (v.fault = 0x00#8)).imp_left (h.armed ha), h.line, h.fault⟩

/-- Settles O41. -/
theorem whatNoBoundaryUndoes : Obligations.WhatNoBoundaryUndoes := by
  intro s t h
  obtain ⟨u, hu, rfl⟩ := step_cases h
  have hmain : Onward s u := (onward_beforeEdge s).trans ((onward_beforeMain s).trans (onward_mainLoop hu))
  exact (hmain.trans ((onward_ownEdge _ u).trans (onward_disarmAfterFault _))).tick_spec

end Sys2Proof.Machine
end

section
/-! PROOF. Every boundary keeps the invariant (spec/10_state.md section 5). The steps B1 to B6 keep `Midway`: if the boundary
ended at this point, `Inv` would hold. -/

namespace Sys2Proof.Machine

/-- What `Inv` says of RB, the line status and the clocks, if the boundary ended here; of ARMED and PEND in a live block
only, since a fault ends ARMED before B6. -/
structure StatusSettled (s : State) : Prop where
  rb : s.rb.wf = true
  ring : RingOk s
  dly : s.line = .ready ↔ s.dly ≠ 0x00#8
  armed : s.fault = 0x00#8 → (s.armed = true ↔ s.line = .ready)
  txl : s.txl ≠ none ↔ s.line = .ready
  pend : s.fault = 0x00#8 → s.pend = true → s.armed = true
  fault : s.fault.toNat ≤ 4
  time : TimeOk (tick s)

/-- What `Inv` would say, the reception apart, if the boundary ended here. -/
structure Settled (s : State) : Prop extends StatusSettled s where
  tx : TxOk (tick s)
  main : MainOk (tick s)

/-- What `Inv` would say if the boundary ended here. -/
def Midway (s : State) : Prop := Settled s ∧ RxOk (tick s)

/-! ### The parts of the invariant, by the value of the sequencer -/

theorem txOk_of_idle {s : State} (htx : s.txs = .idle) (hm : s.ms ≠ .inTxb) : TxOk s := by
  rw [TxOk, htx]; exact hm

theorem TxOk.ms_ne_inTxb {s : State} (h : TxOk s) (htx : s.txs = .idle) : s.ms ≠ .inTxb := by
  rw [TxOk, htx] at h; exact h

theorem TxOk.of_busy {s : State} {ts : Nat} {c : Byte} {sie : Bool} (h : TxOk s) (htx : s.txs = .busy ts c sie) :
    s.ms = .inTxb ∧ s.ie = false ∧ s.line = .ready ∧ s.fault = 0x00#8 ∧ ts < s.now ∧ s.now ≤ ts + 40 := by
  rw [TxOk, htx] at h; exact h

/-- The transmitter is idle wherever one of the consequences of TXS = busy fails. -/
theorem TxOk.idle_of {s : State} (h : TxOk s) (hn : s.ms ≠ .inTxb ∨ s.ie = true ∨ s.fault ≠ 0x00#8) : s.txs = .idle := by
  cases htx : s.txs with
  | idle => rfl
  | busy ts c sie =>
    obtain ⟨hm, hi, -, hf, -⟩ := h.of_busy htx
    rcases hn with hn | hn | hn
    · exact absurd hm hn
    · rw [hi] at hn; cases hn
    · exact absurd hf hn

theorem rxOk_of_idle {s : State} (h : s.rxs = .idle) : RxOk s := fun hs => by rw [h] at hs; cases hs

theorem mainOk_of_atCmd {s : State} (hm : s.ms = .atCmd) (hc : s.cp ≤ s.stream.length) : MainOk s := by
  rw [MainOk, hm]; exact hc

theorem MainOk.of_inWaitq {s : State} {te : Nat} (h : MainOk s) (hm : s.ms = .inWaitq te) :
    s.cp < s.stream.length ∧ s.line = .ready ∧ s.fault = 0x00#8 ∧ te = s.now := by
  rw [MainOk, hm] at h; exact h

theorem MainOk.of_inRdb {s : State} {te : Nat} (h : MainOk s) (hm : s.ms = .inRdb te) :
    s.cp < s.stream.length ∧ s.line = .ready ∧ te ≤ s.now := by
  rw [MainOk, hm] at h; exact h

theorem MainOk.of_inTxb {s : State} (h : MainOk s) (hm : s.ms = .inTxb) : s.cp < s.stream.length := by
  rw [MainOk, hm] at h; exact h

theorem isWaiting_iff (s : State) : isWaiting s = true ↔ ∃ te, s.ms = .inWaitq te := by
  unfold isWaiting; cases s.ms <;> simp

theorem inPoll_iff (s : State) : inPoll s = true ↔ ∃ te, s.ms = .inRdb te := by
  unfold inPoll; cases s.ms <;> simp

/-- Only a WAITQ ties MS to the very boundary: elsewhere MAIN's part of the invariant survives B6, and FAULT has no say. -/
theorem MainOk.of_not_waiting {s t : State} (h : MainOk s) (hw : isWaiting s = false) (hms : t.ms = s.ms)
    (hcp : t.cp = s.cp) (hst : t.stream = s.stream) (hl : t.line = s.line) (hn : s.now ≤ t.now) : MainOk t := by
  rw [MainOk, hms, hcp, hst, hl]
  cases hm : s.ms with
  | atCmd => rw [MainOk, hm] at h; exact h
  | inWaitq te => simp [isWaiting, hm] at hw
  | inTxb => exact h.of_inTxb hm
  | inRdb te =>
    obtain ⟨hc, hl, ht⟩ := h.of_inRdb hm
    exact ⟨hc, hl, ht.trans hn⟩
  | done => rw [MainOk, hm] at h; exact h

/-! ### The ring buffer -/

theorem ringOk_push {s : State} (b : Byte) (h : RingOk s) : RingOk (push b s) := by
  obtain ⟨hocc, hw⟩ := h
  rcases push_cases b s with ⟨hlt, he⟩ | ⟨hge, -, he⟩ | ⟨-, -, he⟩ | ⟨-, -, he⟩ <;> rw [he]
  · have hlt : s.occ.toNat < 64 := hlt
    have hocc' : (s.occ + 1#7).toNat = s.occ.toNat + 1 := by bv_omega
    have hw' : (s.w + 1#6).toNat = (s.w.toNat + 1) % 64 := by simp
    refine ⟨hocc'.trans_le hlt, ?_⟩
    show (s.w + 1#6).toNat = (s.r.toNat + (s.occ + 1#7).toNat) % 64
    omega
  · have hfull : s.occ.toNat = 64 := le_antisymm hocc (Nat.not_lt.1 hge)
    have hw' : (s.w + 1#6).toNat = (s.w.toNat + 1) % 64 := by simp
    have hr' : (s.r + 1#6).toNat = (s.r.toNat + 1) % 64 := by simp
    refine ⟨hocc, ?_⟩
    show (s.w + 1#6).toNat = ((s.r + 1#6).toNat + s.occ.toNat) % 64
    omega
  · exact ⟨hocc, hw⟩
  · rw [raiseFault_eq]; exact ⟨hocc, hw⟩

theorem ringOk_popResult {s : State} (h : RingOk s) (hne : s.occ ≠ 0#7) : RingOk (popResult s) := by
  obtain ⟨hocc, hw⟩ := h
  have hocc' : (s.occ - 1#7).toNat = s.occ.toNat - 1 := by bv_omega
  have hpos : s.occ.toNat ≠ 0 := fun h0 => hne (BitVec.eq_of_toNat_eq h0)
  have hr' : (s.r + 1#6).toNat = (s.r.toNat + 1) % 64 := by simp
  refine ⟨by rw [show (popResult s).occ = s.occ - 1#7 from rfl, hocc']; omega, ?_⟩
  show s.w.toNat = ((s.r + 1#6).toNat + (s.occ - 1#7).toNat) % 64
  omega

theorem push_rb_wf {s : State} (b : Byte) (h : s.rb.wf = true) : (push b s).rb.wf = true := by
  rcases push_cases b s with ⟨-, he⟩ | ⟨-, -, he⟩ | ⟨-, -, he⟩ | ⟨-, -, he⟩ <;> rw [he]
  · exact Memory.write_wf s.rb s.w b h
  · exact Memory.write_wf s.rb s.w b h
  · exact h
  · rw [raiseFault_eq]; exact h

/-! ### Into a boundary and out of it -/

theorem statusSettled_of_inv {s : State} (h : Inv s) : StatusSettled s := by
  obtain ⟨hrb, hring, ⟨hdly, harmed, htxl, hpend, hfault⟩, -, -, -, htr, hhist⟩ := h
  exact {
    rb := hrb, ring := hring, dly := hdly, txl := htxl, pend := hpend, fault := hfault
    armed := fun hf => harmed.trans (and_iff_left hf)
    time := ⟨fun t ht => Nat.lt_succ_of_lt (htr t ht), congrArg (· + 1) hhist⟩ }

theorem Inv.tx {s : State} (h : Inv s) : TxOk s := by
  obtain ⟨-, -, -, htx, -⟩ := h; exact htx

theorem Inv.rx {s : State} (h : Inv s) : RxOk s := by
  obtain ⟨-, -, -, -, hrx, -⟩ := h; exact hrx

theorem Inv.main {s : State} (h : Inv s) : MainOk s := by
  obtain ⟨-, -, -, -, -, hmain, -⟩ := h; exact hmain

/-- Where neither WAITQ nor TXB is at work, the invariant of one boundary settles the next. -/
theorem settled_of_inv {s : State} (h : Inv s) (htx : s.txs = .idle) (hw : isWaiting s = false) : Settled s :=
  { statusSettled_of_inv h with
    tx := txOk_of_idle htx (h.tx.ms_ne_inTxb htx)
    main := h.main.of_not_waiting hw rfl rfl rfl rfl (Nat.le_succ _) }

/-- B6, with ARMED as a fault leaves it, ends a boundary in the invariant. -/
theorem Midway.inv_tick {s : State} (h : Midway s) : Inv (tick (disarmAfterFault s)) := by
  obtain ⟨hs, hrx⟩ := h
  by_cases hf : s.fault = 0x00#8
  · rw [disarmAfterFault_live hf]
    exact ⟨hs.rb, hs.ring, ⟨hs.dly, (hs.armed hf).trans (and_iff_left hf).symm, hs.txl, hs.pend, hs.fault⟩, hs.tx, hrx,
      hs.main, hs.time⟩
  · rw [disarmAfterFault_of_fault hf]
    refine ⟨hs.rb, hs.ring, ⟨hs.dly, ?_, hs.txl, fun h0 => absurd h0 hf, hs.fault⟩, hs.tx, fun hsm => ?_, hs.main, hs.time⟩
    · exact ⟨fun h => (nomatch h), fun h => absurd h.2 hf⟩
    · obtain ⟨hie, hsie, htx, hw, ht0, -⟩ := hrx hsm
      exact ⟨hie, hsie, htx, hw, ht0, fun h0 => absurd h0 hf⟩

theorem midway_disarmAfterFault {s : State} (h : Midway s) : Midway (disarmAfterFault s) := by
  obtain ⟨hs, hrx⟩ := h
  by_cases hf : s.fault = 0x00#8
  · rw [disarmAfterFault_live hf]; exact ⟨hs, hrx⟩
  · rw [disarmAfterFault_of_fault hf]
    refine ⟨{ hs with armed := fun h0 => absurd h0 hf, pend := fun h0 => absurd h0 hf }, fun hsm => ?_⟩
    obtain ⟨hie, hsie, htx, hw, ht0, -⟩ := hrx hsm
    exact ⟨hie, hsie, htx, hw, ht0, fun h0 => absurd h0 hf⟩

/-! ### The commands -/

theorem settled_raiseFault {s : State} (c : FaultCode) (h : Settled s) (htx : s.txs = .idle)
    (hw : isWaiting s = false) : Settled (raiseFault c s) := by
  have hne := raiseFault_fault_ne_zero c s
  have hle : (raiseFault c s).fault.toNat ≤ 4 := by
    rw [raiseFault_eq]
    dsimp only
    split
    · exact c.code_le_four
    · exact h.fault
  rw [raiseFault_eq] at hne hle ⊢
  exact { h with
    armed := fun h0 => absurd h0 hne, pend := fun h0 => absurd h0 hne, fault := hle
    tx := txOk_of_idle htx (h.tx.ms_ne_inTxb htx)
    main := h.main.of_not_waiting hw rfl rfl rfl rfl (Nat.le_refl _) }

theorem settled_complete {s : State} (h : Settled s) (htx : s.txs = .idle) (hc : s.cp < s.stream.length) :
    Settled (complete s) :=
  { h with tx := txOk_of_idle htx nofun, main := mainOk_of_atCmd rfl hc }

theorem settled_ie {s : State} (b : Bool) (h : Settled s) (htx : s.txs = .idle) : Settled { s with ie := b } :=
  { h with tx := txOk_of_idle htx (h.tx.ms_ne_inTxb htx) }

theorem settled_result {s : State} (v : Word) (h : Settled s) : Settled (result v s) := { h with }

theorem settled_popResult {s : State} (h : Settled s) (hne : s.occ ≠ 0#7) : Settled (popResult s) :=
  { h with ring := ringOk_popResult h.ring hne }

theorem settled_initSucceed {s : State} {n : Byte} (hn : n ≠ 0x00#8) (h : Settled s) (htx : s.txs = .idle)
    (hc : s.cp < s.stream.length) : Settled (initSucceed n s) :=
  { h with
    ring := ⟨Nat.zero_le _, rfl⟩
    dly := iff_of_true rfl hn
    armed := fun _ => iff_of_true rfl rfl
    txl := iff_of_true nofun rfl
    pend := fun _ => nofun
    tx := txOk_of_idle htx nofun
    main := mainOk_of_atCmd rfl hc }

theorem settled_initFail {s : State} (hl : s.line ≠ .ready) (h : Settled s) (htx : s.txs = .idle)
    (hc : s.cp < s.stream.length) : Settled (initFail s) :=
  { h with
    dly := iff_of_false nofun (fun h => h rfl)
    armed := fun hf => iff_of_false (fun ha => hl ((h.armed hf).1 ha)) nofun
    txl := iff_of_false (fun ht => hl (h.txl.1 ht)) nofun
    tx := txOk_of_idle htx nofun
    main := mainOk_of_atCmd rfl hc }

/-- A TXB of this boundary lies in (ts, ts + 40] from the next one on. -/
theorem settled_txb {s : State} (b : Byte) (hl : s.line = .ready) (hf : s.fault = 0x00#8) (h : Settled s)
    (hc : s.cp < s.stream.length) :
    Settled { s with txl := some .L, ie := false, txs := .busy s.now (~~~b) s.ie, ms := .inTxb } :=
  { h with
    txl := iff_of_true nofun hl
    tx := ⟨rfl, rfl, hl, hf, Nat.lt_succ_self _, Nat.add_le_add_left (by decide) _⟩
    main := hc }

/-- A command, or a re-poll, of a live block inside the stream with the transmitter idle settles. -/
theorem settled_exec {i : Instr} {s t : State} (h : Settled s) (hf : s.fault = 0x00#8) (htx : s.txs = .idle)
    (hw : isWaiting s = false) (hc : s.cp < s.stream.length) (he : exec i s = .next t) : Settled t := by
  have hready : inPoll s = true ∨ s.line = .ready → s.line = .ready := by
    rintro (hp | hl)
    · obtain ⟨te, hm⟩ := (inPoll_iff s).1 hp
      exact (h.main.of_inRdb hm).2.1
    · exact hl
  rcases exec_cases he with ⟨c, rfl⟩ | ⟨_, hl, ⟨n, hn, rfl⟩ | ⟨_, rfl⟩⟩ | ⟨_, hl, rfl⟩ | ⟨_, rfl⟩ | ⟨_, rfl⟩ |
    ⟨b, _, hl, rfl⟩ | ⟨_, _, _, rfl⟩ | ⟨_, _, hne, rfl⟩ | ⟨_, hl, _, rfl⟩ | ⟨_, _, rfl⟩
  · exact settled_raiseFault c h htx hw
  · exact settled_initSucceed (delayCount_ne_zero hn) h htx hc
  · exact settled_initFail hl h htx hc
  · exact { h with tx := txOk_of_idle htx nofun, main := ⟨hc, hl, hf, rfl⟩ }
  · exact settled_complete (settled_ie true h htx) htx hc
  · exact settled_complete (settled_ie false h htx) htx hc
  · exact settled_txb b hl hf h hc
  · exact settled_complete (settled_result sentinel h) htx hc
  · exact settled_complete (settled_popResult h hne) htx hc
  · exact { h with tx := txOk_of_idle htx nofun, main := ⟨hc, hready hl, Nat.le_refl _⟩ }
  · exact settled_complete (settled_result s.ovfCnt h) htx hc

/-- At the end of the stream CP is its length. -/
theorem settled_done {s : State} (h : Settled s) (htx : s.txs = .idle) (hm : s.ms = .atCmd) (hend : fetch s = none) :
    Settled { s with ms := .done } := by
  have hc : s.cp ≤ s.stream.length := by
    have hmain := h.main
    rw [MainOk, show (tick s).ms = .atCmd from hm] at hmain
    exact hmain
  exact { h with tx := txOk_of_idle htx nofun, main := le_antisymm hc ((fetch_eq_none_iff s).1 hend) }

/-- No evaluation of B5's loop touches the receiver. -/
theorem Evaluates.rxs {s u : State} (h : Evaluates s u) : u.rxs = .idle := by
  obtain ⟨hr, h⟩ := h
  have hexec : ∀ i, exec i s = .next u → u.rxs = .idle := fun i he => by
    obtain ⟨-, -, -, ⟨hrxs, -⟩, -⟩ := commandFrame i s u he
    exact hrxs.trans ((mainRuns_iff s).1 hr).2
  rcases h with ⟨-, he⟩ | ⟨te, -, -, he⟩
  · rcases fetchExec_cases s with ⟨-, h'⟩ | ⟨w, -, -, h'⟩ | ⟨w, i, -, -, h'⟩
    · obtain rfl := Host.Outcome.next.inj (h'.symm.trans he)
      exact ((mainRuns_iff s).1 hr).2
    · obtain rfl := Host.Outcome.next.inj (h'.symm.trans he)
      rw [raiseFault_eq]
      exact ((mainRuns_iff s).1 hr).2
    · exact hexec i (h'.symm.trans he)
  · exact hexec .rdb he

theorem Evaluates.midway {s u : State} (h : Evaluates s u) (hs : Settled s) : Midway u := by
  refine ⟨?_, rxOk_of_idle h.rxs⟩
  obtain ⟨hr, h⟩ := h
  have hf := ((mainRuns_iff s).1 hr).1
  rcases h with ⟨hm, he⟩ | ⟨te, hm, -, he⟩
  · have htx : s.txs = .idle := hs.tx.idle_of (.inl (by simp [hm]))
    have hw : isWaiting s = false := isWaiting_eq_false (by simp [hm])
    rcases fetchExec_cases s with ⟨hend, h'⟩ | ⟨w, -, -, h'⟩ | ⟨w, i, hfetch, -, h'⟩
    · obtain rfl := Host.Outcome.next.inj (h'.symm.trans he)
      exact settled_done hs htx hm hend
    · obtain rfl := Host.Outcome.next.inj (h'.symm.trans he)
      exact settled_raiseFault _ hs htx hw
    · exact settled_exec hs hf htx hw (fetch_eq_some_lt hfetch) (h'.symm.trans he)
  · have htx : s.txs = .idle := hs.tx.idle_of (.inl (by simp [hm]))
    exact settled_exec hs hf htx (isWaiting_eq_false (by simp [hm])) (hs.main.of_inRdb hm).1 he

/-! ### B4: the interrupt entry -/

theorem episodeTicks_pos (p : Params) : 0 < episodeTicks p := by
  simp only [episodeTicks, Config.ticksPerBit, Config.dataBits]; omega

/-- An entry, where R53's condition holds and MAIN is not in a WAITQ, begins a reception or is spurious. -/
theorem midway_enterReceiver {s : State} (h : Settled s) (hf : s.fault = 0x00#8) (hr : entryReady s = true)
    (hw : isWaiting s = false) : Midway (enterReceiver s) := by
  obtain ⟨-, hp, hie⟩ := (entryReady_iff s).1 hr
  have htx : s.txs = .idle := h.tx.idle_of (.inr (.inl hie))
  have hs : Settled { s with pend := false, tr := none } :=
    { h with pend := fun _ => nofun, time := ⟨nofun, h.time.2⟩ }
  rcases enterReceiver_cases s with ⟨-, he⟩ | ⟨-, he⟩ <;> rw [he]
  · refine ⟨{ settled_ie false hs htx with }, fun _ => ⟨rfl, hie, htx, hw, Nat.lt_succ_self _, fun _ => ⟨h.pend hf hp, ?_⟩⟩⟩
    exact Nat.add_le_add_left (episodeTicks_pos s.params) s.now
  · exact ⟨{ hs with }, rxOk_of_idle rfl⟩

/-- A wait began at a boundary that has come. -/
theorem waitStart_le {s : State} (h : TimeOk (tick s)) : waitStart s ≤ s.now := by
  unfold waitStart
  cases htr : s.tr with
  | none => exact Nat.le_refl s.now
  | some u => exact Nat.lt_succ_iff.1 (h.1 u htr)

theorem midway_interruptEntry {s : State} (h : Midway s) (hw : isWaiting s = false) : Midway (interruptEntry s) := by
  obtain ⟨hs, hrx⟩ := h
  have hwait : ∀ t, some (waitStart s) = some t → t < s.now + 1 := fun t ht =>
    Option.some.inj ht ▸ Nat.lt_succ_of_le (waitStart_le hs.time)
  by_cases hf : s.fault = 0x00#8
  · cases hr : entryReady s
    · rw [interruptEntry_of_not_ready hf hr]
      exact ⟨{ hs with time := ⟨nofun, hs.time.2⟩ }, hrx⟩
    · have hs' : Settled { s with tr := some (waitStart s), draws := s.draws + 1 } :=
        { hs with time := ⟨hwait, hs.time.2⟩ }
      cases hb : entryForced s
      · rcases interruptEntry_of_not_forced hf hr hb with he | he <;> rw [he]
        · exact ⟨hs', hrx⟩
        · exact midway_enterReceiver hs' hf hr hw
      · rw [interruptEntry_of_forced hf hr hb]
        exact midway_enterReceiver hs hf hr hw
  · rw [interruptEntry_of_fault hf]; exact ⟨hs, hrx⟩

/-! ### B3: edges -/

/-- An edge may set PEND of an armed block. -/
theorem Midway.pend_draws {s : State} {p : Bool} (n : Nat) (h : Midway s)
    (hp : s.fault = 0x00#8 → p = true → s.armed = true) : Midway { s with pend := p, draws := n } :=
  ⟨{ h.1 with pend := hp }, h.2⟩

theorem midway_detectEdge {s : State} (h : Midway s) : Midway (detectEdge s) := by
  obtain ⟨p, n, he, -, hp⟩ := detectEdge_cases s
  rw [he]
  refine h.pend_draws n fun hf hpt => ?_
  cases ha : s.armed
  · rw [(hp ha).1] at hpt
    rw [← ha]; exact h.1.pend hf hpt
  · rfl

theorem midway_ownEdge {b s : State} (h : Midway s) (hb : b.armed = true → s.fault = 0x00#8 → s.armed = true) :
    Midway (ownEdge b s) := by
  obtain ⟨p, n, he, -, hp⟩ := ownEdge_cases b s
  rw [he]
  refine h.pend_draws n fun hf hpt => ?_
  cases ha : b.armed
  · rw [(hp ha).1] at hpt
    exact h.1.pend hf hpt
  · exact hb ha hf

/-! ### B1 and B2 -/

theorem settled_push {s : State} (b : Byte) (h : Settled s) (htx : s.txs = .idle) (hw : isWaiting s = false) :
    Settled (push b s) := by
  have hrb := push_rb_wf b h.rb
  have hring := ringOk_push b h.ring
  rcases push_cases b s with ⟨-, he⟩ | ⟨-, -, he⟩ | ⟨-, -, he⟩ | ⟨-, -, he⟩ <;> rw [he] at hrb hring ⊢
  · exact { h with rb := hrb, ring := hring }
  · exact { h with rb := hrb, ring := hring }
  · exact { h with ring := hring }
  · exact settled_raiseFault _ h htx hw

/-- The completion of a reception ends it, or leaves the block halted in it. -/
theorem midway_completeReception {s : State} (h : Settled s) (hsm : s.rxs = .sampling) (hrx : RxOk s) :
    Midway (completeReception s) := by
  obtain ⟨hie, hsie, htx, hw, ht0, -⟩ := hrx hsm
  have hpush := settled_push s.acc h htx hw
  have hframe := push_frame s.acc s
  unfold completeReception
  dsimp only
  split
  · exact ⟨{ settled_ie (push s.acc s).rxSie hpush (by rw [hframe]; exact htx) with }, rxOk_of_idle rfl⟩
  · rename_i hf
    refine ⟨hpush, fun _ => ?_⟩
    rw [hframe] at hf ⊢
    exact ⟨hie, hsie, htx, hw, Nat.lt_succ_of_lt ht0, fun h0 => absurd h0 hf⟩

theorem sampleStep_eq (s : State) : sampleStep s = { s with acc := (sampleStep s).acc } := by
  unfold sampleStep; split <;> rfl

/-- B1 of a reception. -/
theorem midway_receiverProgress {s : State} (h : Inv s) (hf : s.fault = 0x00#8) (hsm : s.rxs = .sampling) :
    Midway (receiverProgress s) := by
  obtain ⟨hie, hsie, htx, hw, ht0, hlive⟩ := h.rx hsm
  obtain ⟨harmed, hlast⟩ := hlive hf
  have hs : Settled (sampleStep s) := by
    rw [sampleStep_eq]; exact { settled_of_inv h htx hw with }
  rw [receiverProgress, if_pos ⟨hf, hsm⟩]
  dsimp only
  rw [sampleStep_eq] at hs ⊢
  split
  · exact midway_completeReception hs hsm h.rx
  · rename_i hnow
    refine ⟨hs, fun _ => ⟨hie, hsie, htx, hw, Nat.lt_succ_of_lt ht0, fun _ => ⟨harmed, ?_⟩⟩⟩
    exact Nat.lt_of_le_of_ne hlast hnow

/-- B2 of a transmission: it goes on into the next tick, or completes at ts + 40. -/
theorem settled_txBoundary {s : State} {ts : Nat} {c : Byte} {sie : Bool} (h : Inv s) (htx : s.txs = .busy ts c sie) :
    Settled (txBoundary s) ∧ isWaiting (txBoundary s) = false := by
  have hs := statusSettled_of_inv h
  obtain ⟨hm, hie, hl, hf, hts, hnow⟩ := h.tx.of_busy htx
  have hc := h.main.of_inTxb hm
  have hw : isWaiting s = false := isWaiting_eq_false (by simp [hm])
  rcases txBoundary_cases htx with ⟨-, he⟩ | ⟨hlt, l, c', hl', he⟩ <;> rw [he]
  · exact ⟨{ hs with tx := txOk_of_idle rfl nofun, main := mainOk_of_atCmd rfl hc }, rfl⟩
  · refine ⟨{ hs with
      txl := iff_of_true (hl' (hs.txl.2 hl)) hl
      tx := ⟨hm, hie, hl, hf, Nat.lt_succ_of_lt hts, Nat.lt_of_le_of_ne hnow hlt⟩
      main := h.main.of_not_waiting hw rfl rfl rfl rfl (Nat.le_succ _) }, hw⟩

/-- B2 of a live block: nothing stays in a WAITQ, for a WAITQ of the last boundary is due at this one. -/
theorem settled_mainProgress {s : State} (h : Inv s) (hf : s.fault = 0x00#8) :
    Settled (mainProgress s) ∧ isWaiting (mainProgress s) = false := by
  cases htx : s.txs with
  | busy ts c sie =>
    rw [mainProgress_inTxb hf (h.tx.of_busy htx).1]
    exact settled_txBoundary h htx
  | idle =>
    cases hw : isWaiting s
    · rw [mainProgress_still (h.tx.ms_ne_inTxb htx) hw]
      exact ⟨settled_of_inv h htx hw, hw⟩
    · obtain ⟨te, hm⟩ := (isWaiting_iff s).1 hw
      obtain ⟨hc, -, -, rfl⟩ := h.main.of_inWaitq hm
      rw [mainProgress_inWaitq hf hm]
      exact ⟨{ statusSettled_of_inv h with tx := txOk_of_idle htx nofun, main := mainOk_of_atCmd rfl hc }, rfl⟩

theorem mainProgress_rxs (s : State) : (mainProgress s).rxs = s.rxs := by
  obtain ⟨_, _, _, _, _, h⟩ := mainProgress_frame s
  rw [h]

theorem receiverProgress_main (s : State) :
    (receiverProgress s).ms = s.ms ∧ isWaiting (receiverProgress s) = isWaiting s := by
  obtain ⟨_, _, _, _, _, _, _, _, _, h⟩ := receiverProgress_frame s
  rw [h]; exact ⟨rfl, rfl⟩

/-- B1 and B2: of a reception and a timed command at most one is at work. -/
theorem midway_beforeEdge {s : State} (h : Inv s) (hf : s.fault = 0x00#8) :
    Midway (beforeEdge s) ∧ isWaiting (beforeEdge s) = false := by
  have hmid : Midway (mainProgress (receiverProgress s)) ∧ isWaiting (mainProgress (receiverProgress s)) = false := by
    cases hrxs : s.rxs with
    | idle =>
      rw [receiverProgress_idle hrxs]
      obtain ⟨hs, hw⟩ := settled_mainProgress h hf
      exact ⟨⟨hs, rxOk_of_idle ((mainProgress_rxs s).trans hrxs)⟩, hw⟩
    | sampling =>
      obtain ⟨-, -, htx, hw, -, -⟩ := h.rx hrxs
      obtain ⟨hms, hw'⟩ := receiverProgress_main s
      rw [hw] at hw'
      rw [mainProgress_still (by rw [hms]; exact h.tx.ms_ne_inTxb htx) hw']
      exact ⟨midway_receiverProgress h hf hrxs, hw'⟩
  refine ⟨midway_disarmAfterFault hmid.1, ?_⟩
  obtain ⟨a, ha, -⟩ := disarmAfterFault_cases (mainProgress (receiverProgress s))
  rw [beforeEdge, ha]; exact hmid.2

/-- B3 leaves MAIN where it is. -/
theorem detectEdge_isWaiting (s : State) : isWaiting (detectEdge s) = isWaiting s := by
  obtain ⟨p, n, h, -⟩ := detectEdge_cases s
  rw [h]; rfl

theorem midway_beforeMain {s : State} (h : Inv s) (hf : s.fault = 0x00#8) : Midway (beforeMain s) := by
  obtain ⟨hmid, hw⟩ := midway_beforeEdge h hf
  exact midway_interruptEntry (midway_detectEdge hmid) ((detectEdge_isWaiting _).trans hw)

/-! ### B5 and the boundary as a whole -/

theorem midway_mainLoop {fuel : Nat} {s t : State} (hs : Midway s) (h : mainLoop fuel s = .next t) : Midway t :=
  mainLoop_preserves (P := Midway) (fun _ _ hs hu => hu.midway hs.1)
    (fun u hu hc => midway_interruptEntry hu (isWaiting_eq_false (by simp [((completedNow_iff u).1 hc).2])))
    fuel s t hs h

/-- A halted block is in no timed command, so time alone passes. -/
theorem inv_haltedBoundary {s : State} (h : Inv s) (hf : s.fault ≠ 0x00#8) : Inv (haltedBoundary s) := by
  have htx : s.txs = .idle := h.tx.idle_of (.inr (.inr hf))
  have hw : isWaiting s = false := isWaiting_eq_false fun te hm => by
    obtain ⟨-, -, hlive, -⟩ := h.main.of_inWaitq hm
    exact hf hlive
  have hrx : RxOk (tick s) := fun hsm => by
    obtain ⟨hie, hsie, -, -, ht0, -⟩ := h.rx hsm
    exact ⟨hie, hsie, htx, hw, Nat.lt_succ_of_lt ht0, fun h0 => absurd h0 hf⟩
  have hquiet : detectEdge (disarmAfterFault s) = disarmAfterFault s :=
    detectEdge_quiet (by rw [disarmAfterFault_of_fault hf]; rfl)
  rw [haltedBoundary, hquiet]
  exact Midway.inv_tick ⟨settled_of_inv h htx hw, hrx⟩

/-- Settles O12: B1 to B5 keep `Midway`, and B6 turns it into `Inv`. -/
theorem everyStepKeepsTheInvariant : Obligations.EveryStepKeepsTheInvariant := by
  intro s t h hstep
  by_cases hf : s.fault = 0x00#8
  · obtain ⟨u, hu, rfl⟩ := step_cases hstep
    have hmain : Midway u := midway_mainLoop (midway_beforeMain h hf) hu
    have harmed : (beforeEdge s).armed = true → u.fault = 0x00#8 → u.armed = true :=
      ((onward_beforeMain s).trans (onward_mainLoop hu)).armed
    exact (midway_ownEdge hmain harmed).inv_tick
  · obtain rfl := Host.Outcome.next.inj ((step_of_fault hf).symm.trans hstep)
    exact inv_haltedBoundary h hf

end Sys2Proof.Machine
end

section
/-! PROOF. Who writes RB and W: the PUSH of B1, and of W also INIT (spec/20_memory.md section 1). -/

namespace Sys2Proof.Machine

/-! ### The PUSH of B1 -/

theorem push_memRead_other (b : Byte) (s : State) {i : BitVec 6} (hi : i ≠ s.w) : memRead (push b s) i = memRead s i := by
  have hwrite : memRead (memWrite s.w b s) i = memRead s i := by rw [memRead_memWrite, if_neg hi]
  rcases push_cases b s with ⟨-, h⟩ | ⟨-, -, h⟩ | ⟨-, -, h⟩ | ⟨-, -, h⟩ <;> rw [h]
  · exact hwrite
  · exact hwrite
  · rfl
  · rw [raiseFault_eq]; rfl

theorem completeReception_rb (s : State) : (completeReception s).rb = (push s.acc s).rb := by
  unfold completeReception; dsimp only; split <;> rfl

/-- The reception in progress is at its completion (R209): live, SAMPLING, and at T0 + o + 32 + RX_TAIL_Q. -/
def AtCompletion (s : State) : Prop := s.fault = 0x00#8 ∧ s.rxs = .sampling ∧ s.now = s.t0 + episodeTicks s.params

/-- B1 of any other boundary writes ACC at most. -/
theorem receiverProgress_of_not_atCompletion {s : State} (h : ¬ AtCompletion s) :
    ∃ acc, receiverProgress s = { s with acc := acc } := by
  unfold receiverProgress
  split
  · obtain ⟨hf, hsm⟩ := ‹s.fault = 0x00#8 ∧ s.rxs = .sampling›
    dsimp only
    rw [sampleStep_eq, if_neg fun hnow => h ⟨hf, hsm, hnow⟩]
    exact ⟨_, rfl⟩
  · exact ⟨s.acc, rfl⟩

/-- B1 writes no byte of RB but the one at W. -/
theorem receiverProgress_memRead_other (s : State) {i : BitVec 6} (hi : i ≠ s.w) :
    memRead (receiverProgress s) i = memRead s i := by
  by_cases hc : AtCompletion s
  · obtain ⟨hf, hsm, hnow⟩ := hc
    rw [receiverProgress, if_pos ⟨hf, hsm⟩]
    dsimp only
    rw [sampleStep_eq, if_pos hnow, memRead, completeReception_rb]
    exact push_memRead_other _ { s with acc := (sampleStep s).acc } hi
  · obtain ⟨_, h⟩ := receiverProgress_of_not_atCompletion hc
    rw [h]; rfl

/-! ### From B1 to B6 -/

/-- t comes after s within one boundary, without a PUSH between: RB reads as before, and W is as before unless INIT made the
line READY. -/
structure WithoutPush (s t : State) : Prop extends Onward s t where
  rb : SameRb s t
  w : t.w = s.w ∨ (s.line ≠ .ready ∧ t.line = .ready ∧ t.w = 0#6)

theorem WithoutPush.refl (s : State) : WithoutPush s s := { Onward.refl s with rb := fun _ => rfl, w := .inl rfl }

/-- INIT makes the line READY once: no step undoes it. -/
theorem WithoutPush.trans {s t u : State} (h : WithoutPush s t) (k : WithoutPush t u) : WithoutPush s u where
  toOnward := h.toOnward.trans k.toOnward
  rb i := (k.rb i).trans (h.rb i)
  w := by
    rcases h.w, k.w with ⟨hw | ⟨hs, ht, hw⟩, kw | ⟨kt, ku, kw⟩⟩
    · exact .inl (kw.trans hw)
    · exact .inr ⟨fun hs => kt (h.line hs).1, ku, kw⟩
    · exact .inr ⟨hs, (k.line ht).1, kw.trans hw⟩
    · exact absurd ht kt

theorem Onward.withoutPush {s t : State} (h : Onward s t) (hrb : t.rb = s.rb) (hw : t.w = s.w) : WithoutPush s t :=
  { h with rb := fun i => congrArg (Memory.read · i.toNat) hrb, w := .inl hw }

theorem withoutPush_mainProgress (s : State) : WithoutPush s (mainProgress s) := by
  obtain ⟨_, _, _, _, _, h⟩ := mainProgress_frame s
  exact (onward_mainProgress s).withoutPush (by rw [h]) (by rw [h])

theorem withoutPush_disarmAfterFault (s : State) : WithoutPush s (disarmAfterFault s) := by
  obtain ⟨_, h, -⟩ := disarmAfterFault_cases s
  exact (onward_disarmAfterFault s).withoutPush (by rw [h]) (by rw [h])

theorem withoutPush_detectEdge (s : State) : WithoutPush s (detectEdge s) := by
  obtain ⟨_, _, h, -⟩ := detectEdge_cases s
  exact (onward_detectEdge s).withoutPush (by rw [h]) (by rw [h])

theorem withoutPush_ownEdge (b s : State) : WithoutPush s (ownEdge b s) := by
  obtain ⟨_, _, h, -⟩ := ownEdge_cases b s
  exact (onward_ownEdge b s).withoutPush (by rw [h]) (by rw [h])

theorem withoutPush_interruptEntry (s : State) : WithoutPush s (interruptEntry s) := by
  obtain ⟨_, _, _, _, _, _, _, _, h⟩ := interruptEntry_frame s
  exact (onward_interruptEntry s).withoutPush (by rw [h]) (by rw [h])

theorem withoutPush_raiseFault (c : FaultCode) (s : State) : WithoutPush s (raiseFault c s) :=
  (onward_raiseFault c s).withoutPush (by rw [raiseFault_eq]) (by rw [raiseFault_eq])

/-- INIT's outcomes: a fault, W = 0 on a line made READY, and a failure that leaves W (R143). -/
theorem exec_init_w {s t : State} (h : exec .init s = .next t) :
    t.w = s.w ∨ (s.line ≠ .ready ∧ t.line = .ready ∧ t.w = 0#6) := by
  rcases execInit_cases s with ⟨-, he⟩ | ⟨hl, n, -, he⟩ | ⟨-, -, he⟩ <;>
    obtain rfl := Host.Outcome.next.inj (he.symm.trans h)
  · rw [raiseFault_eq]; exact .inl rfl
  · exact .inr ⟨hl, rfl, rfl⟩
  · exact .inl rfl

theorem withoutPush_exec {i : Instr} {s t : State} (h : exec i s = .next t) : WithoutPush s t := by
  obtain ⟨-, -, -, -, -, hrb, hw⟩ := commandFrame i s t h
  refine { onward_exec h with rb := hrb, w := ?_ }
  by_cases hi : i = .init
  · subst hi; exact exec_init_w h
  · exact .inl (hw hi)

theorem withoutPush_fetchExec {s t : State} (h : fetchExec s = .next t) : WithoutPush s t := by
  rcases fetchExec_cases s with ⟨-, he⟩ | ⟨w, -, -, he⟩ | ⟨w, i, -, -, he⟩
  · have hon := onward_fetchExec he
    obtain rfl := Host.Outcome.next.inj (he.symm.trans h)
    exact hon.withoutPush rfl rfl
  · obtain rfl := Host.Outcome.next.inj (he.symm.trans h)
    exact withoutPush_raiseFault _ s
  · exact withoutPush_exec (he.symm.trans h)

theorem Evaluates.withoutPush {s u : State} (h : Evaluates s u) : WithoutPush s u := by
  obtain ⟨-, ⟨-, he⟩ | ⟨te, -, -, he⟩⟩ := h
  · exact withoutPush_fetchExec he
  · exact withoutPush_exec he

theorem withoutPush_mainLoop {fuel : Nat} {s t : State} (h : mainLoop fuel s = .next t) : WithoutPush s t :=
  mainLoop_preserves (P := WithoutPush s) (fun _ _ hs hu => hs.trans hu.withoutPush)
    (fun u hu _ => hu.trans (withoutPush_interruptEntry u)) fuel s t (.refl s) h

/-- After B1, B2 to B5 are without a PUSH, and B6 keeps the ring and the line. -/
theorem step_withoutPush {s t : State} (h : step s = .next t) :
    ∃ v, WithoutPush (receiverProgress s) v ∧ t = tick v := by
  obtain ⟨u, hu, rfl⟩ := step_cases h
  have hB2 := (withoutPush_mainProgress (receiverProgress s)).trans (withoutPush_disarmAfterFault _)
  have hB4 : WithoutPush (beforeEdge s) (beforeMain s) :=
    (withoutPush_detectEdge _).trans (withoutPush_interruptEntry _)
  have hB5 := (withoutPush_mainLoop hu).trans
    ((withoutPush_ownEdge (beforeEdge s) u).trans (withoutPush_disarmAfterFault _))
  exact ⟨_, hB2.trans (hB4.trans hB5), rfl⟩

/-- Settles O29: only B1 writes RB, at its completion and at W, and after B1 only INIT writes W. -/
theorem rbIsWrittenOnlyByAPush : Obligations.RbIsWrittenOnlyByAPush := by
  intro s t h
  obtain ⟨v, hv, rfl⟩ := step_withoutPush h
  by_cases hc : AtCompletion s
  · refine ⟨fun i hi => ⟨?_, hc⟩, fun _ => .inl hc⟩
    by_contra hne
    exact hi ((hv.rb i).trans (receiverProgress_memRead_other s hne))
  · obtain ⟨_, hB1⟩ := receiverProgress_of_not_atCompletion hc
    rw [hB1] at hv
    exact ⟨fun i hi => absurd (hv.rb i) hi, fun hw => .inr (hv.w.resolve_left hw)⟩

end Sys2Proof.Machine
end

section
/-! PROOF. The decoder: its inverse on the words of the commands, the rows of the opcode table, the count of the legal words,
and the effect of an illegal one (spec/30_encoding.md section 2). -/

namespace Sys2Proof.Machine

/-! ### The fields of a word -/

@[simp] theorem opField_mkWord (op arg : Byte) : opField (mkWord op arg) = op := BitVec.extractLsb'_append_eq_left

@[simp] theorem argField_mkWord (op arg : Byte) : argField (mkWord op arg) = arg := BitVec.extractLsb'_append_eq_right

@[simp] theorem mkWord_fields (w : Word) : mkWord (opField w) (argField w) = w :=
  (BitVec.extractLsb'_append_extractLsb'_eq_extractLsb' rfl).trans BitVec.extractLsb'_eq_self

/-- A word is its two fields (R101). -/
theorem eq_mkWord_iff {w : Word} {op arg : Byte} : w = mkWord op arg ↔ opField w = op ∧ argField w = arg := by
  refine ⟨?_, ?_⟩
  · rintro rfl
    exact ⟨opField_mkWord op arg, argField_mkWord op arg⟩
  · rintro ⟨rfl, rfl⟩
    exact (mkWord_fields w).symm

/-! ### Decode and encode -/

theorem noOperand_eq_cmd_iff {arg : Byte} {i j : Instr} : noOperand arg i = .cmd j ↔ arg = 0x00#8 ∧ i = j := by
  unfold noOperand
  split <;> simp [*]

theorem decodeWord_encode (i : Instr) : decodeWord (encode i) = .cmd i := by
  cases i with
  | txb b => simp [decodeWord, encode]
  | _ => rfl

/-- A branch of R105 that takes no operand gives the command whose word is {op, 0x00}. -/
theorem eq_encode_of_noOperand {w : Word} {op : Byte} {i j : Instr} (hop : opField w = op)
    (he : encode i = mkWord op 0x00#8) (h : noOperand (argField w) i = .cmd j) : w = encode j := by
  obtain ⟨harg, rfl⟩ := noOperand_eq_cmd_iff.1 h
  rw [he]
  exact eq_mkWord_iff.2 ⟨hop, harg⟩

/-- Each branch of R105 that gives a command has fixed the word's two fields. -/
theorem eq_encode_of_decodeWord {w : Word} {i : Instr} (h : decodeWord w = .cmd i) : w = encode i := by
  unfold decodeWord at h
  split at h
  · exact eq_encode_of_noOperand ‹_› rfl h
  split at h
  · exact eq_encode_of_noOperand ‹_› rfl h
  split at h
  · exact eq_encode_of_noOperand ‹_› rfl h
  split at h
  · exact eq_encode_of_noOperand ‹_› rfl h
  split at h
  · obtain rfl := Decoded.cmd.inj h
    exact eq_mkWord_iff.2 ⟨‹_›, rfl⟩
  split at h
  · split at h
    · obtain rfl := Decoded.cmd.inj h
      exact eq_mkWord_iff.2 ⟨‹_›, ‹_›⟩
    · split at h
      · obtain rfl := Decoded.cmd.inj h
        exact eq_mkWord_iff.2 ⟨‹_›, ‹_›⟩
      · cases h
  split at h
  · exact eq_encode_of_noOperand ‹_› rfl h
  · cases h

theorem decodeWord_eq_cmd_iff {w : Word} {i : Instr} : decodeWord w = .cmd i ↔ w = encode i := by
  refine ⟨eq_encode_of_decodeWord, ?_⟩
  rintro rfl
  exact decodeWord_encode i

theorem decodeWord_ne_illegal_iff {w : Word} : decodeWord w ≠ .illegal ↔ ∃ i, w = encode i := by
  simp only [← decodeWord_eq_cmd_iff]
  cases decodeWord w <;> simp

/-! ### The opcode table -/

theorem mem_opcodeRows_iff {row : OpRow} : row ∈ opcodeRows ↔ ∃ i : Instr, i.row = row := by
  refine ⟨fun h => ?_, ?_⟩
  · simp only [opcodeRows, List.mem_cons, List.not_mem_nil, or_false] at h
    rcases h with rfl | rfl | rfl | rfl | rfl | rfl | rfl | rfl <;> exact ⟨_, rfl⟩
  · rintro ⟨i, rfl⟩
    cases i <;> simp [opcodeRows, Instr.row]

/-- The word of a command lies in the command's row. -/
theorem row_selects_encode (i : Instr) : encode i &&& i.row.mask = i.row.pattern := by
  cases i with
  | txb b => exact of_decide_eq_true (Laws.OpcodeRow.txb b).2.2
  | _ => rfl

theorem and_fullMask (w : Word) : w &&& 0xFFFF#16 = w := BitVec.and_allOnes

/-- The mask 0xFF00 leaves OP as it is. -/
theorem opField_and_opMask (w : Word) : opField (w &&& 0xFF00#16) = opField w :=
  BitVec.extractLsb'_and.trans BitVec.and_allOnes

/-- A word in the row of i is the word of a command of that row: of i itself, or of a TXB with the word's own ARG. -/
theorem exists_encode_of_selects {w : Word} {i : Instr} (h : w &&& i.row.mask = i.row.pattern) :
    ∃ j, w = encode j ∧ j.row = i.row := by
  cases i with
  | txb b =>
    have hop : opField w = 0x10#8 :=
      calc opField w = opField (w &&& 0xFF00#16) := (opField_and_opMask w).symm
        _ = opField 0x1000#16 := congrArg opField h
        _ = 0x10#8 := rfl
    exact ⟨.txb (argField w), eq_mkWord_iff.2 ⟨hop, rfl⟩, rfl⟩
  | _ =>
    refine ⟨_, (and_fullMask w).symm.trans ?_, rfl⟩
    exact h

/-- A row of the table selects the words that decode to its commands (R103). -/
theorem row_selects_iff {w : Word} {row : OpRow} (hrow : row ∈ opcodeRows) :
    w &&& row.mask = row.pattern ↔ ∃ i, decodeWord w = .cmd i ∧ i.row = row := by
  obtain ⟨i, rfl⟩ := mem_opcodeRows_iff.1 hrow
  simp only [decodeWord_eq_cmd_iff]
  refine ⟨exists_encode_of_selects, ?_⟩
  rintro ⟨j, rfl, hj⟩
  rw [← hj]
  exact row_selects_encode j

/-- Settles O3: a word decodes to one command at most, and that command stands in one row. -/
theorem rowsSelectTheDecodedCommand : Obligations.RowsSelectTheDecodedCommand := by
  refine ⟨rfl, fun w row hrow => row_selects_iff hrow, fun w row hrow row' hrow' h h' => ?_⟩
  obtain ⟨i, hi, rfl⟩ := (row_selects_iff hrow).1 h
  obtain ⟨j, hj, rfl⟩ := (row_selects_iff hrow').1 h'
  obtain rfl : i = j := Decoded.cmd.inj (hi.symm.trans hj)
  rfl

/-! ### The legal words -/

theorem encode_injective : Function.Injective encode := fun i j h =>
  Decoded.cmd.inj <| by rw [← decodeWord_encode i, h, decodeWord_encode]

theorem legalWords_eq_range_encode : {w : Word | decodeWord w ≠ .illegal} = Set.range encode := by
  ext w
  exact decodeWord_ne_illegal_iff.trans (exists_congr fun _ => eq_comm)

/-- The commands without an operand. -/
def singleCommands : Finset Instr := {.init, .waitq, .ei, .di, .rdnb, .rdb, .rdovf}

theorem univ_eq_txb_union_single : (Set.univ : Set Instr) = Set.range Instr.txb ∪ ↑singleCommands := by
  ext i
  cases i <;> simp [singleCommands]

theorem disjoint_txb_single : Disjoint (Set.range Instr.txb) ↑singleCommands := by
  rw [Set.disjoint_left]
  rintro _ ⟨b, rfl⟩
  simp [singleCommands]

/-- A TXB for each byte. -/
theorem ncard_txb : (Set.range Instr.txb).ncard = 256 := by
  have hinj : Function.Injective Instr.txb := fun _ _ => Instr.txb.inj
  have hbyte : Nat.card Byte = 2 ^ 8 := (Nat.card_congr BitVec.equivFin.toEquiv).trans (Nat.card_fin _)
  rw [Set.ncard_range_of_injective hinj, hbyte]
  rfl

theorem ncard_single : (↑singleCommands : Set Instr).ncard = 7 := Set.ncard_coe_finset _

/-- Settles O4: "256 TXB words plus the 7 single words" (R106). -/
theorem legalWordsAre263 : Obligations.LegalWordsAre263 := by
  unfold Obligations.LegalWordsAre263
  rw [legalWords_eq_range_encode, Set.ncard_range_of_injective encode_injective, ← Set.ncard_univ,
    univ_eq_txb_union_single,
    Set.ncard_union_eq disjoint_txb_single (Set.finite_range _) singleCommands.finite_toSet, ncard_txb, ncard_single]

/-! ### An illegal word in a boundary -/

/-- An illegal word raises F_ILLEGAL_OP in any state (R105). -/
theorem fetchExec_raises_illegalOp {s : State} {w : Word} (hw : fetch s = some w) (hd : decodeWord w = .illegal) :
    fetchExec s = .next { s with fault := if s.fault = 0x00#8 then 0x01#8 else s.fault } := by
  simp only [fetchExec, hw, hd, raiseFault_eq, FaultCode.code]

/-- B3 and B4 leave all that the edge at this boundary depends on. -/
theorem edgeNow_beforeMain (s : State) : edgeNow (beforeMain s) = edgeNow (beforeEdge s) := by
  obtain ⟨_, _, hdetect, -⟩ := detectEdge_cases (beforeEdge s)
  obtain ⟨_, _, _, _, _, _, _, _, hentry⟩ := interruptEntry_frame (detectEdge (beforeEdge s))
  rw [beforeMain, hentry, hdetect]; rfl

theorem edgeNow_fault (s : State) (f : Byte) : edgeNow { s with fault := f } = edgeNow s := rfl

/-- Without a new edge in B5 there is no edge of the own start bit. -/
theorem ownEdge_same {atB3 s : State} (h : edgeNow s = edgeNow atB3) : ownEdge atB3 s = s := by
  unfold ownEdge
  rw [h]
  simp

/-- After a B5 that faulted without making an edge: ARMED ends, and B6. -/
theorem afterMain_of_fault {atB3 s : State} (he : edgeNow s = edgeNow atB3) (hf : s.fault ≠ 0x00#8) :
    afterMain atB3 s = { s with armed := false, now := s.now + 1, txHist := s.txl :: s.txHist } := by
  rw [afterMain, ownEdge_same he, disarmAfterFault_of_fault hf, tick]

/-- B5's loop ends at an illegal word, with the fault (R52). -/
theorem mainLoop_illegal {s : State} {w : Word} (hr : mainRuns s = true) (hm : s.ms = .atCmd) (hw : fetch s = some w)
    (hd : decodeWord w = .illegal) (fuel : Nat) : mainLoop (fuel + 1) s = .next { s with fault := 0x01#8 } := by
  rw [mainLoop_atCmd hr hm, fetchExec_of_illegal ((mainRuns_iff s).1 hr).1 hw hd]
  exact loopOn_stopped (by simp [completedNow]) fuel

/-- A boundary whose B5 begins at an illegal word: the fault, ARMED that it ends, and B6. -/
theorem step_of_illegal {s : State} {w : Word} (hr : mainRuns (beforeMain s) = true) (hm : (beforeMain s).ms = .atCmd)
    (hw : fetch (beforeMain s) = some w) (hd : decodeWord w = .illegal) :
    step s = .next { beforeMain s with
      fault := 0x01#8, now := (beforeMain s).now + 1, txHist := (beforeMain s).txl :: (beforeMain s).txHist,
      armed := false } := by
  have hedge : edgeNow { beforeMain s with fault := 0x01#8 } = edgeNow (beforeEdge s) :=
    (edgeNow_fault _ _).trans (edgeNow_beforeMain s)
  rw [step_eq, mainFuel, mainLoop_illegal hr hm hw hd, andThen_next, afterMain_of_fault hedge (by simp)]

/-- Settles O5: each command has one word, a word is its two fields, and an illegal one raises the fault and ends B5. -/
theorem decodingAndTheIllegalFault : Obligations.DecodingAndTheIllegalFault := by
  refine ⟨fun w => ?fields, fun u w => fetchExec_raises_illegalOp, fun s w hr hm hw hd => ⟨?fault, ?boundary⟩⟩
  case fields => simp only [decodeWord_eq_cmd_iff, encode, eq_mkWord_iff, implies_true, and_self]
  case fault => exact fetchExec_of_illegal ((mainRuns_iff _).1 hr).1 hw hd
  case boundary => exact ⟨_, step_of_illegal hr hm hw hd, rfl⟩

/-! ### The examples of R115 -/

/-- Settles O1: fixed words and fixed lines, evaluated; the words that decode are those of `encode`. -/
theorem commandWordsDecode : Obligations.CommandWordsDecode := by
  refine ⟨decodeWord_encode .init, decodeWord_encode .ei, decodeWord_encode (.txb 0x41#8), decodeWord_encode (.txb 0x00#8),
    decodeWord_encode (.txb 0xFF#8), decodeWord_encode .rdnb, decodeWord_encode .rdb, decodeWord_encode .rdovf,
    decodeWord_encode .waitq, decodeWord_encode .di, ?_⟩
  decide

end Sys2Proof.Machine
end

section
/-! PROOF. INIT and its delay count, WAITQ, the line that is not READY, and the calibration
(spec/40_timing_primitive.md). -/

namespace Sys2Proof.Machine

/-! ### The delay count, and the readings of its division -/

/-- On an integer scale the bounds of R142 need no separate check that q reaches K_OVH. -/
theorem delayCount_eq_some_int {clk baud : Nat} {n : Byte} (hb : 0 < baud) :
    delayCount clk baud = some n ↔
      1 ≤ (((clk / baud : Nat) : ℤ) - 39) / 12 ∧ (((clk / baud : Nat) : ℤ) - 39) / 12 ≤ 255 ∧
        (n.toNat : ℤ) = (((clk / baud : Nat) : ℤ) - 39) / 12 := by
  refine ⟨fun h => ?_, fun ⟨h1, h255, hn⟩ => delayCount_eq_some.2 ⟨by omega, ?_⟩⟩
  · have hn := delayCount_toNat h
    obtain ⟨⟨-, h39, h1, h255⟩, -⟩ := delayCount_eq_some.1 h
    omega
  · exact BitVec.eq_of_toNat_eq (by rw [BitVec.toNat_ofNat]; omega)

/-- The configurations with a delay count, in the terms of R142. -/
theorem exists_delayCount_iff {clk baud : Nat} :
    (∃ n, delayCount clk baud = some n) ↔
      0 < baud ∧ 39 ≤ clk / baud ∧ 1 ≤ (clk / baud - 39) / 12 ∧ (clk / baud - 39) / 12 ≤ 255 := by
  simp only [delayCount_eq_some, exists_and_left, exists_eq, and_true]

theorem delayCount_eq_none {clk baud : Nat} :
    delayCount clk baud = none ↔
      ¬ (0 < baud ∧ 39 ≤ clk / baud ∧ 1 ≤ (clk / baud - 39) / 12 ∧ (clk / baud - 39) / 12 ≤ 255) := by
  rw [← exists_delayCount_iff, ← Option.isSome_iff_exists, Option.not_isSome_iff_eq_none]

/-- The floor of the real formula needs only the integer quotient (R144). -/
theorem floor_delayFormula (clk baud : Nat) :
    ⌊((clk : ℚ) / (baud : ℚ) - 39) / 12⌋ = (((clk / baud : Nat) : ℤ) - 39) / 12 := by
  have hq : ⌊(clk : ℚ) / (baud : ℚ)⌋ = ((clk / baud : Nat) : ℤ) := Rat.floor_natCast_div_natCast clk baud
  calc ⌊((clk : ℚ) / (baud : ℚ) - 39) / 12⌋ = ⌊(clk : ℚ) / (baud : ℚ) - 39⌋ / 12 := Int.floor_div_natCast _ 12
    _ = (((clk / baud : Nat) : ℤ) - 39) / 12 := by rw [Int.floor_sub_ofNat, hq]

/-- Truncation toward zero and the floor differ below zero only, where neither is positive. -/
theorem divisionReading_eq_or_nonpos {y : ℚ} {z x : ℤ} (hy : ⌊y⌋ = z / 12)
    (hx : x = ⌊y⌋ ∨ x = (if 0 ≤ y then ⌊y⌋ else ⌈y⌉) ∨ x = Int.fdiv z 12 ∨ x = Int.tdiv z 12) :
    x = z / 12 ∨ x ≤ 0 ∧ z / 12 ≤ 0 := by
  rcases hx with rfl | rfl | rfl | rfl
  · exact .inl hy
  · split
    · exact .inl hy
    · have hneg : y ≤ 0 := (not_le.1 ‹_›).le
      exact .inr ⟨Int.ceil_le.2 (by simpa using hneg), hy ▸ Int.floor_nonpos hneg⟩
  · exact .inl (Int.fdiv_eq_ediv_of_nonneg z (by decide))
  · rcases le_total 0 z with hz | hz
    · exact .inl (Int.tdiv_eq_ediv_of_nonneg hz)
    · have hneg : 0 ≤ Int.tdiv (-z) 12 := Int.tdiv_nonneg (Int.neg_nonneg_of_nonpos hz) (by decide)
      rw [Int.neg_tdiv] at hneg
      exact .inr ⟨Int.neg_nonneg.1 hneg, by omega⟩

/-- Settles O14: for a count in 1..255 the four readings give one value, which is the floor of the integer quotient's. -/
theorem validityTestOfTheDelayCount : Obligations.ValidityTestOfTheDelayCount := by
  refine ⟨fun clk baud hb => ?range, fun clk baud _ hq => ?floor, fun clk baud n y x hb hy hx => ?readings⟩
  case range => rw [exists_delayCount_iff]; omega
  case floor => rw [floor_delayFormula]; omega
  case readings =>
    rw [delayCount_eq_some_int hb]
    have hread := divisionReading_eq_or_nonpos (hy ▸ floor_delayFormula clk baud) hx
    omega

/-- Settles O53: q exceeds 12·DLY + 39 by the remainder of q - 39 in the division by 12. -/
theorem calibrationResidual : Obligations.CalibrationResidual := by
  intro p n h
  have hn := delayCount_toNat h
  obtain ⟨⟨hbaud, h39, -, -⟩, -⟩ := delayCount_eq_some.1 h
  have hlow : bitCycles n ≤ p.clkHz / p.baud := by simp only [bitCycles, Config.kDiv, Config.kOvh]; omega
  have hhigh : p.clkHz / p.baud < bitCycles n + 12 := by simp only [bitCycles, Config.kDiv, Config.kOvh]; omega
  refine ⟨?_, ?_, (Nat.le_div_iff_mul_le hbaud).1 hlow, (Nat.div_lt_iff_lt_mul hbaud).1 hhigh⟩
  · simp only [residualCycles]; omega
  · simp only [residualCycles]; omega

/-! ### INIT -/

/-- Settles O13: the delay count decides between success and failure on a line that is not READY. -/
theorem initResult : Obligations.InitResult := by
  rintro s q n rfl rfl
  rcases execInit_cases s with ⟨hl, he⟩ | ⟨hl, n, hn, he⟩ | ⟨hl, hn, he⟩
  · rw [if_pos hl]
    exact he.trans (congrArg _ (raiseFault_eq .reInit s))
  · obtain ⟨hvalid, rfl⟩ := delayCount_eq_some.1 hn
    rw [if_neg hl, if_pos hvalid]
    exact he
  · rw [if_neg hl, if_neg (delayCount_eq_none.1 hn)]
    exact he

/-- Settles O45: of the outcomes of INIT, F_REINIT writes FAULT only, and a failure nothing of the ring, TX or the
comparator. -/
theorem initFrame : Obligations.InitFrame := by
  intro s t h
  obtain ⟨-, -, -, hrx, -, hrb, -⟩ := commandFrame .init s t h
  rcases execInit_cases s with ⟨hl, he⟩ | ⟨hl, n, -, he⟩ | ⟨hl, -, he⟩ <;>
    obtain rfl := Host.Outcome.next.inj (he.symm.trans h)
  · rw [raiseFault_eq] at hrx hrb ⊢
    exact ⟨rfl, rfl, hrx, hrb, fun hn => absurd hl hn, fun _ => rfl⟩
  · exact ⟨rfl, rfl, hrx, hrb, fun hn => absurd rfl hn, fun hr => absurd hr hl⟩
  · exact ⟨rfl, rfl, hrx, hrb, fun _ => ⟨rfl, rfl, rfl, ⟨rfl, rfl, rfl, rfl⟩, rfl⟩, fun hr => absurd hr hl⟩

/-! ### A line that is not READY -/

/-- A first evaluation of RDB asks for a READY line, as every evaluation of the other four does (R147, R252). -/
theorem exec_requires_ready {s : State} {i : Instr}
    (hi : i = .waitq ∨ (∃ b, i = .txb b) ∨ i = .rdnb ∨ i = .rdovf ∨ (i = .rdb ∧ ∀ te, s.ms ≠ .inRdb te)) :
    ∃ k, exec i s = requireReady s k := by
  rcases hi with rfl | ⟨b, rfl⟩ | rfl | rfl | ⟨rfl, hfirst⟩
  · exact ⟨_, by rw [exec, execWaitq]⟩
  · exact ⟨_, by rw [exec, execTxb]⟩
  · exact ⟨_, by rw [exec, execRdnb]⟩
  · exact ⟨_, by rw [exec, execRdovf]⟩
  · have hpoll : ¬ inPoll s = true := fun hp => ((inPoll_iff s).1 hp).elim hfirst
    exact ⟨_, by rw [exec, execRdb, if_neg hpoll]⟩

/-- Settles O24: each of the five asks for a READY line and finds none. -/
theorem notReadyLineFaults : Obligations.NotReadyLineFaults := by
  intro s i hl hi
  obtain ⟨k, hk⟩ := exec_requires_ready hi
  rw [hk, requireReady_not hl, raiseFault_eq]
  rfl

/-! ### WAITQ -/

theorem exec_waitq (s : State) : exec .waitq s = .next (
    if s.line = .ready then { s with ms := .inWaitq (s.now + 1) }
    else { s with fault := if s.fault = 0x00#8 then 0x02#8 else s.fault }) := by
  split
  · rw [exec, execWaitq, requireReady_ready ‹_›]
  · exact notReadyLineFaults s .waitq ‹_› (.inl rfl)

theorem mainProgress_waitq {s : State} {te : Nat} (hf : s.fault = 0x00#8) (hm : s.ms = .inWaitq te) :
    mainProgress s = if s.now = te then { s with cp := s.cp + 1, ms := .atCmd } else s := by
  simp only [mainProgress, hf, hm, ne_eq, not_true_eq_false, if_false, waitqBoundary, complete]

/-- A block on a READY line whose receiver is idle and shut out by IE = 0, and whose MAIN stands before the command c when
B2 of this boundary has run. -/
structure MaskedAt (s : State) (c : Nat) : Prop where
  fault : s.fault = 0x00#8
  rxs : s.rxs = .idle
  ie : s.ie = false
  line : s.line = .ready
  main : mainProgress s = { s with cp := c, ms := .atCmd }

theorem MaskedAt.beforeEdge_eq {s : State} {c : Nat} (h : MaskedAt s c) : beforeEdge s = { s with cp := c, ms := .atCmd } := by
  rw [beforeEdge, receiverProgress_idle h.rxs, h.main]
  exact disarmAfterFault_live h.fault

/-- With IE = 0 an edge may set PEND, and nothing is entered. -/
theorem MaskedAt.beforeMain_eq {s : State} {c : Nat} (h : MaskedAt s c) :
    ∃ p d, beforeMain s = { s with cp := c, ms := .atCmd, pend := p, draws := d, tr := none } := by
  obtain ⟨p, d, hd, -⟩ := detectEdge_cases (beforeEdge s)
  rw [h.beforeEdge_eq] at hd
  refine ⟨p, d, ?_⟩
  rw [beforeMain, h.beforeEdge_eq, hd]
  exact interruptEntry_of_not_ready h.fault (by simp [entryReady, h.ie])

/-- B5's loop at a WAITQ of a READY line: it occupies the tick that begins. -/
theorem mainLoop_waitq {s : State} (hr : mainRuns s = true) (hm : s.ms = .atCmd) (hl : s.line = .ready)
    (hw : fetch s = some 0x0200#16) (fuel : Nat) :
    mainLoop (fuel + 1) s = .next { s with ms := .inWaitq (s.now + 1) } := by
  rw [mainLoop_atCmd hr hm, fetchExec_of_cmd hw (decodeWord_encode .waitq), exec_waitq, if_pos hl]
  exact loopOn_stopped (by simp [completedNow]) fuel

/-- The state one boundary after s, inside the WAITQ at c; what edges did to PEND and to the draws is open. -/
def insideWaitq (s : State) (c : Nat) (p : Bool) (d : Nat) : State :=
  { s with
    cp := c, ms := .inWaitq (s.now + 1), pend := p, draws := d, tr := none, now := s.now + 1, txHist := s.txl :: s.txHist }

/-- A boundary that reaches a WAITQ with IE = 0 ends inside it. -/
theorem MaskedAt.step_waitq {s : State} {c : Nat} (h : MaskedAt s c) (hw : s.stream[c]? = some 0x0200#16) :
    ∃ p d, step s = .next (insideWaitq s c p d) := by
  obtain ⟨p, d, hb⟩ := h.beforeMain_eq
  have hloop : mainLoop (mainFuel (beforeMain s)) (beforeMain s) =
      .next { beforeMain s with ms := .inWaitq ((beforeMain s).now + 1) } :=
    mainLoop_waitq ((mainRuns_iff _).2 (by rw [hb]; exact ⟨h.fault, h.rxs⟩)) (by rw [hb]) (by rw [hb]; exact h.line)
      (by rw [hb]; exact hw) _
  obtain ⟨p', d', ho, -⟩ :=
    ownEdge_cases (beforeEdge s) { beforeMain s with ms := .inWaitq ((beforeMain s).now + 1) }
  refine ⟨p', d', ?_⟩
  rw [step_eq, hloop, andThen_next, afterMain, ho, disarmAfterFault_live (by rw [hb]; exact h.fault), hb]
  rfl

/-- The next boundary completes the WAITQ in B2 (R146). -/
theorem MaskedAt.after_waitq {s : State} {c : Nat} (h : MaskedAt s c) (p : Bool) (d : Nat) :
    MaskedAt (insideWaitq s c p d) (c + 1) where
  fault := h.fault
  rxs := h.rxs
  ie := h.ie
  line := h.line
  main := (mainProgress_waitq (s := insideWaitq s c p d) h.fault rfl).trans (if_pos rfl)

/-- Before a row of WAITQs with IE = 0: each boundary completes one and ends inside the next. -/
theorem MaskedAt.runSteps_waitq (j : Nat) : ∀ {s : State} {c : Nat}, MaskedAt s c →
    (∀ i ≤ j, s.stream[c + i]? = some 0x0200#16) →
    ∃ t, runSteps (j + 1) s = .next t ∧ t.now = s.now + j + 1 ∧ t.cp = c + j ∧ t.ms = .inWaitq t.now ∧ t.out = s.out := by
  induction j with
  | zero =>
    intro s c h hw
    obtain ⟨p, d, hstep⟩ := h.step_waitq (hw 0 (Nat.le_refl 0))
    exact ⟨_, runSteps_succ hstep 0, rfl, rfl, rfl, rfl⟩
  | succ j ih =>
    intro s c h hw
    obtain ⟨p, d, hstep⟩ := h.step_waitq (hw 0 (Nat.zero_le _))
    obtain ⟨t, hrun, hnow, hcp, hms, hout⟩ := ih (h.after_waitq p d) fun i hi => by
      rw [Nat.add_right_comm]
      exact hw (i + 1) (Nat.succ_le_succ hi)
    refine ⟨t, (runSteps_succ hstep _).trans hrun, ?_, ?_, hms, hout⟩
    · rw [hnow, insideWaitq]; dsimp only; omega
    · rw [hcp]; omega

/-- Settles O15: B5 enters a WAITQ at its boundary, B2 of the next one completes it, and with IE = 0 nothing comes between. -/
theorem waitqTakesOneTick : Obligations.WaitqTakesOneTick := by
  refine ⟨exec_waitq, fun s te => mainProgress_waitq, fun s k hf hrx hm hie hl hw j hj => ?_⟩
  have hat : MaskedAt s s.cp := by
    refine ⟨hf, hrx, hie, hl, ?_⟩
    rw [mainProgress_still (by simp [hm]) (isWaiting_eq_false (by simp [hm])), ← hm]
  exact hat.runSteps_waitq j fun i hi => hw i (hi.trans hj)

end Sys2Proof.Machine
end

section
/-! PROOF. The write helpers: strings, decimal text and floats (spec/41_transmitter.md section 2). -/

namespace Sys2Proof.Machine

/-! ### Strings -/

theorem strCommands_of_no_nul {s : List Byte} (hs : ∀ c ∈ s, c ≠ 0x00#8) : strCommands s = s.map Instr.txb := by
  rw [strCommands, List.takeWhile_eq_self_iff.2 fun c hc => decide_eq_true (hs c hc)]

/-- Nothing is sent from the terminator on (R181). -/
theorem strCommands_terminated {s : List Byte} (hs : ∀ c ∈ s, c ≠ 0x00#8) (rest : List Byte) :
    strCommands (s ++ 0x00#8 :: rest) = s.map Instr.txb := by
  rw [strCommands, List.takeWhile_append_of_pos fun c hc => decide_eq_true (hs c hc),
    List.takeWhile_cons_of_neg (by simp), List.append_nil]

/-- Settles O51: a string is cut at its first 0x00, and the other two helpers are one list each. -/
theorem writeHelperExpansions : Obligations.WriteHelperExpansions := by
  intro p b s rest hs
  have hstr := strCommands_terminated hs rest
  exact ⟨rfl, hstr, congrArg (· ++ [Instr.txb 0x0A#8]) hstr⟩

/-- Settles O58: without a 0x00 the whole list is sent. -/
theorem stringWithoutTerminator : Obligations.StringWithoutTerminator := by
  intro p s hs
  have hstr := strCommands_of_no_nul hs
  exact ⟨hstr, congrArg (· ++ [Instr.txb 0x0A#8]) hstr⟩

/-! ### Decimal digits -/

theorem digitCode_toNat (d : Nat) : (digitCode d).toNat = 0x30 + d % 10 := by
  rw [digitCode, BitVec.toNat_ofNat]
  omega

theorem digitCode_mod (n : Nat) : digitCode (n % 10) = digitCode n := by rw [digitCode, Nat.mod_mod, digitCode]

theorem digitCode_eq_zero_iff {d : Nat} : digitCode d = 0x30#8 ↔ d % 10 = 0 := by
  rw [← BitVec.toNat_inj, digitCode_toNat]
  simp

theorem decimalValue_append_digitCode (ds : List Byte) (d : Nat) :
    decimalValue (ds ++ [digitCode d]) = decimalValue ds * 10 + d % 10 := by
  simp [decimalValue, digitCode_toNat]

/-- The text of n is Mathlib's `Nat.digits`, most significant digit first. -/
theorem digitsFuel_eq_natDigits (fuel : Nat) : ∀ {n : Nat}, n ≠ 0 → n < 2 ^ fuel →
    digitsFuel fuel n = (Nat.digits 10 n).reverse.map digitCode := by
  induction fuel with
  | zero => intro n h0 hn; omega
  | succ fuel ih =>
    intro n h0 hn
    rw [digitsFuel, Nat.digits_def' (by decide) (Nat.pos_of_ne_zero h0), List.reverse_cons, List.map_append,
      List.map_singleton, digitCode_mod]
    split
    · rw [Nat.div_eq_of_lt ‹_›]; rfl
    · rw [ih (by omega) (by omega)]

theorem digits_eq_natDigits {n : Nat} (h : n ≠ 0) : digits n = (Nat.digits 10 n).reverse.map digitCode :=
  digitsFuel_eq_natDigits _ h Nat.lt_log2_self

theorem digits_zero : digits 0 = [0x30#8] := rfl

theorem decimalValue_codes (ds : List Nat) (hds : ∀ d ∈ ds, d < 10) :
    decimalValue (ds.reverse.map digitCode) = Nat.ofDigits 10 ds := by
  induction ds with
  | nil => rfl
  | cons d ds ih =>
    rw [List.reverse_cons, List.map_append, List.map_singleton, decimalValue_append_digitCode,
      ih fun e he => hds e (List.mem_cons_of_mem d he), Nat.mod_eq_of_lt (hds d List.mem_cons_self), Nat.ofDigits_cons]
    omega

theorem decimalValue_digits (n : Nat) : decimalValue (digits n) = n := by
  by_cases h : n = 0
  · rw [h, digits_zero]; rfl
  · rw [digits_eq_natDigits h, decimalValue_codes _ fun d hd => Nat.digits_lt_base (by decide) hd, Nat.ofDigits_digits]

theorem digits_ne_nil (n : Nat) : digits n ≠ [] := by
  by_cases h : n = 0
  · rw [h, digits_zero]; exact List.cons_ne_nil _ _
  · simpa [digits_eq_natDigits h] using (Nat.digits_ne_nil_iff_ne_zero (b := 10)).2 h

theorem digits_codes {n : Nat} {c : Byte} (hc : c ∈ digits n) : ∃ d, c = digitCode d := by
  by_cases h : n = 0
  · rw [h, digits_zero, List.mem_singleton] at hc
    exact ⟨0, hc⟩
  · rw [digits_eq_natDigits h] at hc
    obtain ⟨d, -, rfl⟩ := List.mem_map.1 hc
    exact ⟨d, rfl⟩

/-- The most significant digit is not 0. -/
theorem digits_head_ne_zero {n : Nat} (h : n ≠ 0) : (digits n).head? ≠ some 0x30#8 := by
  have hne : Nat.digits 10 n ≠ [] := Nat.digits_ne_nil_iff_ne_zero.2 h
  have hlt : (Nat.digits 10 n).getLast hne < 10 := Nat.digits_lt_base (by decide) (List.getLast_mem hne)
  rw [digits_eq_natDigits h, List.head?_map, List.head?_reverse, List.getLast?_eq_some_getLast hne, Option.map_some, ne_eq,
    Option.some_inj, digitCode_eq_zero_iff, Nat.mod_eq_of_lt hlt]
  exact Nat.getLast_digit_ne_zero 10 h

/-- Settles O50: the digits are those of `Nat.digits 10`, of which the most significant is not 0. -/
theorem decimalTextOfAnInteger : Obligations.DecimalTextOfAnInteger := by
  refine ⟨fun _ => rfl, fun n => ⟨decimalValue_digits n, digits_ne_nil n, fun c hc => ?codes, digits_head_ne_zero, ?zero⟩⟩
  case codes =>
    obtain ⟨d, rfl⟩ := digits_codes hc
    rw [digitCode_toNat]
    omega
  case zero =>
    rintro rfl
    exact digits_zero

/-! ### Floats -/

theorem scaledMagnitude_den_pos (f : FloatFmt) (x : Nat) : 0 < (scaledMagnitude f x).2 := by
  unfold scaledMagnitude
  split
  · exact Nat.one_pos
  · exact Nat.two_pow_pos _

/-- For |x|·10^5 = n / d, the quotient is a nearest integer unless the remainder is above d / 2. -/
theorem round5_floor {f : FloatFmt} {x n d : Nat} (hm : scaledMagnitude f x = (n, d)) (h : 2 * (n % d) ≤ d) :
    Round5 f x (n / d) := by
  have hdiv := Nat.div_add_mod' n d
  rw [Round5, hm]
  dsimp only
  omega

/-- The integer above the quotient is a nearest one unless the remainder is below d / 2. -/
theorem round5_ceil {f : FloatFmt} {x n d : Nat} (hm : scaledMagnitude f x = (n, d)) (h : d ≤ 2 * (n % d)) :
    Round5 f x (n / d + 1) := by
  have hd : 0 < d := by simpa [hm] using scaledMagnitude_den_pos f x
  have hlt := Nat.mod_lt n hd
  have hdiv := Nat.div_add_mod' n d
  rw [Round5, hm]
  dsimp only
  rw [Nat.succ_mul]
  omega

/-- Whatever the tie choice, `round5` gives a magnitude that the relation admits (R186). -/
theorem round5_admitted (f : FloatFmt) (x : Nat) : Round5 f x (round5 f x) := by
  unfold round5
  dsimp only
  split
  · exact round5_floor rfl (Nat.le_of_lt ‹_›)
  · split
    · split
      · exact round5_ceil rfl (Nat.le_of_eq (Eq.symm ‹_›))
      · exact round5_floor rfl (Nat.le_of_eq ‹_›)
    · exact round5_ceil rfl (Nat.not_lt.1 ‹_›)

theorem expand_admitted (p : Params) (q : Pseudo) : q.Expands p (q.expand p) := by
  cases q with
  | txFlt x =>
    rw [Pseudo.Expands, Pseudo.expand, fmt10_5]
    split
    · exact ⟨round5 p.floatFmt x, round5_admitted p.floatFmt x, rfl⟩
    · rfl
  | _ => rfl

theorem decimalValue_digits5 {n : Nat} (h : n < 100000) : decimalValue (digits5 n) = n := by
  simp only [decimalValue, digits5, List.foldl_cons, List.foldl_nil, digitCode_toNat, Nat.add_sub_cancel_left]
  omega

/-- The text of a finite float before it is right-justified (R186). -/
def floatBody (neg : Bool) (a : Nat) : List Byte :=
  (if neg then [0x2D#8] else []) ++ digits (a / 100000) ++ [0x2E#8] ++ digits5 (a % 100000)

theorem fmtFinite_eq (neg : Bool) (a : Nat) :
    fmtFinite neg a = List.replicate (10 - (floatBody neg a).length) 0x20#8 ++ floatBody neg a := rfl

theorem length_fmtFinite (neg : Bool) (a : Nat) : (fmtFinite neg a).length = max 10 (floatBody neg a).length := by
  rw [fmtFinite_eq, List.length_append, List.length_replicate]
  omega

/-- Settles O52: `round5` stays within the relation, and the spaces fill the text up to 10 bytes. -/
theorem floatTextIsAdmitted : Obligations.FloatTextIsAdmitted := by
  refine ⟨expand_admitted, fun neg a => ⟨10 - (floatBody neg a).length, ?layout, ?value, ?atLeast, fun hk => ?exactly⟩⟩
  case layout => simp only [fmtFinite_eq, floatBody, List.append_assoc]
  case value => exact decimalValue_digits5 (Nat.mod_lt a (by decide))
  case atLeast => exact (length_fmtFinite neg a).symm ▸ Nat.le_max_left _ _
  case exactly =>
    rw [length_fmtFinite]
    omega

end Sys2Proof.Machine
end

section
/-! PROOF. TXB: its entry, its frame on TX, and its atomic section (spec/41_transmitter.md section 1). -/

namespace Sys2Proof.Machine

/-! ### The entry -/

/-- The state in which TXB b leaves B5 on a READY line (R170). -/
def enterTxb (b : Byte) (s : State) : State :=
  { s with ie := false, txl := some .L, txs := .busy s.now (~~~b) s.ie, ms := .inTxb }

@[simp] theorem enterTxb_cp (b : Byte) (s : State) : (enterTxb b s).cp = s.cp := rfl
@[simp] theorem enterTxb_out (b : Byte) (s : State) : (enterTxb b s).out = s.out := rfl

theorem exec_txb_ready {s : State} (h : s.line = .ready) (b : Byte) : exec (.txb b) s = .next (enterTxb b s) := by
  rw [exec, execTxb, requireReady_ready h]; rfl

/-- Settles O18: the entry on a READY line, and R147 elsewhere. -/
theorem txbEntry : Obligations.TxbEntry := by
  intro s b
  split
  · exact exec_txb_ready ‹_› b
  · exact notReadyLineFaults s (.txb b) ‹_› (.inr (.inl ⟨b, rfl⟩))

/-- B5's loop at a TXB of a READY line: MAIN is inside it. -/
theorem mainLoop_txb {s : State} {w : Word} {b : Byte} (hr : mainRuns s = true) (hm : s.ms = .atCmd) (hl : s.line = .ready)
    (hw : fetch s = some w) (hd : decodeWord w = .cmd (.txb b)) (fuel : Nat) :
    mainLoop (fuel + 1) s = .next (enterTxb b s) := by
  rw [mainLoop_atCmd hr hm, fetchExec_of_cmd hw hd, exec_txb_ready hl]
  exact loopOn_stopped (by simp [completedNow, enterTxb]) fuel

/-- What a command does to the transmitter: TXB starts it, and the others write at most H to TX. -/
theorem exec_tx {i : Instr} {s t : State} (h : exec i s = .next t) :
    (∃ b, t = enterTxb b s) ∨ (t.txs = s.txs ∧ (t.txl = s.txl ∨ t.txl = some .H)) := by
  rcases exec_cases h with ⟨c, rfl⟩ | ⟨_, _, ⟨n, _, rfl⟩ | ⟨_, rfl⟩⟩ | ⟨_, _, rfl⟩ | ⟨_, rfl⟩ | ⟨_, rfl⟩ |
    ⟨b, _, _, rfl⟩ | ⟨_, _, _, rfl⟩ | ⟨_, _, _, rfl⟩ | ⟨_, _, _, rfl⟩ | ⟨_, _, rfl⟩
  · rw [raiseFault_eq]; exact .inr ⟨rfl, .inl rfl⟩
  · exact .inr ⟨rfl, .inr rfl⟩
  · exact .inr ⟨rfl, .inl rfl⟩
  · exact .inr ⟨rfl, .inl rfl⟩
  · exact .inr ⟨rfl, .inl rfl⟩
  · exact .inr ⟨rfl, .inl rfl⟩
  · exact .inl ⟨b, rfl⟩
  all_goals exact .inr ⟨rfl, .inl rfl⟩

theorem fetchExec_tx {s t : State} (h : fetchExec s = .next t) :
    (∃ b, t = enterTxb b s) ∨ (t.txs = s.txs ∧ (t.txl = s.txl ∨ t.txl = some .H)) := by
  rcases fetchExec_cases s with ⟨-, he⟩ | ⟨w, -, -, he⟩ | ⟨w, i, -, -, he⟩
  · obtain rfl := Host.Outcome.next.inj (he.symm.trans h)
    exact .inr ⟨rfl, .inl rfl⟩
  · obtain rfl := Host.Outcome.next.inj (he.symm.trans h)
    rw [raiseFault_eq]; exact .inr ⟨rfl, .inl rfl⟩
  · exact exec_tx (he.symm.trans h)

theorem Evaluates.tx {s u : State} (h : Evaluates s u) :
    (∃ b, u = enterTxb b s) ∨ (u.txs = s.txs ∧ (u.txl = s.txl ∨ u.txl = some .H)) := by
  obtain ⟨-, ⟨-, he⟩ | ⟨te, -, -, he⟩⟩ := h
  · exact fetchExec_tx he
  · exact exec_tx he

theorem Evaluates.not_inTxb {s u : State} (h : Evaluates s u) : s.ms ≠ .inTxb := by
  obtain ⟨-, ⟨hm, -⟩ | ⟨te, hm, -⟩⟩ := h <;> simp [hm]

theorem interruptEntry_tx (s : State) :
    (interruptEntry s).txs = s.txs ∧ (interruptEntry s).txl = s.txl ∧ (interruptEntry s).now = s.now := by
  obtain ⟨_, _, _, _, _, _, _, _, h⟩ := interruptEntry_frame s
  rw [h]; exact ⟨rfl, rfl, rfl⟩

/-! ### Boundaries that start a TXB -/

/-- B5 has left MAIN at the start bit of a TXB: the atomic section has begun (R170, R171). -/
structure AtStartBit (s : State) : Prop where
  fault : s.fault = 0x00#8
  rxs : s.rxs = .idle
  ie : s.ie = false
  ms : s.ms = .inTxb
  txl : s.txl = some .L

theorem atStartBit_enterTxb {s : State} (hr : mainRuns s = true) (b : Byte) : AtStartBit (enterTxb b s) := by
  obtain ⟨hf, hrx⟩ := (mainRuns_iff s).1 hr
  exact ⟨hf, hrx, rfl, rfl, rfl⟩

/-- What B5's loop keeps: a transmission whose start is this boundary t is at its start bit. -/
def StartedIsAtStartBit (t : Nat) (s : State) : Prop := s.now = t ∧ ∀ c sie, s.txs = .busy t c sie → AtStartBit s

theorem Evaluates.startedIsAtStartBit {s u : State} {t : Nat} (hs : StartedIsAtStartBit t s) (h : Evaluates s u) :
    StartedIsAtStartBit t u := by
  obtain ⟨hnow, hstart⟩ := hs
  refine ⟨h.onward.now.trans hnow, fun c sie hu => ?_⟩
  rcases h.tx with ⟨b, rfl⟩ | ⟨htxs, -⟩
  · exact atStartBit_enterTxb h.1 b
  · exact absurd (hstart c sie (htxs ▸ hu)).ms h.not_inTxb

theorem startedIsAtStartBit_interruptEntry {s : State} {t : Nat} (hs : StartedIsAtStartBit t s)
    (hc : completedNow s = true) : StartedIsAtStartBit t (interruptEntry s) := by
  obtain ⟨hnow, hstart⟩ := hs
  obtain ⟨htxs, -, hnow'⟩ := interruptEntry_tx s
  refine ⟨hnow'.trans hnow, fun c sie hu => ?_⟩
  have hms := (hstart c sie (htxs ▸ hu)).ms
  rw [((completedNow_iff s).1 hc).2] at hms
  cases hms

theorem startedIsAtStartBit_mainLoop {s u : State} {t fuel : Nat} (hs : StartedIsAtStartBit t s)
    (h : mainLoop fuel s = .next u) : StartedIsAtStartBit t u :=
  mainLoop_preserves (fun _ _ hv hu => hu.startedIsAtStartBit hv) (fun _ => startedIsAtStartBit_interruptEntry) fuel s u hs h

/-- B2 acts on the transmitter by its boundary action alone. -/
theorem mainProgress_tx (s : State) :
    mainProgress s = txBoundary s ∨ ((mainProgress s).txs = s.txs ∧ (mainProgress s).txl = s.txl) := by
  unfold mainProgress
  split
  · exact .inr ⟨rfl, rfl⟩
  · split
    · unfold waitqBoundary
      split <;> exact .inr ⟨rfl, rfl⟩
    · exact .inl rfl
    all_goals exact .inr ⟨rfl, rfl⟩

theorem beforeEdge_tx (s : State) :
    (beforeEdge s).txs = (mainProgress (receiverProgress s)).txs ∧
      (beforeEdge s).txl = (mainProgress (receiverProgress s)).txl := by
  obtain ⟨a, ha, -⟩ := disarmAfterFault_cases (mainProgress (receiverProgress s))
  rw [beforeEdge, ha]
  exact ⟨rfl, rfl⟩

theorem receiverProgress_tx (s : State) : (receiverProgress s).txs = s.txs ∧ (receiverProgress s).txl = s.txl := by
  obtain ⟨_, _, _, _, _, _, _, _, _, h⟩ := receiverProgress_frame s
  rw [h]; exact ⟨rfl, rfl⟩

/-- B1 and B2 leave TX to an idle transmitter's last level. -/
theorem beforeEdge_txl_of_idle {s : State} (h : s.txs = .idle) : (beforeEdge s).txl = s.txl := by
  obtain ⟨htxs, htxl⟩ := receiverProgress_tx s
  rw [(beforeEdge_tx s).2, ← htxl]
  rcases mainProgress_tx (receiverProgress s) with he | ⟨-, he⟩
  · rw [he, txBoundary, htxs, h]
  · exact he

/-- B1 and B2 start no transmission: B2 goes on with one, or ends it. -/
theorem beforeEdge_txs_busy {s : State} {ts : Nat} {c : Byte} {sie : Bool} (h : (beforeEdge s).txs = .busy ts c sie) :
    ∃ c', s.txs = .busy ts c' sie := by
  rw [(beforeEdge_tx s).1] at h
  rw [← (receiverProgress_tx s).1]
  generalize receiverProgress s = r at h ⊢
  rcases mainProgress_tx r with he | ⟨htxs, -⟩
  · rw [he] at h
    cases htx : r.txs with
    | idle => simp [txBoundary, htx] at h
    | busy ts' c' sie' =>
      rcases txBoundary_cases htx with ⟨-, hb⟩ | ⟨-, _, _, -, hb⟩ <;> rw [hb] at h <;> cases h
      exact ⟨c', rfl⟩
  · exact ⟨c, htxs ▸ h⟩

theorem beforeMain_now (s : State) : (beforeMain s).now = s.now := by
  obtain ⟨-, hnow, -⟩ := beforeEdge_keeps s
  obtain ⟨-, hnow', -⟩ := beforeMain_keeps s
  exact hnow'.trans hnow

/-- What follows B5 writes PEND, the draws, ARMED and the clock. -/
theorem afterMain_frame (atB3 u : State) : ∃ p n a, afterMain atB3 u = { u with
    pend := p, draws := n, armed := a, now := u.now + 1, txHist := u.txl :: u.txHist } := by
  obtain ⟨p, n, ho, -⟩ := ownEdge_cases atB3 u
  obtain ⟨a, ha, -⟩ := disarmAfterFault_cases (ownEdge atB3 u)
  exact ⟨p, n, a, by rw [afterMain, ha, ho, tick]⟩

theorem afterMain_keeps (atB3 u : State) :
    (afterMain atB3 u).txs = u.txs ∧ (afterMain atB3 u).txl = u.txl ∧ (afterMain atB3 u).cp = u.cp ∧
      (afterMain atB3 u).out = u.out := by
  obtain ⟨_, _, _, h⟩ := afterMain_frame atB3 u
  rw [h]; exact ⟨rfl, rfl, rfl, rfl⟩

/-- B5 that begins with a TXB on a READY line is the TXB's entry. -/
theorem StartsCommand.mainLoop_txb {s : State} {b : Byte} (h : StartsCommand s (.txb b)) (hl : (beforeMain s).line = .ready) :
    mainLoop (mainFuel (beforeMain s)) (beforeMain s) = .next (enterTxb b (beforeMain s)) := by
  obtain ⟨hr, hm, w, hw, hd⟩ := h
  exact Machine.mainLoop_txb hr hm hl hw hd _

/-- Where B5 begins with a TXB on a READY line, it starts; CP and OUT wait for its end. -/
theorem StartsCommand.txbStarts {s : State} {b : Byte} (h : StartsCommand s (.txb b)) (hl : (beforeMain s).line = .ready) :
    ∃ s1, TxbStarts s s1 b (beforeMain s).ie ∧ s1.cp = (beforeMain s).cp ∧ s1.out = (beforeMain s).out := by
  obtain ⟨htxs, -, hcp, hout⟩ := afterMain_keeps (beforeEdge s) (enterTxb b (beforeMain s))
  refine ⟨_, ⟨by rw [step_eq, h.mainLoop_txb hl, andThen_next], ?_, .inr ⟨h, hl⟩⟩, hcp.trans (enterTxb_cp b _),
    hout.trans (enterTxb_out b _)⟩
  rw [htxs, enterTxb, beforeMain_now]

/-- However B5 reaches the TXB that starts at this boundary, it ends at the TXB's start bit. -/
theorem TxbStarts.atStartBit {s s1 : State} {b : Byte} {sie : Bool} (h : TxbStarts s s1 b sie) :
    ∃ u, mainLoop (mainFuel (beforeMain s)) (beforeMain s) = .next u ∧ AtStartBit u ∧ u.txs = .busy s.now (~~~b) sie ∧
      s1 = afterMain (beforeEdge s) u := by
  obtain ⟨hstep, htxs, hhow⟩ := h
  obtain ⟨u, hu, rfl⟩ := step_cases hstep
  rw [(afterMain_keeps _ u).1] at htxs
  refine ⟨u, hu, ?_, htxs, rfl⟩
  rcases hhow with hnew | ⟨hstarts, hl⟩
  · have hbefore : StartedIsAtStartBit s.now (beforeMain s) := by
      refine ⟨beforeMain_now s, fun c i hb => ?_⟩
      obtain ⟨-, -, -, -, -, hkeep, -⟩ := beforeMain_keeps s
      obtain ⟨c', hc⟩ := beforeEdge_txs_busy (hkeep ▸ hb)
      exact absurd hc (hnew c' i)
    exact (startedIsAtStartBit_mainLoop hbefore hu).2 _ _ htxs
  · obtain rfl := Host.Outcome.next.inj ((hstarts.mainLoop_txb hl).symm.trans hu)
    exact atStartBit_enterTxb hstarts.1 b

/-! ### The frame, tick by tick -/

theorem frame_stop {b : Byte} {k : Nat} (h : 36 ≤ k) : frame b k = .H := by
  rw [frame, if_neg (by omega), if_neg (by omega)]

theorem frame_data {b : Byte} {j : Nat} (h : j < 8) : frame b (4 * (j + 1)) = lvl (b.getLsbD j) := by
  rw [frame, if_neg (by omega), if_pos (by omega), show 4 * (j + 1) / 4 - 1 = j by omega]

/-- A bit's level is held for its four ticks. -/
theorem frame_hold {b : Byte} {k : Nat} (h : (k + 1) % 4 ≠ 0) : frame b (k + 1) = frame b k := by
  unfold frame
  rw [show (k + 1) / 4 = k / 4 by omega]
  congr 1
  · exact propext (by omega)
  · congr 1
    exact propext (by omega)

theorem isDataStep_iff {ts k : Nat} : isDataStep ts (ts + k) = true ↔ ∃ j < 8, k = 4 * (j + 1) := by
  simp only [isDataStep, Bool.and_eq_true, decide_eq_true_eq]
  constructor
  · intro h
    exact ⟨k / 4 - 1, by omega, by omega⟩
  · rintro ⟨j, hj, rfl⟩
    omega

/-- The complement register k ticks into the frame: one shift at each of the data steps so far (R172). -/
def complementAt (b : Byte) (k : Nat) : Byte := ~~~b >>> min (k / 4) 8

/-- The state after boundary ts + k of a TXB of b that started at ts with the saved IE sie (R170 to R172). -/
structure Sending (ts k : Nat) (b : Byte) (sie : Bool) (s : State) : Prop where
  fault : s.fault = 0x00#8
  rxs : s.rxs = .idle
  ie : s.ie = false
  ms : s.ms = .inTxb
  now : s.now = ts + (k + 1)
  txs : s.txs = .busy ts (complementAt b k) sie
  txl : s.txl = some (frame b k)
  hist : s.txHist.head? = some s.txl

theorem TxbStarts.sending {s s1 : State} {b : Byte} {sie : Bool} (h : TxbStarts s s1 b sie) : Sending s.now 0 b sie s1 := by
  obtain ⟨u, hu, hbit, htxs, rfl⟩ := h.atStartBit
  obtain ⟨p, n, a, ha⟩ := afterMain_frame (beforeEdge s) u
  have hnow : u.now = s.now := (onward_mainLoop hu).now.trans (beforeMain_now s)
  rw [ha]
  exact { hbit with now := congrArg (· + 1) hnow, txs := htxs, hist := rfl }

/-- The carry of the register's shift is the complement of the data bit to send (R172). -/
theorem complementAt_carry (b : Byte) {j : Nat} (hj : j < 8) :
    (!(complementAt b (4 * j + 3)).getLsbD 0) = b.getLsbD j ∧
      complementAt b (4 * j + 3) >>> 1 = complementAt b (4 * (j + 1)) := by
  rw [complementAt, complementAt, show min ((4 * j + 3) / 4) 8 = j by omega, show min (4 * (j + 1) / 4) 8 = j + 1 by omega]
  constructor
  · simp [hj]
  · rw [BitVec.shiftRight_add]

theorem complementAt_hold {b : Byte} {k : Nat} (h : ¬ ∃ j < 8, k + 1 = 4 * (j + 1)) :
    complementAt b (k + 1) = complementAt b k := by
  have hmin : min ((k + 1) / 4) 8 = min (k / 4) 8 := by
    by_contra hne
    exact h ⟨k / 4, by omega, by omega⟩
  rw [complementAt, hmin, complementAt]

/-- B2 of boundary ts + (k + 1), before the frame's end: the line takes the frame's next level. -/
theorem Sending.txBoundary_eq {ts k : Nat} {b : Byte} {sie : Bool} {s : State} (h : Sending ts k b sie s) (hk : k < 39) :
    txBoundary s = { s with txl := some (frame b (k + 1)), txs := .busy ts (complementAt b (k + 1)) sie } := by
  rw [txBoundary, h.txs]
  dsimp only
  have hnow := h.now
  by_cases hd : ∃ j < 8, k + 1 = 4 * (j + 1)
  · rw [if_pos (hnow ▸ isDataStep_iff.2 hd)]
    obtain ⟨j, hj, hkj⟩ := hd
    obtain ⟨hcarry, hshift⟩ := complementAt_carry b hj
    obtain rfl : k = 4 * j + 3 := by omega
    rw [txDataStep, drive, hcarry, hshift, hkj, frame_data hj]
  · rw [if_neg (hnow ▸ isDataStep_iff.not.2 hd), complementAt_hold hd, ← h.txs]
    by_cases hstop : k + 1 = 36
    · rw [if_pos (by omega), frame_stop (by omega), drive]
    · have hhold : frame b (k + 1) = frame b k := by
        by_cases h36 : 36 ≤ k
        · rw [frame_stop h36, frame_stop (by omega)]
        · exact frame_hold fun h4 => hd ⟨k / 4, by omega, by omega⟩
      rw [if_neg (by omega), if_neg (by omega), hhold, ← h.txl]

theorem mainProgress_fault (s : State) : (mainProgress s).fault = s.fault := by
  obtain ⟨_, _, _, _, _, h⟩ := mainProgress_frame s
  rw [h]

/-- B1 and B2 inside a TXB. -/
theorem Sending.beforeEdge_eq {ts k : Nat} {b : Byte} {sie : Bool} {s : State} (h : Sending ts k b sie s) :
    beforeEdge s = txBoundary s := by
  rw [beforeEdge, receiverProgress_idle h.rxs, disarmAfterFault_live ((mainProgress_fault s).trans h.fault),
    mainProgress_inTxb h.fault h.ms]

/-- B3 to B6 inside a TXB: an edge may set PEND, IE = 0 keeps the receiver out, and MAIN waits. -/
theorem step_inside_txb {s v : State} (hv : beforeEdge s = v) (hf : v.fault = 0x00#8) (hie : v.ie = false)
    (hms : v.ms = .inTxb) : ∃ p n a, step s = .next { v with
      pend := p, draws := n, armed := a, tr := none, now := v.now + 1, txHist := v.txl :: v.txHist } := by
  obtain ⟨p, n, hd, -⟩ := detectEdge_cases v
  have hb : beforeMain s = { v with pend := p, draws := n, tr := none } := by
    rw [beforeMain, hv, hd]
    exact interruptEntry_of_not_ready hf (by simp [entryReady, hie])
  obtain ⟨p', n', a, ha⟩ := afterMain_frame (beforeEdge s) (beforeMain s)
  refine ⟨p', n', a, ?_⟩
  rw [step_eq, mainLoop_busy (.inl (by rw [hb]; exact hms)), andThen_next, ha, hb]

theorem Sending.step_inside {ts k : Nat} {b : Byte} {sie : Bool} {s : State} (h : Sending ts k b sie s) (hk : k < 39) :
    ∃ t, step s = .next t ∧ Sending ts (k + 1) b sie t ∧ t.cp = s.cp ∧ t.out = s.out := by
  obtain ⟨p, n, a, hstep⟩ := step_inside_txb (h.beforeEdge_eq.trans (h.txBoundary_eq hk)) h.fault h.ie h.ms
  exact ⟨_, hstep, { h with now := congrArg (· + 1) h.now, txs := rfl, txl := rfl, hist := rfl }, rfl, rfl⟩

theorem runSteps_snoc (n : Nat) : ∀ {s t u : State}, runSteps n s = .next t → step t = .next u →
    runSteps (n + 1) s = .next u := by
  induction n with
  | zero =>
    intro s t u hrun hstep
    obtain rfl := Host.Outcome.next.inj hrun
    rw [runSteps_succ hstep, runSteps]
  | succ n ih =>
    intro s t u hrun hstep
    obtain ⟨v, hv⟩ := stepAlwaysAnswersNext s
    rw [runSteps_succ hv] at hrun ⊢
    exact ih hrun hstep

theorem Sending.runSteps_inside {ts : Nat} {b : Byte} {sie : Bool} {s : State} (h : Sending ts 0 b sie s) (k : Nat)
    (hk : k < 40) : ∃ t, runSteps k s = .next t ∧ Sending ts k b sie t ∧ t.cp = s.cp ∧ t.out = s.out := by
  induction k with
  | zero => exact ⟨s, rfl, h, rfl, rfl⟩
  | succ k ih =>
    obtain ⟨t, hrun, ht, hcp, hout⟩ := ih (by omega)
    obtain ⟨u, hstep, hu, hcp', hout'⟩ := ht.step_inside (by omega)
    exact ⟨u, runSteps_snoc k hrun hstep, hu, hcp'.trans hcp, hout'.trans hout⟩

/-- B2 of boundary ts + 40 completes the TXB (R172, R174). -/
theorem Sending.beforeEdge_complete {ts : Nat} {b : Byte} {sie : Bool} {s : State} (h : Sending ts 39 b sie s) :
    beforeEdge s = complete { s with ie := sie, txs := .idle } := by
  rcases txBoundary_cases h.txs with ⟨-, he⟩ | ⟨hne, -⟩
  · exact h.beforeEdge_eq.trans he
  · exact absurd h.now hne

/-! ### The history of TX -/

theorem txAt_of_head {s : State} {t : Nat} {l : Option Level} (hn : s.now = t + 1) (hh : s.txHist.head? = some l) :
    txAt s t = l := by
  rw [txAt, if_pos (by omega), hn, show t + 1 - 1 - t = 0 by omega, ← List.head?_eq_getElem?, hh, Option.getD_some]

theorem txAt_step {s t : State} (h : step s = .next t) : txAt t s.now = t.txl := by
  obtain ⟨-, hnow, hhist, -⟩ := whatNoBoundaryUndoes s t h
  exact txAt_of_head hnow (by rw [hhist, List.head?_cons])

/-- Unless B5 starts a TXB, it leaves TX at H. -/
theorem mainLoop_keeps_H {fuel : Nat} {s t : State} (hs : s.txs = .idle → s.txl = some .H)
    (h : mainLoop fuel s = .next t) : t.txs = .idle → t.txl = some .H := by
  refine mainLoop_preserves (P := fun v => v.txs = .idle → v.txl = some .H) (fun v u hv he hu => ?_) (fun v hv _ hu => ?_)
    fuel s t hs h
  · rcases he.tx with ⟨b, rfl⟩ | ⟨htxs, htxl | htxl⟩
    · cases hu
    · exact htxl.trans (hv (htxs ▸ hu))
    · exact htxl
  · obtain ⟨htxs, htxl, -⟩ := interruptEntry_tx v
    exact htxl.trans (hv (htxs ▸ hu))

theorem step_keeps_H {s t : State} (hs : (beforeEdge s).txl = some .H) (h : step s = .next t) (ht : t.txs = .idle) :
    t.txl = some .H := by
  obtain ⟨u, hu, rfl⟩ := step_cases h
  obtain ⟨-, -, -, -, htxl, -⟩ := beforeMain_keeps s
  obtain ⟨htxs', htxl', -⟩ := afterMain_keeps (beforeEdge s) u
  exact htxl'.trans (mainLoop_keeps_H (fun _ => htxl.trans hs) hu (htxs' ▸ ht))

/-- Settles O19: the frame is followed tick by tick from the start bit on, and only a TXB takes TX from H. -/
theorem txbWaveform : Obligations.TxbWaveform := by
  refine ⟨fun s b h hl => ?starts, fun s s1 b sie h => ⟨fun k hk => ?frame, ?after⟩, fun s t htxs htxl h ht => ?idle⟩
  case starts =>
    obtain ⟨s1, h1, -⟩ := h.txbStarts hl
    exact ⟨s1, h1⟩
  case frame =>
    obtain ⟨t, hrun, ht, -⟩ := h.sending.runSteps_inside k hk
    exact ⟨t, hrun, (txAt_of_head ht.now ht.hist).trans ht.txl⟩
  case after =>
    obtain ⟨t, hrun, ht, -⟩ := h.sending.runSteps_inside 39 (by decide)
    obtain ⟨u, hu⟩ := stepAlwaysAnswersNext t
    have hH : (beforeEdge t).txl = some .H := by
      rw [ht.beforeEdge_complete, complete_txl]
      exact ht.txl.trans (congrArg some (frame_stop (by decide)))
    refine ⟨u, runSteps_snoc 39 hrun hu, fun hidle => ?_⟩
    rw [← ht.now, txAt_step hu]
    exact step_keeps_H hH hu hidle
  case idle =>
    have hH : (beforeEdge s).txl = some .H := (beforeEdge_txl_of_idle htxs).trans htxl
    have hl := step_keeps_H hH h ht
    exact ⟨hl, (txAt_step h).trans hl⟩

/-- Settles O20: `Sending` holds the atomic section for its 40 boundaries, and B2 of the next one ends it. -/
theorem txbAtomicSection : Obligations.TxbAtomicSection := by
  refine ⟨fun s b => StartsCommand.txbStarts, fun s s1 b sie h => ⟨fun k hk => ?inside, ?completion⟩, fun s t b hl h => ?fault⟩
  case inside =>
    obtain ⟨t, hrun, ht, -⟩ := h.sending.runSteps_inside k hk
    exact ⟨t, hrun, ht.ie, ht.rxs, ht.ms⟩
  case completion =>
    obtain ⟨t, hrun, ht, hcp, hout⟩ := h.sending.runSteps_inside 39 (by decide)
    refine ⟨t, hrun, ht.now, ?_⟩
    rw [ht.beforeEdge_complete]
    exact ⟨rfl, ht.txl.trans (congrArg some (frame_stop (by decide))), rfl, rfl, congrArg (· + 1) hcp, hout⟩
  case fault =>
    rw [txbEntry s b, if_neg hl] at h
    obtain rfl := Host.Outcome.next.inj h
    exact ⟨rfl, rfl⟩

end Sys2Proof.Machine
end

section
/-! PROOF. The receiver: edges and entry, and the byte that eight samples make (spec/42_receiver.md sections 1 and 2). -/

namespace Sys2Proof.Machine

/-! ### Edges and entry -/

theorem edgeNow_iff (s : State) : edgeNow s = true ↔ 1 ≤ s.now ∧ rxBefore s = .H ∧ rxNow s = .L := by
  simp [edgeNow, and_assoc]

theorem detectEdge_edge {s : State} (ha : s.armed = true) (he : edgeNow s = true) : detectEdge s = pendOnEdge s := by
  simp [detectEdge, ha, he]

theorem pendOnEdge_enabled {s : State} (h : s.ie = true) : pendOnEdge s = { s with pend := true } := if_pos h

/-- MASKED_EDGE_POLICY = drop, latch and draw on an edge that meets IE = 0 (R201). -/
theorem pendOnEdge_masked {s : State} (h : s.ie = false) :
    (s.params.maskedEdge = .drop → pendOnEdge s = s) ∧
    (s.params.maskedEdge = .latch → pendOnEdge s = { s with pend := true }) ∧
    (s.params.maskedEdge = .draw → pendOnEdge s = { s with pend := true, draws := s.draws + 1 } ∨
      pendOnEdge s = { s with draws := s.draws + 1 }) := by
  refine ⟨fun hp => by simp [pendOnEdge, h, hp], fun hp => by simp [pendOnEdge, h, hp], fun hp => ?_⟩
  cases hd : Config.maskedEdgeDraw s.draws
  · right; simp [pendOnEdge, h, hp, hd]
  · left; simp [pendOnEdge, h, hp, hd]

/-- Settles O30: B3 acts only on an edge of an armed comparator, and then as the policy says. -/
theorem edgeDetectionSetsPend : Obligations.EdgeDetectionSetsPend := by
  intro s
  refine ⟨fun hquiet => detectEdge_quiet (Bool.and_eq_false_iff.2 hquiet), fun ha he => ?_, edgeNow_iff s⟩
  rw [detectEdge_edge ha he]
  refine ⟨pendOnEdge_enabled, fun hie => ?_, fun hie => ?_, fun hie => ?_⟩
  · exact (pendOnEdge_masked hie).1
  · exact (pendOnEdge_masked hie).2.1
  · exact (pendOnEdge_masked hie).2.2

theorem enterReceiver_low {s : State} (h : rxNow s = .L) : enterReceiver s = { s with
    pend := false, rxSie := s.ie, ie := false, tr := none, rxs := .sampling, t0 := s.now, acc := 0x00#8 } := by
  rcases enterReceiver_cases s with ⟨-, he⟩ | ⟨hn, -⟩
  · exact he
  · exact absurd h hn

/-- A line at H makes the entry spurious (R206). -/
theorem enterReceiver_high {s : State} (h : rxNow s = .H) : enterReceiver s = { s with
    pend := false, rxSie := s.ie, tr := none, rxs := .idle } := by
  rcases enterReceiver_cases s with ⟨hl, -⟩ | ⟨-, he⟩
  · rw [h] at hl; cases hl
  · exact he

/-- Settles O31: the two ways of an entry. -/
theorem interruptEntrySavesIe : Obligations.InterruptEntrySavesIe := by
  refine fun s => ⟨fun hl => ?_, fun hh hidle => ?_⟩
  · rw [enterReceiver_low hl]
  · rw [enterReceiver_high hh, hidle]

/-! ### The byte eight samples make -/

@[simp] theorem bit_lvl (b : Bool) : bit (lvl b) = b := by cases b <;> rfl

theorem bit_eq_true_iff (l : Level) : bit l = true ↔ l = .H := by cases l <;> simp [bit]

/-- A shift moves each bit down by one and takes the sample at the top (R207). -/
theorem shiftIn_getLsbD (acc : Byte) (b : Bool) {j : Nat} (hj : j < 8) :
    (shiftIn acc b).getLsbD j = if j = 7 then b else acc.getLsbD (j + 1) := by
  have htop : (if b then 0x80#8 else 0x00#8).getLsbD j = (decide (j = 7) && b) := by
    cases b
    · simp
    · interval_cases j <;> rfl
  rw [shiftIn, BitVec.getLsbD_or, BitVec.getLsbD_ushiftRight, htop, Nat.add_comm 1 j]
  split
  · subst j; simp
  · simp [*]

/-- ACC after n samples, from the 0 of an entry (R205, R207). -/
def accAfter (sample : Nat → Level) (n : Nat) : Byte :=
  (List.range n).foldl (fun acc k => shiftIn acc (bit (sample k))) 0x00#8

theorem accAfter_zero (sample : Nat → Level) : accAfter sample 0 = 0x00#8 := rfl

theorem accAfter_succ (sample : Nat → Level) (n : Nat) :
    accAfter sample (n + 1) = shiftIn (accAfter sample n) (bit (sample n)) := by
  rw [accAfter, List.range_succ, List.foldl_append]; rfl

theorem byteOfSamples_eq_accAfter (sample : Nat → Level) : byteOfSamples sample = accAfter sample 8 := rfl

/-- After n samples the last n bits of ACC hold them, first sample lowest. -/
theorem accAfter_getLsbD (sample : Nat → Level) {n : Nat} (hn : n ≤ 8) :
    ∀ k < n, (accAfter sample n).getLsbD (8 - n + k) = bit (sample k) := by
  induction n with
  | zero => intro k hk; omega
  | succ n ih =>
    intro k hk
    rw [accAfter_succ, shiftIn_getLsbD _ _ (by omega)]
    split
    · rw [show k = n by omega]
    · rw [show 8 - (n + 1) + k + 1 = 8 - n + k by omega]
      exact ih (by omega) k (by omega)

theorem byteOfSamples_getLsbD (sample : Nat → Level) {k : Nat} (hk : k < 8) :
    (byteOfSamples sample).getLsbD k = bit (sample k) := by
  have h := accAfter_getLsbD sample (Nat.le_refl 8) k hk
  rwa [Nat.sub_self, Nat.zero_add] at h

/-- The binary expansion of a number's low n bits. -/
theorem mod_two_pow_eq_sum_testBit (x n : Nat) :
    x % 2 ^ n = ∑ k ∈ Finset.range n, (if x.testBit k then 2 ^ k else 0) := by
  induction n with
  | zero => simp [Nat.mod_one]
  | succ n ih =>
    rw [Finset.sum_range_succ, ← ih, Nat.mod_pow_succ, ← Nat.toNat_testBit]
    cases x.testBit n <;> simp

/-- Settles O33: bit k of the byte is sample k. -/
theorem eightSamplesMakeTheByte : Obligations.EightSamplesMakeTheByte := by
  intro sample
  rw [← Nat.mod_eq_of_lt (byteOfSamples sample).isLt, mod_two_pow_eq_sum_testBit]
  refine Finset.sum_congr rfl fun k hk => ?_
  rw [BitVec.testBit_toNat, byteOfSamples_getLsbD sample (Finset.mem_range.1 hk)]
  simp only [bit_eq_true_iff]

end Sys2Proof.Machine
end

section
/-! PROOF. Receptions: from the entry to the completion, and the frames that are received (spec/42_receiver.md sections 2
and 3). -/

namespace Sys2Proof.Machine

/-! ### The samples of a frame -/

theorem frame_start {b : Byte} {k : Nat} (h : k < 4) : frame b k = .L := if_pos h

/-- Each data bit stands on the line for four ticks. -/
theorem frame_bit (b : Byte) {j r : Nat} (hj : j < 8) (hr : r < 4) : frame b (4 * (j + 1) + r) = lvl (b.getLsbD j) := by
  rw [frame, if_neg (by omega), if_pos (by omega), show (4 * (j + 1) + r) / 4 - 1 = j by omega]

theorem byteOfSamples_eq {sample : Nat → Level} {c : Byte} (h : ∀ k < 8, bit (sample k) = c.getLsbD k) :
    byteOfSamples sample = c :=
  BitVec.eq_of_getLsbD_eq fun k hk => (byteOfSamples_getLsbD sample hk).trans (h k hk)

/-- Settles O35: up to 3 ticks late each sample falls on its own bit, and from 4 ticks on it falls on the next one, the
last on the stop bit. -/
theorem samplesOfAFrame : Obligations.SamplesOfAFrame := by
  intro b o l f rx hrx hl
  have ho : 1 ≤ offsetTicks o ∧ offsetTicks o ≤ 3 := by cases o <;> decide
  have hsample : ∀ k < 8, rx (f + l + offsetTicks o + 4 * (k + 1)) = frame b (l + offsetTicks o + 4 * (k + 1)) :=
    fun k hk => by rw [← hrx _ (by omega)]; congr 1; omega
  refine ⟨(hrx l (by omega)).trans (frame_start (by omega)), fun hearly => ?_, fun hlate => ?_⟩
  · refine byteOfSamples_eq fun k hk => ?_
    rw [hsample k hk, Nat.add_comm, frame_bit b hk (by omega), bit_lvl]
  · have hshift : (b >>> 1) ||| 0x80#8 = shiftIn b true := rfl
    rw [hshift]
    refine byteOfSamples_eq fun k hk => ?_
    rw [hsample k hk, shiftIn_getLsbD b true hk]
    split
    · rw [frame_stop (by omega)]; rfl
    · rw [show l + offsetTicks o + 4 * (k + 1) = 4 * (k + 1 + 1) + (l + offsetTicks o - 4) by omega,
        frame_bit b (by omega) (by omega), bit_lvl]

/-! ### B1 of a reception -/

theorem isSampleStep_iff (s : State) :
    isSampleStep s = true ↔ ∃ i < 8, s.now = s.t0 + offsetTicks s.params.startOffset + 4 * (i + 1) := by
  simp only [isSampleStep, Bool.and_eq_true, decide_eq_true_eq]
  constructor
  · intro h
    exact ⟨(s.now - (s.t0 + offsetTicks s.params.startOffset)) / 4 - 1, by omega, by omega⟩
  · rintro ⟨i, hi, hnow⟩
    omega

theorem sampleStep_due {s : State} (h : isSampleStep s = true) :
    sampleStep s = { s with acc := shiftIn s.acc (bit (rxNow s)) } := if_pos h

theorem sampleStep_not_due {s : State} (h : ¬ isSampleStep s = true) : sampleStep s = s := if_neg h

/-- At the completion B1 samples first, if a sample is due (RX_TAIL_Q = 0). -/
theorem receiverProgress_atCompletion {s : State} (h : AtCompletion s) :
    receiverProgress s = completeReception (sampleStep s) := by
  obtain ⟨hf, hsm, hnow⟩ := h
  rw [receiverProgress, if_pos ⟨hf, hsm⟩]
  dsimp only
  rw [if_pos]
  rw [sampleStep_eq]
  exact hnow

/-- Before the completion B1 samples at most. -/
theorem receiverProgress_sampling {s : State} (hf : s.fault = 0x00#8) (hsm : s.rxs = .sampling)
    (hnow : s.now ≠ s.t0 + episodeTicks s.params) : receiverProgress s = sampleStep s := by
  rw [receiverProgress, if_pos ⟨hf, hsm⟩]
  dsimp only
  rw [if_neg]
  rw [sampleStep_eq]
  exact hnow

theorem completeReception_eq (s : State) : completeReception s =
    if (push s.acc s).fault = 0x00#8 then { push s.acc s with ie := s.rxSie, rxs := .idle } else push s.acc s := by
  have hsie : (push s.acc s).rxSie = s.rxSie := by rw [push_frame]
  rw [completeReception, ← hsie]; rfl

/-- The only fault a PUSH raises is F_RB_OVERFLOW (R241). -/
theorem push_fault (b : Byte) {s : State} (hf : s.fault = 0x00#8) :
    (push b s).fault = 0x00#8 ∨ (push b s).fault = 0x04#8 := by
  rcases push_cases b s with ⟨-, h⟩ | ⟨-, -, h⟩ | ⟨-, -, h⟩ | ⟨-, -, h⟩ <;> rw [h]
  · exact .inl hf
  · exact .inl hf
  · exact .inl hf
  · right; rw [raiseFault_eq, hf]; rfl

theorem push_overflow (b : Byte) {s : State} (hf : s.fault = 0x00#8) (hfull : s.occ = 64#7)
    (hp : s.params.overflow = .legacyFault) : push b s = { s with fault := 0x04#8 } := by
  simp [push, hfull, hp, raiseFault, hf, FaultCode.code]

/-- Settles O57: the sample of this B1, if one is due, then a PUSH that faults, then no return. -/
theorem faultingPushEndsInTheCompletion : Obligations.FaultingPushEndsInTheCompletion := by
  intro s hf hsm hnow hfull hp
  have hepisode : s.now = s.t0 + offsetTicks s.params.startOffset + 32 + s.params.rxTailQ := by
    simp only [hnow, episodeTicks, Config.ticksPerBit, Config.dataBits]; omega
  refine ⟨?_, fun h0 => sampleStep_due ?_, fun h0 => sampleStep_not_due ?_⟩
  · have hpush : push (sampleStep s).acc (sampleStep s) = { sampleStep s with fault := 0x04#8 } := by
      rw [sampleStep_eq]; exact push_overflow _ hf hfull hp
    rw [receiverProgress_atCompletion ⟨hf, hsm, hnow⟩, completeReception_eq, hpush, if_neg (by simp)]
  · exact (isSampleStep_iff s).2 ⟨7, by omega, by omega⟩
  · rw [isSampleStep_iff]
    rintro ⟨i, hi, hi'⟩
    omega

/-! ### A boundary inside a reception -/

/-- A live block in a reception: MAIN is between two commands, and IE = 0 (R203, R205). -/
structure InReception (s : State) : Prop where
  fault : s.fault = 0x00#8
  rxs : s.rxs = .sampling
  ie : s.ie = false
  not_inTxb : s.ms ≠ .inTxb
  not_waiting : isWaiting s = false

theorem Inv.inReception {s : State} (h : Inv s) (hf : s.fault = 0x00#8) (hsm : s.rxs = .sampling) : InReception s := by
  obtain ⟨hie, -, htx, hw, -⟩ := h.rx hsm
  exact ⟨hf, hsm, hie, h.tx.ms_ne_inTxb htx, hw⟩

theorem InReception.beforeEdge_eq {s : State} (h : InReception s) (hnow : s.now ≠ s.t0 + episodeTicks s.params) :
    beforeEdge s = { s with acc := (sampleStep s).acc } := by
  have hB2 : mainProgress { s with acc := (sampleStep s).acc } = { s with acc := (sampleStep s).acc } :=
    mainProgress_still h.not_inTxb h.not_waiting
  rw [beforeEdge, receiverProgress_sampling h.fault h.rxs hnow, sampleStep_eq, hB2]
  exact disarmAfterFault_live h.fault

/-- A B5 that may not run: after B4 only B6 is left. -/
theorem step_of_main_held {s v : State} (hv : beforeMain s = v) (hf : v.fault = 0x00#8) (hsm : v.rxs = .sampling) :
    step s = .next (tick v) := by
  have hheld : mainRuns v = false := by simp [mainRuns, hsm]
  have hown : ownEdge (beforeEdge s) v = v := ownEdge_same (hv ▸ edgeNow_beforeMain s)
  rw [step_eq, hv, mainLoop_idle hheld, andThen_next, afterMain, hown, disarmAfterFault_live hf]

/-- Before the completion a boundary of a reception writes ACC, what an edge writes, t_r and the time (R211). -/
theorem InReception.step_eq {s : State} (h : InReception s) (hnow : s.now ≠ s.t0 + episodeTicks s.params) :
    ∃ p n, step s = .next { s with
      acc := (sampleStep s).acc, pend := p, draws := n, tr := none, now := s.now + 1, txHist := s.txl :: s.txHist } := by
  obtain ⟨p, n, hd, -⟩ := detectEdge_cases (beforeEdge s)
  have hb : beforeMain s = { s with acc := (sampleStep s).acc, pend := p, draws := n, tr := none } := by
    rw [beforeMain, hd, h.beforeEdge_eq hnow]
    exact interruptEntry_of_not_ready h.fault (by simp [entryReady, h.ie])
  exact ⟨p, n, step_of_main_held hb h.fault h.rxs⟩

/-- Settles O37: a live block by `InReception.step_eq`, a halted one because only time passes. -/
theorem mainStallsWhileSampling : Obligations.MainStallsWhileSampling := by
  intro s t hinv hsm hnow ht
  by_cases hf : s.fault = 0x00#8
  · have hrec := hinv.inReception hf hsm
    obtain ⟨p, n, hstep⟩ := hrec.step_eq (Nat.ne_of_lt hnow)
    obtain rfl := Host.Outcome.next.inj (hstep.symm.trans ht)
    exact ⟨hsm, rfl, rfl, hrec.ie, rfl, rfl, rfl, ⟨rfl, rfl, rfl, rfl⟩, fun _ => rfl, rfl, rfl, rfl, rfl,
      fun _ => rfl, rfl⟩
  · obtain ⟨hie, -⟩ := hinv.rx hsm
    obtain rfl := Host.Outcome.next.inj ((step_of_fault hf).symm.trans ht)
    rw [haltedBoundary_eq hf]
    exact ⟨hsm, rfl, rfl, hie, rfl, rfl, rfl, ⟨rfl, rfl, rfl, rfl⟩, fun _ => rfl, rfl, rfl, rfl, rfl,
      fun h0 => absurd h0 hf, rfl⟩

/-! ### From the entry to the completion -/

/-- How many of the samples at o + 4, o + 8, …, o + 32 lie before tick j of a reception (R207). -/
def samplesTaken (o j : Nat) : Nat := min ((j - 1 - o) / 4) 8

theorem samplesTaken_succ_due {o i : Nat} (hi : i < 8) :
    samplesTaken o (o + 4 * (i + 1)) = i ∧ samplesTaken o (o + 4 * (i + 1) + 1) = i + 1 := by
  unfold samplesTaken; omega

theorem samplesTaken_succ_not_due {o j : Nat} (h : ¬ ∃ i < 8, j = o + 4 * (i + 1)) :
    samplesTaken o (j + 1) = samplesTaken o j := by
  unfold samplesTaken
  by_contra hne
  exact h ⟨(j - o) / 4 - 1, by omega, by omega⟩

/-- u is boundary T0 + j of the reception in which s stands: ACC holds the samples so far, and what an edge writes, t_r and
the time apart, u is s. -/
def ReceptionAt (s : State) (j : Nat) (u : State) : Prop :=
  ∃ p n q h, u = { s with
    now := s.t0 + j, acc := accAfter (sampleLevel s) (samplesTaken (offsetTicks s.params.startOffset) j),
    pend := p, draws := n, tr := q, txHist := h }

/-- Right after an entry no sample has been taken. -/
theorem receptionAt_entry {s : State} (hnow : s.now = s.t0 + 1) (hacc : s.acc = 0x00#8) : ReceptionAt s 1 s := by
  have hnone : samplesTaken (offsetTicks s.params.startOffset) 1 = 0 := by unfold samplesTaken; omega
  refine ⟨s.pend, s.draws, s.tr, s.txHist, ?_⟩
  rw [hnone, accAfter_zero, ← hnow, ← hacc]

/-- B1's sample brings ACC up to the next boundary. -/
theorem ReceptionAt.sampleStep_acc {s u : State} {j : Nat} (h : ReceptionAt s j u) :
    (sampleStep u).acc = accAfter (sampleLevel s) (samplesTaken (offsetTicks s.params.startOffset) (j + 1)) := by
  obtain ⟨p, n, q, hist, rfl⟩ := h
  by_cases hd : ∃ i < 8, j = offsetTicks s.params.startOffset + 4 * (i + 1)
  · rw [sampleStep_due ((isSampleStep_iff _).2 (by simpa [Nat.add_assoc] using hd))]
    obtain ⟨i, hi, rfl⟩ := hd
    obtain ⟨hbefore, hafter⟩ := samplesTaken_succ_due (o := offsetTicks s.params.startOffset) hi
    rw [hafter, accAfter_succ, hbefore, sampleLevel, Nat.add_assoc]
    rfl
  · rw [samplesTaken_succ_not_due hd, sampleStep_not_due]
    rw [isSampleStep_iff]
    simpa [Nat.add_assoc] using hd

theorem ReceptionAt.step {s u : State} {j : Nat} (h : ReceptionAt s j u) (hs : InReception s)
    (hj : j ≠ episodeTicks s.params) : ∃ t, step u = .next t ∧ ReceptionAt s (j + 1) t := by
  have hu : InReception u ∧ u.now ≠ u.t0 + episodeTicks u.params := by
    obtain ⟨_, _, _, _, rfl⟩ := h
    exact ⟨{ hs with }, fun he => hj (Nat.add_left_cancel he)⟩
  obtain ⟨p, n, hstep⟩ := hu.1.step_eq hu.2
  rw [h.sampleStep_acc] at hstep
  obtain ⟨_, _, _, _, rfl⟩ := h
  exact ⟨_, hstep, _, _, _, _, rfl⟩

/-- The run of a reception from its first boundary on. -/
theorem runSteps_reception {s : State} (hs : InReception s) (hfirst : ReceptionAt s 1 s) (k : Nat)
    (hk : k < episodeTicks s.params) : ∃ u, runSteps k s = .next u ∧ ReceptionAt s (k + 1) u := by
  induction k with
  | zero => exact ⟨s, rfl, hfirst⟩
  | succ k ih =>
    obtain ⟨u, hrun, hu⟩ := ih (by omega)
    obtain ⟨t, hstep, ht⟩ := hu.step hs (by omega)
    exact ⟨t, runSteps_snoc k hrun hstep, ht⟩

/-- At its completion boundary B1 completes with the byte of the eight samples, R208's. -/
theorem ReceptionAt.receiverProgress_complete {s u : State} (hs : InReception s)
    (h : ReceptionAt s (episodeTicks s.params) u) :
    receiverProgress u = completeReception { u with acc := byteOfSamples (sampleLevel s) } := by
  have hall : samplesTaken (offsetTicks s.params.startOffset) (episodeTicks s.params + 1) = 8 := by
    simp only [samplesTaken, episodeTicks, Config.ticksPerBit, Config.dataBits]; omega
  have hacc := h.sampleStep_acc
  rw [hall, ← byteOfSamples_eq_accAfter] at hacc
  have hat : AtCompletion u := by
    obtain ⟨_, _, _, _, rfl⟩ := h
    exact ⟨hs.fault, hs.rxs, rfl⟩
  rw [receiverProgress_atCompletion hat, sampleStep_eq, hacc]

/-- A reception runs to its completion boundary. -/
theorem reception_runs {s : State} (hs : InReception s) (hnow : s.now = s.t0 + 1) (hacc : s.acc = 0x00#8) :
    ∃ u, runSteps (episodeTicks s.params - 1) s = .next u ∧ ReceptionAt s (episodeTicks s.params) u := by
  have hpos := episodeTicks_pos s.params
  obtain ⟨u, hrun, hu⟩ := runSteps_reception hs (receptionAt_entry hnow hacc) (episodeTicks s.params - 1) (by omega)
  rw [Nat.sub_add_cancel hpos] at hu
  exact ⟨u, hrun, hu⟩

/-- Settles O34. -/
theorem receptionPushesTheSampledByte : Obligations.ReceptionPushesTheSampledByte := by
  intro s hinv hf hsm hnow hacc
  have hs := hinv.inReception hf hsm
  obtain ⟨u, hrun, hu⟩ := reception_runs hs hnow hacc
  have hcomplete := (hu.receiverProgress_complete hs).trans (completeReception_eq _)
  refine ⟨u, byteOfSamples (sampleLevel s), hrun, ?_⟩
  obtain ⟨_, _, _, _, rfl⟩ := hu
  refine ⟨rfl, hsm, hf, rfl, rfl, rfl, rfl, rfl, rfl, rfl, rfl, rfl, rfl, eightSamplesMakeTheByte _, fun hok => ?_,
    fun hfault => ?_⟩
  · rw [hcomplete, if_pos hok]
  · rw [hcomplete, if_neg hfault]
    exact (push_fault _ (by exact hf)).resolve_left hfault

/-! ### A frame that is received -/

/-- B2 with the transmitter idle completes a WAITQ at most. -/
theorem mainProgress_of_not_inTxb {s : State} (h : s.ms ≠ .inTxb) :
    ∃ ms cp, mainProgress s = { s with ms := ms, cp := cp } := by
  unfold mainProgress
  split
  · exact ⟨_, _, rfl⟩
  · cases hm : s.ms with
    | inTxb => exact absurd hm h
    | inWaitq te => dsimp only [waitqBoundary]; split <;> exact ⟨_, _, rfl⟩
    | _ => exact ⟨_, _, rfl⟩

/-- A falling edge that meets IE = 1 with no latency is an entry at the same boundary, and a reception (R53, R201, R205). -/
theorem interruptEntry_detectEdge {v : State} (hf : v.fault = 0x00#8) (hidle : v.rxs = .idle) (hie : v.ie = true)
    (ha : v.armed = true) (hlat : v.params.isrLatMax = 0) (htr : ∀ u, v.tr = some u → u ≤ v.now)
    (he : edgeNow v = true) :
    interruptEntry (detectEdge v) = { v with
      pend := false, rxSie := true, ie := false, tr := none, rxs := .sampling, t0 := v.now, acc := 0x00#8 } := by
  have hready : entryReady { v with pend := true } = true := (entryReady_iff _).2 ⟨hidle, rfl, hie⟩
  have hforced : entryForced { v with pend := true } = true := entryForced_of_no_latency hlat htr
  have hlow : rxNow { v with pend := true } = .L := ((edgeNow_iff v).1 he).2.2
  rw [detectEdge_edge ha he, pendOnEdge_enabled hie, interruptEntry_of_forced (by exact hf) hready hforced,
    enterReceiver_low hlow, hie]

/-- The state one boundary after such an entry from s, with MAIN as B2 left it. -/
def afterEntry (s : State) (ms : MainSeq) (cp : Nat) : State :=
  { s with
    ms := ms, cp := cp, pend := false, rxSie := true, ie := false, tr := none, rxs := .sampling, t0 := s.now,
    acc := 0x00#8, now := s.now + 1, txHist := s.txl :: s.txHist }

/-- The boundary of such an entry: B2 may complete a WAITQ, and B5 finds MAIN held. -/
theorem step_enters {s : State} (hinv : Inv s) (hf : s.fault = 0x00#8) (hidle : s.rxs = .idle) (hie : s.ie = true)
    (ha : s.armed = true) (hlat : s.params.isrLatMax = 0) (he : edgeNow s = true) :
    ∃ ms cp, step s = .next (afterEntry s ms cp) := by
  have hms : s.ms ≠ .inTxb := hinv.tx.ms_ne_inTxb (hinv.tx.idle_of (.inr (.inl hie)))
  obtain ⟨ms, cp, hmain⟩ := mainProgress_of_not_inTxb hms
  obtain ⟨-, -, -, -, -, -, htr, -⟩ := hinv
  have hB2 : beforeEdge s = { s with ms := ms, cp := cp } := by
    rw [beforeEdge, receiverProgress_idle hidle, hmain]
    exact disarmAfterFault_live hf
  have hB4 := interruptEntry_detectEdge (v := { s with ms := ms, cp := cp }) hf hidle hie ha hlat
    (fun u hu => (htr u hu).le) he
  exact ⟨ms, cp, step_of_main_held ((congrArg (interruptEntry ∘ detectEdge) hB2).trans hB4) hf rfl⟩

/-- On separate wires the receiver hears ENV alone. -/
theorem edgeNow_separate {s : State} (hw : s.params.wiring = .separate) :
    edgeNow s = true ↔ 1 ≤ s.now ∧ envLevel s (s.now - 1) = .H ∧ envLevel s s.now = .L := by
  rw [edgeNow_iff, rxBefore, rxNow, hw]; rfl

theorem sampleLevel_afterEntry {s : State} (hw : s.params.wiring = .separate) (ms : MainSeq) (cp k : Nat) :
    sampleLevel (afterEntry s ms cp) k = envLevel s (s.now + offsetTicks s.params.startOffset + 4 * (k + 1)) := by
  simp only [sampleLevel, afterEntry, hw]; rfl

/-- Settles O36: the entry at the frame's first tick, and then the reception of its eight bits. -/
theorem wellFormedFrameIsReceived : Obligations.WellFormedFrameIsReceived := by
  intro s b hinv hf hidle hie ha hlat hw hpos hH hframe
  obtain ⟨hlow, hbyte, -⟩ := samplesOfAFrame b s.params.startOffset 0 s.now (envLevel s) hframe (by decide)
  obtain ⟨ms, cp, hstep⟩ := step_enters hinv hf hidle hie ha hlat ((edgeNow_separate hw).2 ⟨hpos, hH, hlow⟩)
  have hs := (everyStepKeepsTheInvariant s _ hinv hstep).inReception hf rfl
  obtain ⟨u, hrun, hu⟩ := reception_runs hs rfl rfl
  have hcomplete := (hu.receiverProgress_complete hs).trans (completeReception_eq _)
  have ho : offsetTicks s.params.startOffset ≤ 3 := by cases s.params.startOffset <;> decide
  have hb : byteOfSamples (sampleLevel (afterEntry s ms cp)) = b :=
    (congrArg byteOfSamples (funext fun k => sampleLevel_afterEntry hw ms cp k)).trans (hbyte (by omega))
  rw [hb] at hcomplete
  refine ⟨u, ?_, ?_⟩
  · rw [← hrun, ← runSteps_succ hstep]
    exact congrArg (runSteps · s) (Nat.sub_add_cancel (episodeTicks_pos s.params)).symm
  · obtain ⟨_, _, _, _, rfl⟩ := hu
    exact ⟨rfl, rfl, rfl, rfl, rfl, hcomplete⟩

end Sys2Proof.Machine
end

section
/-! PROOF. The receiver and the block's own transmitter (spec/42_receiver.md section 3, R217). -/

namespace Sys2Proof.Machine

/-! ### No reception of the own frame -/

theorem wired_of_not_low {w : Wiring} {tx : Option Level} (h : tx ≠ some .L) (remote : Level) :
    wired w tx remote = remote := by
  cases w
  · rfl
  · exact if_neg h

/-- With the line at H an entry, if there is one, is spurious. -/
theorem interruptEntry_high {s : State} (hidle : s.rxs = .idle) (hh : rxNow s = .H) : (interruptEntry s).rxs = .idle := by
  rcases interruptEntry_cases s with ⟨-, h⟩ | ⟨-, -, h⟩ | ⟨-, -, q, n, h⟩ | ⟨-, -, -, h⟩ <;> rw [h]
  · exact hidle
  · exact hidle
  · rw [enterReceiver_high (by exact hh)]
  · exact hidle

theorem detectEdge_keeps_rx (s : State) : rxNow (detectEdge s) = rxNow s ∧ (detectEdge s).rxs = s.rxs := by
  obtain ⟨p, n, h, -⟩ := detectEdge_cases s
  rw [h]; exact ⟨rfl, rfl⟩

/-- B1 and B2 of a boundary of a TXB. -/
theorem beforeEdge_busy {s : State} {ts : Nat} {c : Byte} {sie : Bool} (hinv : Inv s) (htx : s.txs = .busy ts c sie) :
    beforeEdge s = txBoundary s ∧ s.rxs = .idle := by
  obtain ⟨hms, -, -, hf, -⟩ := hinv.tx.of_busy htx
  have hidle : s.rxs = .idle := by
    cases hsm : s.rxs with
    | idle => rfl
    | sampling =>
      obtain ⟨-, -, hno, -⟩ := hinv.rx hsm
      rw [htx] at hno; cases hno
  refine ⟨?_, hidle⟩
  rw [beforeEdge, receiverProgress_idle hidle, disarmAfterFault_live ((mainProgress_fault s).trans hf),
    mainProgress_inTxb hf hms]

/-- Settles O38: until its last boundary IE = 0 shuts the receiver out, and there an entry finds the line at H. -/
theorem ownTransmissionIsNotReceived : Obligations.OwnTransmissionIsNotReceived := by
  intro s ts c sie hinv htx
  obtain ⟨hB2, hidle⟩ := beforeEdge_busy hinv htx
  obtain ⟨hms, hie, -, hf, -⟩ := hinv.tx.of_busy htx
  rcases txBoundary_cases htx with ⟨hend, he⟩ | ⟨hnot, l, c', -, he⟩
  · refine ⟨fun t hlt => absurd hend (Nat.ne_of_lt hlt), fun _ hH hremote => ?_⟩
    obtain ⟨hrx, hrxs⟩ := detectEdge_keeps_rx (beforeEdge s)
    have hline : rxNow (beforeEdge s) = .H := by
      rw [hB2, he]
      exact (wired_of_not_low (by rw [complete_txl, hH]; simp) _).trans hremote
    exact interruptEntry_high (hrxs.trans (by rw [hB2, he]; exact hidle)) (hrx.trans hline)
  · refine ⟨fun t _ ht => ?_, fun hend => absurd hend hnot⟩
    obtain ⟨p, n, a, hstep⟩ := step_inside_txb (hB2.trans he) hf hie hms
    obtain rfl := Host.Outcome.next.inj (hstep.symm.trans ht)
    exact ⟨hidle, hms⟩

/-! ### The edge of the own start bit -/

/-- At the start bit of a TXB on a shared wire RX is L, so the edge is there if RX was H in the tick before. -/
theorem edgeNow_startBit {s : State} (htx : s.txl = some .L) (hw : s.params.wiring = .shared) :
    edgeNow s = true ↔ 1 ≤ s.now ∧ rxBefore s = .H := by
  have hlow : rxNow s = .L := by rw [rxNow, hw, htx]; rfl
  rw [edgeNow_iff, and_iff_left hlow]

/-- Within a boundary the RX level of the tick before does not change. -/
theorem Onward.rxBefore_eq {s t : State} (h : Onward s t) : rxBefore t = rxBefore s := by
  obtain ⟨hp, -, hr⟩ := h.launch
  simp only [rxBefore, txBefore, envLevel, h.now, h.txHist, hp, hr]

/-- The edge that B5 made meets the policy if B3 saw ARMED and no edge (R217). -/
theorem ownEdge_new {atB3 s : State} (ha : atB3.armed = true) (hno : edgeNow atB3 = false) (he : edgeNow s = true) :
    ownEdge atB3 s = pendOnEdge s := by
  simp [ownEdge, ha, hno, he]

theorem ownEdge_none {atB3 s : State} (h : atB3.armed = false ∨ edgeNow atB3 = true ∨ edgeNow s = false) :
    ownEdge atB3 s = s := by
  rcases h with h | h | h <;> simp [ownEdge, h]

/-- After a B5 without a fault only the edge of the own start bit and B6 are left. -/
theorem afterMain_live {atB3 u : State} (hf : u.fault = 0x00#8) : afterMain atB3 u = tick (ownEdge atB3 u) := by
  obtain ⟨p, n, ho, -⟩ := ownEdge_cases atB3 u
  rw [afterMain, disarmAfterFault_live (by rw [ho]; exact hf)]

/-- Settles O55: B5 ends at the start bit, whose edge, if it is one, meets IE = 0. -/
theorem ownStartBitMeetsTheMask : Obligations.OwnStartBitMeetsTheMask := by
  refine ⟨fun s b hb hl => ⟨?entry, ?starts⟩, fun s s1 b sie h => ?_⟩
  case entry =>
    rw [hb.mainLoop_txb hl, ← beforeMain_now s]; rfl
  case starts =>
    obtain ⟨s1, h1, -⟩ := hb.txbStarts hl
    exact ⟨s1, h1⟩
  obtain ⟨u, hu, hbit, htxs, hs1⟩ := h.atStartBit
  have hB3 : Onward (beforeEdge s) u := (onward_beforeMain s).trans (onward_mainLoop hu)
  have hB5 : Onward s u := (onward_beforeEdge s).trans hB3
  obtain ⟨hp, -⟩ := hB5.launch
  have hlive : (beforeEdge s).fault = 0x00#8 := by
    by_contra hf
    exact hf ((hB3.fault hf).symm.trans hbit.fault)
  obtain ⟨-, -, -, -, -, harmed⟩ := beforeEdge_keeps s
  have harmed := harmed hlive
  rw [afterMain_live hbit.fault] at hs1
  refine ⟨u, hu, hbit.ie, hbit.txl, htxs, hbit.ms, fun hw ha hpos hH hno => ?edge, fun hcase => ?quiet⟩
  case edge =>
    have he : edgeNow u = true := (edgeNow_startBit hbit.txl (hp ▸ hw)).2 ⟨hB5.now ▸ hpos, hB5.rxBefore_eq.trans hH⟩
    obtain ⟨hdrop, hlatch, hdraw⟩ := pendOnEdge_masked hbit.ie
    rw [hs1, ownEdge_new (harmed.trans ha) hno he, ← hp]
    exact ⟨fun h => by rw [hdrop h], fun h => by rw [hlatch h],
      fun h => ((hdraw h).imp (congrArg tick) (congrArg tick)).symm⟩
  case quiet =>
    suffices hown : ownEdge (beforeEdge s) u = u by rw [hs1, hown]
    rcases hcase with hw | ha | h0 | hL | he
    · exact ownEdge_separate (hp ▸ hw) hB3.launch.1.symm hB3.launch.2.2.symm hB3.now.symm
    · exact ownEdge_none (.inl (harmed.trans ha))
    · exact ownEdge_none (.inr (.inr (by simp [edgeNow, hB5.now, h0])))
    · exact ownEdge_none (.inr (.inr (by simp [edgeNow, hB5.rxBefore_eq, hL])))
    · exact ownEdge_none (.inr (.inl he))

end Sys2Proof.Machine
end

section
/-! PROOF. The ring buffer: PUSH, pops, and the queue of the unread bytes (spec/43_ring_buffer.md sections 1 and 2,
spec/20_memory.md section 5). -/

namespace Sys2Proof.Machine

/-! ### PUSH -/

theorem push_room {s : State} (b : Byte) (h : s.occ < 64#7) :
    push b s = { memWrite s.w b s with w := s.w + 1#6, occ := s.occ + 1#7 } := if_pos h

theorem push_dropOldest {s : State} (b : Byte) (h : s.occ = 64#7) (hp : s.params.overflow = .dropOldest) : push b s =
    { memWrite s.w b s with w := s.w + 1#6, r := s.r + 1#6, ovfCnt := satInc s.ovfCnt } := by
  simp [push, h, hp]

theorem push_dropNewest {s : State} (b : Byte) (h : s.occ = 64#7) (hp : s.params.overflow = .dropNewest) : push b s =
    { s with ovfCnt := satInc s.ovfCnt } := by
  simp [push, h, hp]

theorem push_legacyFault {s : State} (b : Byte) (h : s.occ = 64#7) (hp : s.params.overflow = .legacyFault) : push b s =
    raiseFault .rbOverflow s := by
  simp [push, h, hp]

theorem satInc_eq (c : Word) : satInc c = if c = 0xFFFF#16 then 0xFFFF#16 else c + 1#16 := by
  unfold satInc; split
  · assumption
  · rfl

theorem memRead_memWrite_same (i : BitVec 6) (v : Byte) (s : State) : memRead (memWrite i v s) i = v :=
  (memRead_memWrite i i v s).trans (if_pos rfl)

/-- Under drop_oldest and below capacity a PUSH stores its byte at W. -/
theorem push_memRead_same {s : State} (b : Byte)
    (h : s.occ < 64#7 ∨ s.occ = 64#7 ∧ s.params.overflow = .dropOldest) : memRead (push b s) s.w = b := by
  rcases h with h | ⟨h, hp⟩
  · rw [push_room b h]; exact memRead_memWrite_same s.w b s
  · rw [push_dropOldest b h hp]; exact memRead_memWrite_same s.w b s

/-- W stands OCC places after R. -/
theorem RingOk.w_eq {s : State} (h : RingOk s) : s.w = s.r + BitVec.ofNat 6 s.occ.toNat := by
  obtain ⟨-, hw⟩ := h
  refine BitVec.eq_of_toNat_eq (hw.trans ?_)
  rw [BitVec.toNat_add, BitVec.toNat_ofNat, Nat.add_mod_mod]

/-- W and R meet in an empty and in a full buffer. -/
theorem RingOk.w_eq_r {s : State} (h : RingOk s) (ho : s.occ = 0#7 ∨ s.occ = 64#7) : s.w = s.r := by
  have hzero : BitVec.ofNat 6 s.occ.toNat = 0#6 := by rcases ho with ho | ho <;> rw [ho] <;> rfl
  rw [h.w_eq, hzero, BitVec.add_zero]

/-- Settles O26. -/
theorem pushAppendsAByte : Obligations.PushAppendsAByte := by
  intro s b h
  have hocc : (s.occ + 1#7).toNat = s.occ.toNat + 1 := by bv_omega
  refine ⟨?_, ?_, ?_, push_memRead_same b (.inl h), fun i => push_memRead_other b s⟩ <;> rw [push_room b h]
  · rfl
  · exact hocc
  · exact BitVec.toNat_add s.w 1#6

/-- Settles O27: in a full ring W = R, so the byte stored at W is the one at R. -/
theorem pushIntoAFullBuffer : Obligations.PushIntoAFullBuffer := by
  intro s b hfull
  rw [← satInc_eq]
  refine ⟨fun hp => ?oldest, push_dropNewest b hfull, fun hp => ?fault⟩
  case oldest =>
    have hsame := push_memRead_same b (.inr ⟨hfull, hp⟩)
    refine ⟨?_, hsame, fun i => push_memRead_other b s, fun hring => ?_⟩
    · rw [push_dropOldest b hfull hp]; rfl
    · have hwr := hring.w_eq_r (.inr hfull)
      exact ⟨hwr, hwr ▸ hsame⟩
  case fault =>
    rw [push_legacyFault b hfull hp, raiseFault_eq]; rfl

/-! ### The queue of the unread bytes -/

theorem length_bytesFrom (m : Memory) (n : Nat) : ∀ i, (bytesFrom m i n).length = n := by
  induction n with
  | zero => exact fun _ => rfl
  | succ n ih => exact fun i => congrArg (· + 1) (ih (i + 1#6))

theorem ofNat_succ_ring (i : BitVec 6) (n : Nat) : i + 1#6 + BitVec.ofNat 6 n = i + BitVec.ofNat 6 (n + 1) := by
  rw [BitVec.add_assoc, ← BitVec.ofNat_add, Nat.add_comm]

/-- The bytes from an index on, read at the other end. -/
theorem bytesFrom_succ_last (m : Memory) (n : Nat) : ∀ i,
    bytesFrom m i (n + 1) = bytesFrom m i n ++ [m.read (i + BitVec.ofNat 6 n).toNat] := by
  induction n with
  | zero => intro i; simp [bytesFrom]
  | succ n ih =>
    intro i
    rw [bytesFrom, ih, ofNat_succ_ring]
    rfl

/-- Two memories that read alike at the n indices from i on hold the same bytes there. -/
theorem bytesFrom_congr {m m' : Memory} (n : Nat) : ∀ i : BitVec 6,
    (∀ k < n, m'.read (i + BitVec.ofNat 6 k).toNat = m.read (i + BitVec.ofNat 6 k).toNat) →
    bytesFrom m' i n = bytesFrom m i n := by
  induction n with
  | zero => exact fun _ _ => rfl
  | succ n ih =>
    intro i h
    have hhead := h 0 (Nat.succ_pos n)
    have htail := ih (i + 1#6) fun k hk => by
      rw [ofNat_succ_ring]; exact h (k + 1) (Nat.succ_lt_succ hk)
    rw [BitVec.add_zero] at hhead
    rw [bytesFrom, bytesFrom, hhead, htail]

theorem length_unread (s : State) : (unread s).length = s.occ.toNat := length_bytesFrom s.rb _ s.r

theorem unread_of_nonempty {s : State} (h : s.occ ≠ 0#7) :
    unread s = memRead s s.r :: bytesFrom s.rb (s.r + 1#6) (s.occ - 1#7).toNat := by
  have hocc : s.occ.toNat = (s.occ - 1#7).toNat + 1 := by bv_omega
  rw [unread, hocc]; rfl

theorem unread_popResult (s : State) :
    unread (popResult s) = bytesFrom s.rb (s.r + 1#6) (s.occ - 1#7).toNat := rfl

/-- Fewer than 64 places on, the index is another. -/
theorem add_ofNat_ne_add_ofNat (i : BitVec 6) {k n : Nat} (hk : k < n) (hn : n < k + 64) :
    i + BitVec.ofNat 6 k ≠ i + BitVec.ofNat 6 n := by
  intro h
  have h' := congrArg BitVec.toNat h
  simp only [BitVec.toNat_add, BitVec.toNat_ofNat, Nat.add_mod_mod] at h'
  omega

/-- A byte stored at W is the one after the n bytes that end at W. -/
theorem bytesFrom_push {s : State} {b : Byte} {i : BitVec 6} {n : Nat} (hn : n < 64)
    (hw : s.w = i + BitVec.ofNat 6 n) (hsame : memRead (push b s) s.w = b) :
    bytesFrom (push b s).rb i (n + 1) = bytesFrom s.rb i n ++ [b] := by
  have hlast : (push b s).rb.read (i + BitVec.ofNat 6 n).toNat = b := hw ▸ hsame
  have hold : bytesFrom (push b s).rb i n = bytesFrom s.rb i n := bytesFrom_congr n i fun k hk =>
    push_memRead_other b s (hw ▸ add_ofNat_ne_add_ofNat i hk (by omega))
  rw [bytesFrom_succ_last, hlast, hold]

/-- Below capacity a PUSH appends to the queue. -/
theorem unread_push_room {s : State} (b : Byte) (hring : RingOk s) (h : s.occ.toNat < 64) :
    unread (push b s) = unread s ++ [b] := by
  have hocc : (s.occ + 1#7).toNat = s.occ.toNat + 1 := by bv_omega
  have happ := bytesFrom_push h hring.w_eq (push_memRead_same b (.inl h))
  rw [← hocc] at happ
  rw [push_room b h] at happ ⊢
  exact happ

/-- A full buffer under drop_oldest loses its first byte and gains the pushed one. -/
theorem unread_push_dropOldest {s : State} (b : Byte) (hring : RingOk s) (hfull : s.occ = 64#7)
    (hp : s.params.overflow = .dropOldest) : unread (push b s) = (unread s).tail ++ [b] := by
  have hw : s.w = s.r + 1#6 + BitVec.ofNat 6 63 := by
    rw [hring.w_eq_r (.inr hfull), ofNat_succ_ring]; exact (BitVec.add_zero s.r).symm
  have happ := bytesFrom_push (by decide) hw (push_memRead_same b (.inr ⟨hfull, hp⟩))
  have hold : (unread s).tail = bytesFrom s.rb (s.r + 1#6) 63 := by
    rw [unread_of_nonempty (by rw [hfull]; decide), hfull]; rfl
  have hnew : unread (push b s) = bytesFrom (push b s).rb (s.r + 1#6) 64 := by
    rw [push_dropOldest b hfull hp, unread]
    dsimp only [memWrite]
    rw [hfull]; rfl
  rw [hnew, hold]
  exact happ

/-- A full buffer under the other policies stays. -/
theorem unread_push_rejected {s : State} (b : Byte) (hfull : s.occ = 64#7) (hp : s.params.overflow ≠ .dropOldest) :
    unread (push b s) = unread s := by
  cases hpolicy : s.params.overflow with
  | dropOldest => exact absurd hpolicy hp
  | dropNewest => rw [push_dropNewest b hfull hpolicy]; rfl
  | legacyFault => rw [push_legacyFault b hfull hpolicy, raiseFault_eq]; rfl

/-- Settles O28. -/
theorem bufferIsAFifoQueue : Obligations.BufferIsAFifoQueue := by
  intro s hring
  have hfull : s.occ.toNat = 64 → s.occ = 64#7 := fun h => BitVec.eq_of_toNat_eq h
  exact ⟨length_unread s, fun b => unread_push_room b hring,
    fun b h => unread_push_dropOldest b hring (hfull h), fun b h => unread_push_rejected b (hfull h),
    fun hne => ⟨_, _, unread_of_nonempty hne, unread_popResult s, rfl⟩⟩

end Sys2Proof.Machine
end

section
/-! PROOF. The read commands RDNB, RDB and RDOVF (spec/43_ring_buffer.md sections 2 and 3). -/

namespace Sys2Proof.Machine

/-! ### Their results -/

/-- Settles O21. -/
theorem rdnbResult : Obligations.RdnbResult := by
  intro s
  by_cases hl : s.line = .ready
  · rw [if_pos hl, exec, execRdnb, requireReady_ready hl]
    split <;> rfl
  · rw [if_neg hl]
    exact notReadyLineFaults s .rdnb hl (.inr (.inr (.inl rfl)))

theorem exec_rdb_polls {s : State} (h : inPoll s = true ∨ s.line = .ready) : exec .rdb s = pollRdb s := by
  rw [exec, execRdb]
  split
  · rfl
  · rename_i hp; exact requireReady_ready (h.resolve_left hp) pollRdb

/-- Settles O22. -/
theorem rdbResult : Obligations.RdbResult := by
  refine fun s => ⟨fun h => ?_, fun hl hfirst => ?_⟩
  · rw [← inPoll_iff, or_comm] at h
    rw [exec_rdb_polls h, pollRdb]
    split <;> rfl
  · exact notReadyLineFaults s .rdb hl (.inr (.inr (.inr (.inr ⟨rfl, hfirst⟩))))

/-- Settles O23. -/
theorem rdovfResult : Obligations.RdovfResult := by
  intro s
  by_cases hl : s.line = .ready
  · rw [if_pos hl, exec, execRdovf, requireReady_ready hl]; rfl
  · rw [if_neg hl]
    exact notReadyLineFaults s .rdovf hl (.inr (.inr (.inr (.inl rfl))))

/-! ### What they leave unchanged, and the sentinel -/

/-- A read finds no READY line, answers the sentinel or OVF_CNT, spins, or pops. -/
theorem read_cases {i : Instr} {s t : State} (h : exec i s = .next t) (hi : i = .rdnb ∨ i = .rdb ∨ i = .rdovf) :
    (s.line ≠ .ready ∧ t = raiseFault .notInit s) ∨
    (i = .rdnb ∧ s.occ = 0#7 ∧ t = complete (result sentinel s)) ∨
    (i = .rdovf ∧ t = complete (result s.ovfCnt s)) ∨
    (i = .rdb ∧ s.occ = 0#7 ∧ t = { s with ms := .inRdb (s.now + 1) }) ∨
    (i ≠ .rdovf ∧ s.occ ≠ 0#7 ∧ t = complete (popResult s)) := by
  rcases hi with rfl | rfl | rfl
  · rw [exec, execRdnb, requireReady] at h
    split at h
    · split at h <;> obtain rfl := Host.Outcome.next.inj h
      · exact .inr (.inl ⟨rfl, ‹_›, rfl⟩)
      · exact .inr (.inr (.inr (.inr ⟨nofun, ‹_›, rfl⟩)))
    · exact .inl ⟨‹_›, (Host.Outcome.next.inj h).symm⟩
  · rcases execRdb_cases s with ⟨-, hl, he⟩ | ⟨-, ho, he⟩ | ⟨-, ho, he⟩ <;>
      obtain rfl := Host.Outcome.next.inj (he.symm.trans h)
    · exact .inl ⟨hl, rfl⟩
    · exact .inr (.inr (.inr (.inl ⟨rfl, ho, rfl⟩)))
    · exact .inr (.inr (.inr (.inr ⟨nofun, ho, rfl⟩)))
  · rw [exec, execRdovf, requireReady] at h
    split at h
    · exact .inr (.inr (.inl ⟨rfl, (Host.Outcome.next.inj h).symm⟩))
    · exact .inl ⟨‹_›, (Host.Outcome.next.inj h).symm⟩

/-- Settles O44: of the outcomes of a read, the fault needs a line that is not READY, and only a pop moves R and OCC. -/
theorem readCommandFrame : Obligations.ReadCommandFrame := by
  intro i s t h hi
  rcases read_cases h hi with ⟨hl, rfl⟩ | ⟨-, -, rfl⟩ | ⟨-, rfl⟩ | ⟨-, -, rfl⟩ | ⟨hne, ho, rfl⟩
  · rw [raiseFault_eq]
    exact ⟨⟨rfl, rfl, rfl⟩, rfl, rfl, rfl, rfl, rfl, rfl, fun _ => rfl, .inl rfl, fun hr => absurd hr hl,
      fun _ => ⟨rfl, rfl⟩⟩
  · exact ⟨⟨rfl, rfl, rfl⟩, rfl, rfl, rfl, rfl, rfl, rfl, fun _ => rfl, .inr ⟨_, rfl⟩, fun _ => rfl,
      fun _ => ⟨rfl, rfl⟩⟩
  · exact ⟨⟨rfl, rfl, rfl⟩, rfl, rfl, rfl, rfl, rfl, rfl, fun _ => rfl, .inr ⟨_, rfl⟩, fun _ => rfl,
      fun _ => ⟨rfl, rfl⟩⟩
  · exact ⟨⟨rfl, rfl, rfl⟩, rfl, rfl, rfl, rfl, rfl, rfl, fun _ => rfl, .inl rfl, fun _ => rfl,
      fun _ => ⟨rfl, rfl⟩⟩
  · exact ⟨⟨rfl, rfl, rfl⟩, rfl, rfl, rfl, rfl, rfl, rfl, fun _ => rfl, .inr ⟨_, rfl⟩, fun _ => rfl,
      fun hk => absurd hk (not_or.2 ⟨hne, ho⟩)⟩

theorem byteResult_toNat (b : Byte) : (byteResult b).toNat = b.toNat := BitVec.toNat_setWidth_of_le (by decide)

theorem byteResult_ne_sentinel (b : Byte) : byteResult b ≠ 0xFFFF#16 := fun h => by
  have hb := byteResult_toNat b
  rw [h] at hb
  exact absurd b.isLt (by rw [← hb]; decide)

/-- What RDB, or RDNB on a buffer that is not empty, appends is no sentinel: it is a popped byte, or nothing. -/
theorem read_appends_no_sentinel {i : Instr} {s t : State} (h : exec i s = .next t)
    (hi : i = .rdb ∨ i = .rdnb ∧ s.occ ≠ 0#7) : 0xFFFF#16 ∉ t.out.drop s.out.length := by
  have hread : i = .rdnb ∨ i = .rdb ∨ i = .rdovf := by tauto
  rcases read_cases h hread with ⟨-, rfl⟩ | ⟨rfl, ho, -⟩ | ⟨rfl, -⟩ | ⟨-, -, rfl⟩ | ⟨-, -, rfl⟩
  · rw [raiseFault_eq]; simp
  · simp [ho] at hi
  · simp at hi
  · simp
  · simpa [popResult] using (byteResult_ne_sentinel _).symm

/-- Settles O25. -/
theorem sentinelIsNoByteResult : Obligations.SentinelIsNoByteResult := by
  refine ⟨fun b => ⟨?_, byteResult_ne_sentinel b⟩, fun s t h => read_appends_no_sentinel h (.inl rfl),
    fun s t ho h => read_appends_no_sentinel h (.inr ⟨rfl, ho⟩), fun s hl ho => ?_⟩
  · rw [byteResult_toNat]; exact Nat.lt_succ_iff.1 b.isLt
  · have h := rdnbResult s
    rw [if_pos hl, if_pos ho] at h
    exact ⟨_, h, rfl⟩

end Sys2Proof.Machine
end

section
/-! PROOF. The blocking read: its return at the PUSH, and its spin while IE = 0 (spec/43_ring_buffer.md section 2). -/

namespace Sys2Proof.Machine

/-! ### The return at the PUSH -/

theorem popResult_cp (s : State) : (popResult s).cp = s.cp := rfl

theorem popResult_out (s : State) : (popResult s).out = s.out ++ [byteResult (memRead s s.r)] := rfl

theorem exec_rdb_pops {s : State} {te : Nat} (hm : s.ms = .inRdb te) (ho : s.occ ≠ 0#7) :
    exec .rdb s = .next (complete (popResult s)) := by
  rw [exec_rdb_polls (.inl ((inPoll_iff s).2 ⟨te, hm⟩)), pollRdb, if_neg ho]

/-- B3 and B4 leave the ring buffer. -/
theorem beforeMain_ring (s : State) :
    (beforeMain s).rb = (beforeEdge s).rb ∧ (beforeMain s).r = (beforeEdge s).r ∧
      (beforeMain s).occ = (beforeEdge s).occ := by
  obtain ⟨p, n, h1, -⟩ := detectEdge_cases (beforeEdge s)
  obtain ⟨_, _, _, _, _, _, _, _, h2⟩ := interruptEntry_frame (detectEdge (beforeEdge s))
  rw [beforeMain, h2, h1]
  exact ⟨rfl, rfl, rfl⟩

/-- A completion that finds room pushes the byte just assembled and returns. -/
theorem InReception.beforeEdge_complete {s : State} (h : InReception s) (hnow : s.now = s.t0 + episodeTicks s.params)
    (hroom : s.occ < 64#7) : beforeEdge s = { push (sampleStep s).acc (sampleStep s) with ie := s.rxSie, rxs := .idle } := by
  have hpush := push_room (s := sampleStep s) (sampleStep s).acc (by rw [sampleStep_eq]; exact hroom)
  have hB1 : receiverProgress s = { push (sampleStep s).acc (sampleStep s) with ie := s.rxSie, rxs := .idle } := by
    rw [receiverProgress_atCompletion ⟨h.fault, h.rxs, hnow⟩, completeReception_eq, if_pos, sampleStep_eq]
    rw [hpush, sampleStep_eq]; exact h.fault
  obtain ⟨hms, hw⟩ := receiverProgress_main s
  have hlive : (receiverProgress s).fault = 0x00#8 := by
    rw [hB1, hpush, sampleStep_eq]; exact h.fault
  rw [beforeEdge, mainProgress_still (by rw [hms]; exact h.not_inTxb) (hw.trans h.not_waiting), disarmAfterFault_live hlive,
    hB1]

/-- After a completion into an empty buffer B5 begins with the byte just assembled at R. -/
theorem InReception.beforeMain_complete {s : State} (h : InReception s) (hring : RingOk s)
    (hnow : s.now = s.t0 + episodeTicks s.params) (hempty : s.occ = 0#7) :
    (beforeMain s).fault = 0x00#8 ∧ (beforeMain s).now = s.now ∧ (beforeMain s).ms = s.ms ∧ (beforeMain s).cp = s.cp ∧
      (beforeMain s).out = s.out ∧ (beforeMain s).occ = 1#7 ∧
      memRead (beforeMain s) (beforeMain s).r = (sampleStep s).acc := by
  obtain ⟨-, hnow', -, -, -, -, hms, hcp, hout, hf⟩ := beforeMain_keeps s
  obtain ⟨hrb, hr, hocc⟩ := beforeMain_ring s
  have hroom : s.occ < 64#7 := by rw [hempty]; decide
  have hbyte := push_memRead_same (s := { s with acc := (sampleStep s).acc }) (sampleStep s).acc (.inl hroom)
  have hB2 := h.beforeEdge_complete hnow hroom
  rw [sampleStep_eq, push_room _ (by exact hroom)] at hB2
  rw [push_room _ (by exact hroom)] at hbyte
  rw [memRead, hrb, hr, hf, hnow', hms, hcp, hout, hocc, hB2]
  refine ⟨h.fault, rfl, rfl, rfl, rfl, congrArg (· + 1#7) hempty, ?_⟩
  rw [← hring.w_eq_r (.inl hempty)]
  exact hbyte

/-- B5's loop at a due poll of a buffer that is not empty: the poll pops, and the loop undoes nothing of it. -/
theorem onward_mainLoop_pop {s t : State} {te fuel : Nat} (hr : mainRuns s = true) (hm : s.ms = .inRdb te)
    (hte : te ≤ s.now) (ho : s.occ ≠ 0#7) (h : mainLoop (fuel + 1) s = .next t) : Onward (complete (popResult s)) t := by
  have hdone : completedNow (complete (popResult s)) = true := (completedNow_iff _).2 ⟨((mainRuns_iff s).1 hr).1, rfl⟩
  rw [mainLoop_poll hr hm hte, exec_rdb_pops hm ho, andThen_next, loopOn_completed hdone] at h
  exact (onward_interruptEntry _).trans (onward_mainLoop h)

/-- Settles O46: B1 pushes the byte at W = R, the poll of B5 takes it from there, and nothing undoes that. -/
theorem blockingReadReturnsAtThePush : Obligations.BlockingReadReturnsAtThePush := by
  intro s te hinv hf hsm hnow hempty hm hidle
  have hring := (statusSettled_of_inv hinv).ring
  obtain ⟨-, -, hte⟩ := hinv.main.of_inRdb hm
  obtain ⟨hf', hnow', hms, hcp, hout, hocc, hbyte⟩ := (hinv.inReception hf hsm).beforeMain_complete hring hnow hempty
  obtain ⟨t, ht⟩ := stepAlwaysAnswersNext s
  obtain ⟨u, hu, rfl⟩ := step_cases ht
  have hpop := onward_mainLoop_pop ((mainRuns_iff _).2 ⟨hf', hidle⟩) (hms.trans hm) (hnow' ▸ hte) (by rw [hocc]; decide) hu
  have hend := hpop.trans ((onward_ownEdge (beforeEdge s) u).trans (onward_disarmAfterFault _))
  obtain ⟨-, -, -, hout', hcp', -⟩ := hend.tick_spec
  rw [complete_out, popResult_out, hbyte, hout] at hout'
  rw [complete_cp, popResult_cp, hcp] at hcp'
  exact ⟨_, ht, hout', hcp'⟩

/-! ### The spin -/

/-- A live block that waits in an RDB whose poll is due, with an empty buffer and the receiver shut out by IE = 0. -/
structure SpinsMasked (s : State) : Prop where
  fault : s.fault = 0x00#8
  rxs : s.rxs = .idle
  ie : s.ie = false
  occ : s.occ = 0#7
  poll : ∃ te, s.ms = .inRdb te ∧ te ≤ s.now

theorem exec_rdb_spins {s : State} {te : Nat} (hm : s.ms = .inRdb te) (ho : s.occ = 0#7) :
    exec .rdb s = .next { s with ms := .inRdb (s.now + 1) } := by
  rw [exec_rdb_polls (.inl ((inPoll_iff s).2 ⟨te, hm⟩)), pollRdb, if_pos ho]

/-- B1 and B2 have nothing to do, and with IE = 0 an edge may set PEND and nothing is entered. -/
theorem spinsMasked_beforeMain {s : State} (h : SpinsMasked s) :
    SpinsMasked (beforeMain s) ∧ (beforeMain s).cp = s.cp ∧ (beforeMain s).out = s.out := by
  obtain ⟨te, hm, -⟩ := h.poll
  have hB2 : beforeEdge s = s := by
    rw [beforeEdge, receiverProgress_idle h.rxs, mainProgress_still (by simp [hm]) (isWaiting_eq_false (by simp [hm])),
      disarmAfterFault_live h.fault]
  obtain ⟨p, n, hd, -⟩ := detectEdge_cases s
  have hB4 : beforeMain s = { s with pend := p, draws := n, tr := none } := by
    rw [beforeMain, hB2, hd]
    exact interruptEntry_of_not_ready h.fault (by simp [entryReady, h.ie])
  rw [hB4]
  exact ⟨{ h with }, rfl, rfl⟩

/-- The poll of an empty buffer ends B5's loop. -/
theorem SpinsMasked.mainLoop_eq {s : State} (h : SpinsMasked s) (fuel : Nat) :
    mainLoop (fuel + 1) s = .next { s with ms := .inRdb (s.now + 1) } := by
  obtain ⟨te, hm, hte⟩ := h.poll
  rw [mainLoop_poll ((mainRuns_iff s).2 ⟨h.fault, h.rxs⟩) hm hte, exec_rdb_spins hm h.occ]
  exact loopOn_stopped (by simp [completedNow]) fuel

/-- A boundary of the spin polls once and ends with the next poll due. -/
theorem SpinsMasked.step {s : State} (h : SpinsMasked s) :
    ∃ t, step s = .next t ∧ SpinsMasked t ∧ t.cp = s.cp ∧ t.out = s.out := by
  obtain ⟨hv, hcp, hout⟩ := spinsMasked_beforeMain h
  obtain ⟨p, n, a, ha⟩ := afterMain_frame (beforeEdge s) { beforeMain s with ms := .inRdb ((beforeMain s).now + 1) }
  have hloop : mainLoop (mainFuel (beforeMain s)) (beforeMain s) = _ := hv.mainLoop_eq _
  refine ⟨_, by rw [step_eq, hloop, andThen_next], ?_⟩
  rw [ha]
  exact ⟨{ hv with poll := ⟨_, rfl, Nat.le_refl _⟩ }, hcp, hout⟩

theorem SpinsMasked.runSteps {s : State} (h : SpinsMasked s) (n : Nat) :
    ∃ t, runSteps n s = .next t ∧ SpinsMasked t ∧ t.cp = s.cp ∧ t.out = s.out := by
  induction n with
  | zero => exact ⟨s, rfl, h, rfl, rfl⟩
  | succ n ih =>
    obtain ⟨t, hrun, ht, hcp, hout⟩ := ih
    obtain ⟨u, hstep, hu, hcp', hout'⟩ := ht.step
    exact ⟨u, runSteps_snoc n hrun hstep, hu, hcp'.trans hcp, hout'.trans hout⟩

/-- Settles O47: the spin never leaves IN_RDB, and an observation point has MS = DONE. -/
theorem blockingReadSpinsWhileMasked : Obligations.BlockingReadSpinsWhileMasked := by
  intro s te n hf hrx hie ho hm hte
  obtain ⟨t, hrun, ht, hcp, hout⟩ := SpinsMasked.runSteps ⟨hf, hrx, hie, ho, te, hm, hte⟩ n
  obtain ⟨te', hm', -⟩ := ht.poll
  exact ⟨t, hrun, ⟨te', hm'⟩, hcp, hout, by simp [atObservationPoint, hm']⟩

end Sys2Proof.Machine
end

section
/-! PROOF. EI and DI, and the frame of the commands without a result (spec/44_interrupt_control.md). -/

namespace Sys2Proof.Machine

/-! ### IE -/

theorem exec_ei (s : State) : exec .ei s = .next (complete { s with ie := true }) := rfl

theorem exec_di (s : State) : exec .di s = .next (complete { s with ie := false }) := rfl

/-- Settles O17: DI is IE <- 0 and the completion of a command. -/
theorem diClearsIe : Obligations.DiClearsIe := exec_di

/-! ### The entry that EI lets in -/

/-- A B4 evaluation of a live block that ends with IE = 0 is not one that waits on, so it leaves no t_r (R53). -/
theorem interruptEntry_masked_tr {s : State} (hf : (interruptEntry s).fault = 0x00#8)
    (hie : (interruptEntry s).ie = false) : (interruptEntry s).tr = none := by
  rcases interruptEntry_cases s with ⟨hn, h⟩ | ⟨-, -, h⟩ | ⟨-, -, q, n, h⟩ | ⟨-, hr, -, h⟩ <;> rw [h] at hf hie ⊢
  · exact absurd hf hn
  · rcases enterReceiver_cases { s with tr := q, draws := n } with ⟨-, he⟩ | ⟨-, he⟩ <;> rw [he]
  · obtain ⟨-, -, hset⟩ := (entryReady_iff s).1 hr
    exact absurd (hset.symm.trans hie) nofun

/-- The state in which B4 leaves v when EI has let a pending edge in and RX reads L: a reception begins (R205, R280). -/
def samplingAfterEi (v : State) : State :=
  { v with
    cp := v.cp + 1, ms := .atCmd, pend := false, rxSie := true, ie := false, tr := none, rxs := .sampling, t0 := v.now,
    acc := 0x00#8 }

/-- The same with RX at H: the entry is spurious (R206). -/
def spuriousAfterEi (v : State) : State :=
  { v with cp := v.cp + 1, ms := .atCmd, pend := false, rxSie := true, ie := true, tr := none }

/-- B5 finds v at an EI with IE = 0, an edge pending, no latency and no wait of R53 running. -/
structure PendingAtEi (v : State) : Prop where
  runs : mainRuns v = true
  ms : v.ms = .atCmd
  cmd : ∃ w, fetch v = some w ∧ decodeWord w = .cmd .ei
  pend : v.pend = true
  lat : v.params.isrLatMax = 0
  tr : v.tr = none

theorem StartsCommand.pendingAtEi {s : State} (h : StartsCommand s .ei) (hie : (beforeMain s).ie = false)
    (hp : (beforeMain s).pend = true) (hlat : s.params.isrLatMax = 0) : PendingAtEi (beforeMain s) := by
  obtain ⟨hr, hm, hcmd⟩ := h
  obtain ⟨hparams, -⟩ := ((onward_beforeEdge s).trans (onward_beforeMain s)).launch
  have htr : (beforeMain s).tr = none :=
    interruptEntry_masked_tr (s := detectEdge (beforeEdge s)) ((mainRuns_iff _).1 hr).1 hie
  exact ⟨hr, hm, hcmd, hp, hparams ▸ hlat, htr⟩

theorem PendingAtEi.completedNow {v : State} (h : PendingAtEi v) : completedNow (complete { v with ie := true }) = true :=
  (completedNow_iff _).2 ⟨((mainRuns_iff v).1 h.runs).1, rfl⟩

/-- With no latency and no wait running, the B4 evaluation after the EI must enter. -/
theorem PendingAtEi.interruptEntry_eq {v : State} (h : PendingAtEi v) :
    interruptEntry (complete { v with ie := true }) = enterReceiver (complete { v with ie := true }) := by
  obtain ⟨hf, hidle⟩ := (mainRuns_iff v).1 h.runs
  exact interruptEntry_of_forced hf ((entryReady_iff _).2 ⟨hidle, h.pend, rfl⟩)
    (entryForced_of_no_latency h.lat (by simp [h.tr]))

theorem PendingAtEi.interruptEntry_low {v : State} (h : PendingAtEi v) (hl : rxNow v = .L) :
    interruptEntry (complete { v with ie := true }) = samplingAfterEi v := by
  rw [h.interruptEntry_eq, enterReceiver_low (by exact hl)]; rfl

theorem PendingAtEi.interruptEntry_high {v : State} (h : PendingAtEi v) (hh : rxNow v = .H) :
    interruptEntry (complete { v with ie := true }) = spuriousAfterEi v := by
  obtain ⟨-, hidle⟩ := (mainRuns_iff v).1 h.runs
  rw [h.interruptEntry_eq, enterReceiver_high (by exact hh), ← hidle]; rfl

/-- After a spurious entry B5 goes on. -/
theorem PendingAtEi.spurious_runs {v : State} (h : PendingAtEi v) : mainRuns (spuriousAfterEi v) = true := h.runs

/-- Where the entry starts a reception, it holds MAIN and ends B5's loop. -/
theorem PendingAtEi.mainLoop_low {v : State} (h : PendingAtEi v) (hl : rxNow v = .L) (fuel : Nat) :
    mainLoop (fuel + 1) v = .next (samplingAfterEi v) := by
  obtain ⟨w, hw, hd⟩ := h.cmd
  rw [mainLoop_atCmd h.runs h.ms, fetchExec_of_cmd hw hd, exec_ei, andThen_next, loopOn_completed h.completedNow,
    h.interruptEntry_low hl, mainLoop_idle (by simp [mainRuns, samplingAfterEi])]

/-- After such a B5 only B6 is left: the EI makes no edge of its own. -/
theorem afterMain_samplingAfterEi {atB3 v : State} (hf : v.fault = 0x00#8) (he : edgeNow v = edgeNow atB3) :
    afterMain atB3 (samplingAfterEi v) = tick (samplingAfterEi v) := by
  rw [afterMain_live (by exact hf), ownEdge_same (by exact he)]

/-- Settles O16: the entry after the EI is forced, and the level of RX decides which of its two ways it takes. -/
theorem eiSetsIeAndLetsAPendingEdgeIn : Obligations.EiSetsIeAndLetsAPendingEdgeIn := by
  refine ⟨exec_ei, fun s h hie hp hlat hlow => ?sampling, fun s h hie hp hlat hhigh => ?spurious⟩
  case sampling =>
    have hat := h.pendingAtEi hie hp hlat
    have hstep : step s = .next (tick (samplingAfterEi (beforeMain s))) := by
      rw [step_eq, mainFuel, hat.mainLoop_low hlow, andThen_next,
        afterMain_samplingAfterEi ((mainRuns_iff _).1 hat.runs).1 (edgeNow_beforeMain s)]
    exact ⟨_, hstep, rfl, beforeMain_now s, rfl, rfl, rfl⟩
  case spurious =>
    have hat := h.pendingAtEi hie hp hlat
    refine ⟨_, exec_ei _, hat.completedNow, ?_, ?_⟩ <;> rw [hat.interruptEntry_high hhigh]
    · exact hat.spurious_runs
    · rfl

/-! ### The frame of EI, DI, WAITQ and TXB -/

/-- EI and DI complete, WAITQ and TXB occupy MAIN, unless these two find no READY line. -/
theorem control_cases {i : Instr} {s t : State} (h : exec i s = .next t)
    (hi : i = .ei ∨ i = .di ∨ i = .waitq ∨ ∃ b, i = .txb b) :
    ((i = .ei ∨ i = .di) ∧ ∃ e, t = complete { s with ie := e }) ∨
    (i = .waitq ∧ t = { s with ms := .inWaitq (s.now + 1) }) ∨
    (∃ b, i = .txb b ∧ t = enterTxb b s) ∨
    ((i = .waitq ∨ ∃ b, i = .txb b) ∧ s.line ≠ .ready ∧ t = raiseFault .notInit s) := by
  rcases hi with rfl | rfl | hi
  · exact .inl ⟨.inl rfl, true, (Host.Outcome.next.inj h).symm⟩
  · exact .inl ⟨.inr rfl, false, (Host.Outcome.next.inj h).symm⟩
  by_cases hl : s.line = .ready
  · rcases hi with rfl | ⟨b, rfl⟩
    · rw [exec_waitq, if_pos hl] at h
      exact .inr (.inl ⟨rfl, (Host.Outcome.next.inj h).symm⟩)
    · exact .inr (.inr (.inl ⟨b, rfl, Host.Outcome.next.inj (h.symm.trans (exec_txb_ready hl b))⟩))
  · obtain ⟨k, hk⟩ := exec_requires_ready (s := s) (hi.imp_right .inl)
    rw [hk, requireReady_not hl] at h
    exact .inr (.inr (.inr ⟨hi, hl, (Host.Outcome.next.inj h).symm⟩))

/-- Settles O43: each outcome of the four writes its own registers, and the fault needs a line that is not READY. -/
theorem controlCommandFrame : Obligations.ControlCommandFrame := by
  intro i s t h hi
  rcases control_cases h hi with ⟨hie, e, rfl⟩ | ⟨rfl, rfl⟩ | ⟨b, rfl, rfl⟩ | ⟨hie, hl, rfl⟩
  · refine ⟨⟨rfl, rfl, rfl, rfl⟩, fun _ => rfl, ⟨rfl, rfl, rfl⟩, rfl, rfl, fun _ => ⟨rfl, rfl, rfl⟩, ?_, ?_, fun _ => rfl⟩ <;>
      rcases hie with rfl | rfl <;> nofun
  · exact ⟨⟨rfl, rfl, rfl, rfl⟩, fun _ => rfl, ⟨rfl, rfl, rfl⟩, rfl, rfl, fun _ => ⟨rfl, rfl, rfl⟩,
      fun _ => ⟨rfl, rfl, rfl, rfl⟩, fun _ => rfl, fun _ => rfl⟩
  · exact ⟨⟨rfl, rfl, rfl, rfl⟩, fun _ => rfl, ⟨rfl, rfl, rfl⟩, rfl, rfl, nofun, nofun, fun _ => rfl, fun _ => rfl⟩
  · rw [raiseFault_eq]
    refine ⟨⟨rfl, rfl, rfl, rfl⟩, fun _ => rfl, ⟨rfl, rfl, rfl⟩, rfl, rfl, ?_, fun _ => ⟨rfl, rfl, rfl, rfl⟩,
      fun _ => rfl, fun hr => absurd hr hl⟩
    rcases hie with rfl | ⟨b, rfl⟩ <;> nofun

end Sys2Proof.Machine
end

section
/-! PROOF. The first fault halts the block, and a run depends only on the part of the stream that it has read
(spec/60_exceptions.md sections 1 and 4). -/

namespace Sys2Proof.Machine

/-! ### The first fault -/

theorem atObservationPoint_of_fault {s : State} (hf : s.fault ≠ 0x00#8) : atObservationPoint s = false :=
  Bool.eq_false_iff.2 fun h => hf ((atObservationPoint_iff s).1 h).2.2.2

/-- Settles O40: raising is `raiseFault_eq`, and a halted boundary ends ARMED and lets the tick pass. -/
theorem firstFaultHaltsTheBlock : Obligations.FirstFaultHaltsTheBlock := by
  refine ⟨fun s c => raiseFault_eq c s, fun s hf => ⟨haltedBoundary s, step_of_fault hf, ?_⟩, fun s hf => ?_⟩
  · rw [haltedBoundary_eq hf]
  · exact ⟨atObservationPoint_of_fault hf, observe_of_fault hf⟩

/-! ### Another stream in the same state

Only B5's fetch reads the stream, and B5's loop is bounded by its length: every other operation commutes with replacing
it. The proofs push `replaceStream` into the operation's branches, where it updates a field that they do not write. -/

/-- s with the stream st in place of its own. -/
def replaceStream (st : List Word) (s : State) : State := { s with stream := st }

section ReplaceStream
variable (st : List Word) (s : State)

@[simp] theorem replaceStream_params : (replaceStream st s).params = s.params := rfl
@[simp] theorem replaceStream_txs : (replaceStream st s).txs = s.txs := rfl
@[simp] theorem replaceStream_acc : (replaceStream st s).acc = s.acc := rfl
@[simp] theorem replaceStream_ms : (replaceStream st s).ms = s.ms := rfl

theorem raiseFault_replaceStream (c : FaultCode) :
    raiseFault c (replaceStream st s) = replaceStream st (raiseFault c s) := by
  simp only [raiseFault_eq]; rfl

theorem push_replaceStream (b : Byte) : push b (replaceStream st s) = replaceStream st (push b s) := by
  simp only [push, replaceStream_params, raiseFault_replaceStream, apply_ite (replaceStream st)]
  cases s.params.overflow <;> rfl

theorem sampleStep_replaceStream : sampleStep (replaceStream st s) = replaceStream st (sampleStep s) := by
  simp only [sampleStep, apply_ite (replaceStream st)]
  rfl

theorem completeReception_replaceStream :
    completeReception (replaceStream st s) = replaceStream st (completeReception s) := by
  simp only [completeReception, replaceStream_acc, push_replaceStream, apply_ite (replaceStream st)]
  rfl

theorem receiverProgress_replaceStream :
    receiverProgress (replaceStream st s) = replaceStream st (receiverProgress s) := by
  simp only [receiverProgress, sampleStep_replaceStream, completeReception_replaceStream, apply_ite (replaceStream st)]
  rfl

theorem txBoundary_replaceStream : txBoundary (replaceStream st s) = replaceStream st (txBoundary s) := by
  simp only [txBoundary, replaceStream_txs]
  split
  · rfl
  · simp only [apply_ite (replaceStream st)]; rfl

theorem mainProgress_replaceStream : mainProgress (replaceStream st s) = replaceStream st (mainProgress s) := by
  simp only [mainProgress, replaceStream_ms, apply_ite (replaceStream st), txBoundary_replaceStream]
  cases s.ms with
  | inWaitq te => simp only [waitqBoundary, apply_ite (replaceStream st)]; rfl
  | _ => rfl

theorem disarmAfterFault_replaceStream :
    disarmAfterFault (replaceStream st s) = replaceStream st (disarmAfterFault s) := by
  simp only [disarmAfterFault, apply_ite (replaceStream st)]
  rfl

theorem beforeEdge_replaceStream : beforeEdge (replaceStream st s) = replaceStream st (beforeEdge s) := by
  simp only [beforeEdge, receiverProgress_replaceStream, mainProgress_replaceStream, disarmAfterFault_replaceStream]

theorem pendOnEdge_replaceStream : pendOnEdge (replaceStream st s) = replaceStream st (pendOnEdge s) := by
  simp only [pendOnEdge, replaceStream_params, apply_ite (replaceStream st)]
  cases s.params.maskedEdge <;> rfl

theorem detectEdge_replaceStream : detectEdge (replaceStream st s) = replaceStream st (detectEdge s) := by
  simp only [detectEdge, pendOnEdge_replaceStream, apply_ite (replaceStream st)]
  rfl

theorem enterReceiver_replaceStream : enterReceiver (replaceStream st s) = replaceStream st (enterReceiver s) := by
  simp only [enterReceiver, apply_ite (replaceStream st)]
  rfl

theorem interruptEntry_replaceStream : interruptEntry (replaceStream st s) = replaceStream st (interruptEntry s) := by
  simp only [interruptEntry, apply_ite (replaceStream st), ← enterReceiver_replaceStream]
  rfl

theorem beforeMain_replaceStream : beforeMain (replaceStream st s) = replaceStream st (beforeMain s) := by
  simp only [beforeMain, beforeEdge_replaceStream, detectEdge_replaceStream, interruptEntry_replaceStream]

theorem ownEdge_replaceStream (b : State) :
    ownEdge (replaceStream st b) (replaceStream st s) = replaceStream st (ownEdge b s) := by
  simp only [ownEdge, pendOnEdge_replaceStream, apply_ite (replaceStream st)]
  rfl

theorem afterMain_replaceStream (b : State) :
    afterMain (replaceStream st b) (replaceStream st s) = replaceStream st (afterMain b s) := by
  simp only [afterMain, ownEdge_replaceStream, disarmAfterFault_replaceStream]
  rfl

end ReplaceStream

/-! ### Commands

A command's meaning neither reads nor writes the stream. -/

/-- The outcome o with the stream st in the state it answers. -/
def answerWithStream (st : List Word) (o : Host.Outcome State Fault Refusal) : Host.Outcome State Fault Refusal :=
  andThen o fun t => .next (replaceStream st t)

section Commands
variable (st : List Word) (s : State)

theorem requireReady_replaceStream {k : State → Host.Outcome State Fault Refusal}
    (hk : k (replaceStream st s) = answerWithStream st (k s)) :
    requireReady (replaceStream st s) k = answerWithStream st (requireReady s k) := by
  by_cases hl : s.line = .ready
  · rw [requireReady_ready hl, requireReady_ready (s := replaceStream st s) hl, hk]
  · rw [requireReady_not hl, requireReady_not (s := replaceStream st s) hl, raiseFault_replaceStream]
    rfl

theorem pollRdb_replaceStream : pollRdb (replaceStream st s) = answerWithStream st (pollRdb s) := by
  simp only [pollRdb, apply_ite (answerWithStream st)]
  rfl

theorem execInit_replaceStream : execInit (replaceStream st s) = answerWithStream st (execInit s) := by
  simp only [execInit, raiseFault_replaceStream, replaceStream_params, apply_ite (answerWithStream st)]
  cases delayCount s.params.clkHz s.params.baud <;> rfl

theorem exec_replaceStream (i : Instr) : exec i (replaceStream st s) = answerWithStream st (exec i s) := by
  cases i with
  | init => exact execInit_replaceStream st s
  | waitq => simp only [exec, execWaitq]; exact requireReady_replaceStream st s rfl
  | ei => rfl
  | di => rfl
  | txb b => simp only [exec, execTxb]; exact requireReady_replaceStream st s rfl
  | rdnb =>
    simp only [exec, execRdnb]
    refine requireReady_replaceStream st s ?_
    simp only [apply_ite (answerWithStream st)]
    rfl
  | rdb =>
    simp only [exec, execRdb, show inPoll (replaceStream st s) = inPoll s from rfl]
    split
    · exact pollRdb_replaceStream st s
    · exact requireReady_replaceStream st s (pollRdb_replaceStream st s)
  | rdovf => simp only [exec, execRdovf]; exact requireReady_replaceStream st s rfl

end Commands

/-! ### A longer stream

Where st begins with the old stream, a fetch inside that reads the same word; MAIN that is not DONE made no other. -/

section LongerStream
variable {st : List Word} {s t u : State}

theorem exec_replaceStream_next {i : Instr} (h : exec i s = .next u) :
    exec i (replaceStream st s) = .next (replaceStream st u) := by
  rw [exec_replaceStream, h]; rfl

theorem fetch_replaceStream {w : Word} (hst : s.stream <+: st) (h : fetch s = some w) :
    fetch (replaceStream st s) = some w := by
  obtain ⟨hlt, hw⟩ := List.getElem?_eq_some_iff.1 h
  exact hw ▸ List.prefix_iff_getElem?.1 hst s.cp hlt

theorem fetchExec_replaceStream (hst : s.stream <+: st) (h : fetchExec s = .next u) (hu : u.ms ≠ .done) :
    fetchExec (replaceStream st s) = .next (replaceStream st u) := by
  rcases fetchExec_cases s with ⟨-, he⟩ | ⟨w, hw, hd, he⟩ | ⟨w, i, hw, hd, he⟩
  · obtain rfl := Host.Outcome.next.inj (he.symm.trans h)
    exact absurd rfl hu
  · obtain rfl := Host.Outcome.next.inj (he.symm.trans h)
    simp [fetchExec, fetch_replaceStream hst hw, hd, raiseFault_replaceStream]
  · rw [fetchExec_of_cmd (fetch_replaceStream hst hw) hd]
    exact exec_replaceStream_next (he.symm.trans h)

theorem evaluates_replaceStream (h : Evaluates s u) (hst : s.stream <+: st) (hu : u.ms ≠ .done) :
    Evaluates (replaceStream st s) (replaceStream st u) := by
  obtain ⟨hr, ⟨hm, he⟩ | ⟨te, hm, ht, he⟩⟩ := h
  · exact ⟨hr, .inl ⟨hm, fetchExec_replaceStream hst he hu⟩⟩
  · exact ⟨hr, .inr ⟨te, hm, ht, exec_replaceStream_next he⟩⟩

/-- Whether B5's loop evaluates anything is a matter of FAULT, RXS, MS and the clock. -/
theorem exists_evaluates_iff :
    (∃ u, Evaluates s u) ↔ mainRuns s = true ∧ (s.ms = .atCmd ∨ ∃ te, s.ms = .inRdb te ∧ te ≤ s.now) := by
  constructor
  · rintro ⟨u, hr, ⟨hm, -⟩ | ⟨te, hm, ht, -⟩⟩
    · exact ⟨hr, .inl hm⟩
    · exact ⟨hr, .inr ⟨te, hm, ht⟩⟩
  · rintro ⟨hr, hm | ⟨te, hm, ht⟩⟩
    · obtain ⟨u, hu⟩ := fetchExec_answers s
      exact ⟨u, hr, .inl ⟨hm, hu⟩⟩
    · obtain ⟨u, hu⟩ := exec_answers .rdb s
      exact ⟨u, hr, .inr ⟨te, hm, ht, hu⟩⟩

theorem exists_evaluates_replaceStream : (∃ u, Evaluates (replaceStream st s) u) ↔ ∃ u, Evaluates s u :=
  (exists_evaluates_iff (s := replaceStream st s)).trans (exists_evaluates_iff (s := s)).symm

theorem mainLoop_of_not_evaluates (h : ¬ ∃ u, Evaluates s u) (fuel : Nat) : mainLoop fuel s = .next s := by
  rcases mainLoop_cases s with hstay | ⟨u, hu, -⟩
  · exact hstay fuel
  · exact absurd ⟨u, hu⟩ h

theorem Evaluates.mainLoop_eq (h : Evaluates s u) (fuel : Nat) : mainLoop (fuel + 1) s = loopOn fuel u := by
  obtain ⟨hr, ⟨hm, he⟩ | ⟨te, hm, ht, he⟩⟩ := h
  · rw [mainLoop_atCmd hr hm, he, andThen_next]
  · rw [mainLoop_poll hr hm ht, he, andThen_next]

theorem mainLoop_replaceStream (fuel : Nat) : ∀ {s : State}, s.stream <+: st → mainLoop fuel s = .next t →
    t.ms ≠ .done → mainLoop fuel (replaceStream st s) = .next (replaceStream st t) := by
  induction fuel with
  | zero =>
    intro s _ h _
    obtain rfl := Host.Outcome.next.inj h
    rfl
  | succ fuel ih =>
    intro s hst h ht
    by_cases hev : ∃ u, Evaluates s u
    · obtain ⟨u, hu⟩ := hev
      rw [hu.mainLoop_eq] at h
      cases hc : completedNow u
      · rw [loopOn_stopped hc] at h
        obtain rfl := Host.Outcome.next.inj h
        rw [(evaluates_replaceStream hu hst ht).mainLoop_eq]
        exact loopOn_stopped (u := replaceStream st u) hc fuel
      · rw [loopOn_completed hc] at h
        have hms : u.ms ≠ .done := by rw [((completedNow_iff u).1 hc).2]; nofun
        rw [(evaluates_replaceStream hu hst hms).mainLoop_eq, loopOn_completed (u := replaceStream st u) hc,
          interruptEntry_replaceStream]
        refine ih ?_ h ht
        rw [(interruptEntry_main u).2.2, hu.onward.launch.2.1]
        exact hst
    · obtain rfl := Host.Outcome.next.inj ((mainLoop_of_not_evaluates hev _).symm.trans h)
      exact mainLoop_of_not_evaluates (fun hev' => hev (exists_evaluates_replaceStream.1 hev')) _

theorem afterMain_ms (b u : State) : (afterMain b u).ms = u.ms := by
  obtain ⟨_, _, _, h⟩ := afterMain_frame b u
  rw [h]

/-- The longer stream bounds B5's loop by more, which `mainLoop_fuel` shows to change nothing. -/
theorem step_replaceStream (hst : s.stream <+: st) (h : step s = .next t) (ht : t.ms ≠ .done) :
    step (replaceStream st s) = .next (replaceStream st t) := by
  obtain ⟨u, hu, rfl⟩ := step_cases h
  rw [afterMain_ms] at ht
  have hstream : (beforeMain s).stream <+: st := by
    rw [((onward_beforeEdge s).trans (onward_beforeMain s)).launch.2.1]
    exact hst
  have hfuel : mainFuel (beforeMain s) ≤ mainFuel (replaceStream st (beforeMain s)) :=
    Nat.add_le_add_right (Nat.sub_le_sub_right hstream.length_le _) 2
  rw [mainLoop_fuel (Nat.le_refl (mainFuel (beforeMain s))) hfuel] at hu
  rw [step_eq, beforeMain_replaceStream, beforeEdge_replaceStream, mainLoop_replaceStream _ hstream hu ht, andThen_next,
    afterMain_replaceStream]

/-- MAIN that is DONE stays DONE: B2 and B5 have nothing to do for it. -/
theorem step_done (h : step s = .next t) (hs : s.ms = .done) : t.ms = .done := by
  obtain ⟨u, hu, rfl⟩ := step_cases h
  have hrx : (receiverProgress s).ms = .done := (receiverProgress_main s).1.trans hs
  have hb : (beforeEdge s).ms = .done := by
    obtain ⟨_, ha, -⟩ := disarmAfterFault_cases (receiverProgress s)
    rw [beforeEdge, mainProgress_still (by simp [hrx]) (by simp [isWaiting, hrx]), ha]
    exact hrx
  have hm : (beforeMain s).ms = .done := by
    obtain ⟨-, -, -, -, -, -, hms, -⟩ := beforeMain_keeps s
    exact hms.trans hb
  rw [mainLoop_busy (.inr (.inl hm))] at hu
  obtain rfl := Host.Outcome.next.inj hu
  rw [afterMain_ms, hm]

end LongerStream

/-! ### Runs -/

theorem runSteps_done (n : Nat) : ∀ {s t : State}, runSteps n s = .next t → s.ms = .done → t.ms = .done := by
  induction n with
  | zero =>
    intro s t h hs
    obtain rfl := Host.Outcome.next.inj h
    exact hs
  | succ n ih =>
    intro s t h hs
    obtain ⟨u, hu, h⟩ := andThen_eq_next.1 h
    exact ih h (step_done hu hs)

theorem runSteps_replaceStream {st : List Word} (n : Nat) : ∀ {s t : State}, s.stream <+: st →
    runSteps n s = .next t → t.ms ≠ .done → runSteps n (replaceStream st s) = .next (replaceStream st t) := by
  induction n with
  | zero =>
    intro s t _ h _
    obtain rfl := Host.Outcome.next.inj h
    rfl
  | succ n ih =>
    intro s t hst h ht
    obtain ⟨u, hu, h⟩ := andThen_eq_next.1 h
    have hums : u.ms ≠ .done := fun hd => ht (runSteps_done n h hd)
    obtain ⟨⟨-, hstream, -⟩, -⟩ := whatNoBoundaryUndoes s u hu
    rw [runSteps_succ (step_replaceStream hst hu hums)]
    exact ih (hstream ▸ hst) h ht

theorem streamPrefix_prefix (f : Nat → Word) {m n : Nat} (h : m ≤ n) : streamPrefix f m <+: streamPrefix f n := by
  refine List.IsPrefix.map f ?_
  rw [← Nat.min_eq_left h, ← List.take_range]
  exact List.take_prefix m (List.range n)

/-- A launch with a nonempty stream begins at a command, whatever follows in the stream. -/
theorem launch_replaceStream {p : Params} {ws st : List Word} {rx : List Level} (hne : ws ≠ []) (hst : ws <+: st) :
    State.launch p st rx = replaceStream st (State.launch p ws rx) := by
  have hne' : st ≠ [] := fun h => hne (List.prefix_nil.1 (h ▸ hst))
  simp [State.launch, replaceStream, hne, hne']

/-- A run on the first words of f is the run on more of its words. -/
theorem runSteps_launch_prefix {p : Params} {f : Nat → Word} {rx : List Level} {n m k : Nat} {t : State}
    (hmk : m ≤ k) (h : runSteps n (State.launch p (streamPrefix f m) rx) = .next t) (ht : t.ms ≠ .done) :
    runSteps n (State.launch p (streamPrefix f k) rx) = .next (replaceStream (streamPrefix f k) t) := by
  have hpre := streamPrefix_prefix f hmk
  have hne : streamPrefix f m ≠ [] := fun he => ht (runSteps_done n h (if_pos he))
  rw [launch_replaceStream hne hpre]
  exact runSteps_replaceStream n hpre h ht

/-- Settles O48: two prefixes have the longer one in common. -/
theorem longerStreamGivesTheSameRun : Obligations.LongerStreamGivesTheSameRun := by
  refine ⟨fun s t ws n h ht => runSteps_replaceStream n (List.prefix_append _ _) h ht, ?_⟩
  rintro p f rx n u u' ⟨m, t, h, ht, rfl⟩ ⟨m', t', h', ht', rfl⟩
  have hrun := runSteps_launch_prefix (le_max_left m m') h ht
  have hrun' := runSteps_launch_prefix (le_max_right m m') h' ht'
  have heq := Host.Outcome.next.inj (hrun.symm.trans hrun')
  exact (congrArg (replaceStream []) heq :)

end Sys2Proof.Machine
end

section
/-! PROOF. The comparator before it is armed (spec/70_reset_and_hazards.md section 1, R341): only B3's edge detection and
the edge rule after B5 set PEND, and both go by the ARMED of B3, which an INIT of this boundary comes too late for. -/

namespace Sys2Proof.Machine

/-! ### B1 to B4 -/

/-- B1 and B2 leave PEND, and arm nothing. -/
theorem beforeEdge_comparator (s : State) :
    (beforeEdge s).pend = s.pend ∧ ((beforeEdge s).armed = true → s.armed = true) := by
  obtain ⟨_, _, _, _, _, _, _, _, _, h1⟩ := receiverProgress_frame s
  obtain ⟨_, _, _, _, _, h2⟩ := mainProgress_frame (receiverProgress s)
  obtain ⟨_, h3, harmed, -⟩ := disarmAfterFault_cases (mainProgress (receiverProgress s))
  rw [h2, h1] at h3 harmed
  rw [beforeEdge, h2, h1, h3]
  exact ⟨rfl, harmed⟩

/-- B4 may clear PEND; it never sets it. -/
theorem interruptEntry_pend {s : State} (hp : s.pend = false) : (interruptEntry s).pend = false := by
  rcases interruptEntry_cases s with ⟨-, h⟩ | ⟨-, -, h⟩ | ⟨-, hr, -⟩ | ⟨-, -, -, h⟩
  · rw [h]; exact hp
  · rw [h]; exact hp
  · obtain ⟨-, hset, -⟩ := (entryReady_iff s).1 hr
    exact absurd hset (by simp [hp])
  · rw [h]; exact hp

theorem beforeMain_pend {s : State} (ha : (beforeEdge s).armed = false) (hp : s.pend = false) :
    (beforeMain s).pend = false := by
  obtain ⟨hpend, -⟩ := beforeEdge_comparator s
  rw [beforeMain, detectEdge_quiet (by simp [ha])]
  exact interruptEntry_pend (hpend.trans hp)

/-! ### B5 and after -/

/-- No command sets PEND: INIT's success clears it, and every other outcome leaves it. -/
theorem exec_pend {i : Instr} {s t : State} (h : exec i s = .next t) (hp : s.pend = false) : t.pend = false := by
  rcases exec_cases h with ⟨c, rfl⟩ | ⟨-, -, ⟨n, -, rfl⟩ | ⟨-, rfl⟩⟩ | ⟨-, -, rfl⟩ | ⟨-, rfl⟩ | ⟨-, rfl⟩ |
    ⟨b, -, -, rfl⟩ | ⟨-, -, -, rfl⟩ | ⟨-, -, -, rfl⟩ | ⟨-, -, -, rfl⟩ | ⟨-, -, rfl⟩
  · rw [raiseFault_eq]; exact hp
  · rfl
  all_goals exact hp

theorem fetchExec_pend {s t : State} (h : fetchExec s = .next t) (hp : s.pend = false) : t.pend = false := by
  rcases fetchExec_cases s with ⟨-, he⟩ | ⟨w, -, -, he⟩ | ⟨w, i, -, -, he⟩
  · obtain rfl := Host.Outcome.next.inj (he.symm.trans h)
    exact hp
  · obtain rfl := Host.Outcome.next.inj (he.symm.trans h)
    rw [raiseFault_eq]; exact hp
  · exact exec_pend (he.symm.trans h) hp

theorem Evaluates.pend {s u : State} (h : Evaluates s u) (hp : s.pend = false) : u.pend = false := by
  obtain ⟨-, ⟨-, he⟩ | ⟨te, -, -, he⟩⟩ := h
  · exact fetchExec_pend he hp
  · exact exec_pend he hp

theorem mainLoop_pend {fuel : Nat} {s t : State} (h : mainLoop fuel s = .next t) (hp : s.pend = false) :
    t.pend = false :=
  mainLoop_preserves (P := fun u => u.pend = false) (fun _ _ hs hu => hu.pend hs) (fun _ hs _ => interruptEntry_pend hs)
    fuel s t hp h

/-- The edge rule after B5 goes by the ARMED of B3, whatever B5 has armed. -/
theorem afterMain_pend_unarmed {atB3 u : State} (ha : atB3.armed = false) : (afterMain atB3 u).pend = u.pend := by
  obtain ⟨a, hd, -⟩ := disarmAfterFault_cases u
  rw [afterMain, ownEdge_none (.inl ha), hd]; rfl

/-- Settles O39: with ARMED = 0 at B3, nothing in B1 to B6 sets PEND. -/
theorem noEdgeIsSeenBeforeArming : Obligations.NoEdgeIsSeenBeforeArming := by
  intro s t ha hp h
  obtain ⟨u, hu, rfl⟩ := step_cases h
  obtain ⟨-, harms⟩ := beforeEdge_comparator s
  have hunarmed : (beforeEdge s).armed = false := Bool.eq_false_iff.2 fun hb => by simp [harms hb] at ha
  rw [afterMain_pend_unarmed hunarmed]
  exact mainLoop_pend hu (beforeMain_pend hunarmed hp)

end Sys2Proof.Machine
end

section
/-! PROOF. The round trip of the encoding, as words and as stored bytes (spec/30_encoding.md section 2, spec/20_memory.md
section 2). -/

namespace Sys2Proof.Machine

/-- The two bytes of a stored word are put together again and decoded as that word (R73, R107). -/
theorem decodeBytes_wordBytes_of_cmd {w : Word} {i : Instr} (h : decodeWord w = .cmd i) (rest : List Byte) :
    decodeBytes (wordBytes w ++ rest) = .cmd i rest := by
  simp only [wordBytes, List.cons_append, List.nil_append, decodeBytes, mkWord_fields, h]

/-- Settles O2: a word is its two fields, and those of a command's word take its branch of R105; the byte form reads the
same word from its two bytes. -/
theorem decodeInvertsEncode : Obligations.DecodeInvertsEncode :=
  ⟨fun _ _ => decodeWord_eq_cmd_iff, fun i => decodeBytes_wordBytes_of_cmd (decodeWord_encode i)⟩

end Sys2Proof.Machine
end
